-- ==== Sys2Proof/Word.lean ====
section
/-!
DEFINITION. The word types of the block and the small closed alternatives a header field can hold
(00_scope.md R11, R12; 30_encoding.md R56).
-/

namespace Sys2Proof

/-- A byte: 8 bits, bit 0 the least significant (R11). -/
abbrev Byte := BitVec 8

/-- A 32-bit word of a packet header (R55, R57). -/
abbrev Word := BitVec 32

/-- A bit sequence: element 0 comes first (R12). A bit is "a boolean" (R11). -/
abbrev Bits := List Bool

/-- A byte sequence: element 0 comes first (R12). -/
abbrev Bytes := List Byte

/-- The `A` field, the source's `alignment` (R56): 0 = left-aligned, 1 = right-aligned. -/
inductive Align
  | left
  | right
deriving DecidableEq, Repr

/-- The `DST` field of an encoder (R56): 0 = `none`, 1 = `append`, 2 = `write`, 3 = reserved. The
reserved value is kept apart, so that the encoders can refuse it (R66 (c)). -/
inductive Dst
  | none
  | append
  | write
  | reserved
deriving DecidableEq, Repr

end Sys2Proof
end

