-- ==== Sys2Proof/Config.lean ====
section
/-!
DEFINITION. What an implementation fixes (00_scope.md R8, 10_state.md R30). The spec leaves the three
size parameters OPEN (92_eei_decisions.md D2 to D4): each is a constant with no body, restricted by its
type to the range the spec gives, so that a theorem holds for every legal implementation.
Log entry 1 (DESIGN CHOICE).
-/

namespace Sys2Proof

/-- How far `MAXBITS` exceeds its floor 64, or `none` where it is unbounded (R8: 64 ≤ `MAXBITS` ≤ 2^32 − 1,
or unbounded). -/
opaque Config.maxBitsExcess : Option (Fin (2 ^ 32 - 64))

/-- How far `BB_CAP` exceeds `MAXBITS`, or `none` where it is unbounded (R8). -/
opaque Config.bbCapExcess : Option Nat

/-- How far `MAXIN` exceeds its floor 8, or `none` where it is unbounded (R8: 8 ≤ `MAXIN` ≤ 2^32 − 1, or
unbounded). -/
opaque Config.maxInExcess : Option (Fin (2 ^ 32 - 8))

/-- `MAXBITS`, the largest legal `BITSIZE` of a field-geometry command; `none` = unbounded (R8). -/
def Config.maxBits : Option Nat := Config.maxBitsExcess.map fun k => 64 + k.val

/-- `MAXIN`, the largest legal payload length in bytes; `none` = unbounded (R8). -/
def Config.maxIn : Option Nat := Config.maxInExcess.map fun k => 8 + k.val

/-- `BB_CAP`, the largest length of the BitBuffer in bits; `none` = unbounded. It is at least `MAXBITS`
(R8), so it is unbounded where `MAXBITS` is, and a finite one is at most 2^32 − 1 (R29). -/
def Config.bbCap : Option Nat :=
  match Config.maxBits, Config.bbCapExcess with
  | some m, some k => some (min (m + k) (2 ^ 32 - 1))
  | _, _ => none

/-- `VARIANT`, the codec variant: exactly one value, 0 (R8, R30). -/
def Config.variant : Nat := 0

end Sys2Proof
end

