-- ==== Sys2Proof/Syntax.lean ====
section
/-!
DEFINITION. The commands: one constructor per row of the opcode map (30_encoding.md R63). A constructor
holds the header fields the row lists (R62, and opcode_table.json) and the payload `P`; `PLEN` is the
payload's length (R57). A header field a command's format does not use is ignored (R58) and so is not
held (log entry 9).
-/

namespace Sys2Proof

/-- A command of the block (R55, R63). Field names: `sg` is `S`, `al` is `A`, `rv` is `RV`, `dst` is `DST`,
`pad` is `PAD`, `chunk` is `CHUNK`, `bits` is `BITSIZE`, `bitOff` is `BITOFF`, `byteOff` is `BYTEOFF`, and `p` is
the payload `P`. -/
inductive Instr
  | nop (p : Bytes)
  | swTowin (sg : Bool) (bits : Word) (p : Bytes)
  | swFromwin (sg : Bool) (bits : Word) (p : Bytes)
  | brRbits (p : Bytes)
  | brRbytes (p : Bytes)
  | ptPart (chunk : Byte) (bits : Word) (p : Bytes)
  | ptFlat (chunk : Byte) (bits : Word) (p : Bytes)
  | ptPack (rv : Bool) (chunk : Byte) (bits : Word) (p : Bytes)
  | beEncode (pad : Byte) (bits : Word) (p : Bytes)
  | encByte (sg : Bool) (dst : Dst) (pad : Byte) (bits bitOff : Word) (p : Bytes)
  | encShort (sg : Bool) (dst : Dst) (pad : Byte) (bits bitOff : Word) (p : Bytes)
  | encInt (sg : Bool) (dst : Dst) (pad : Byte) (bits bitOff : Word) (p : Bytes)
  | encLong (sg : Bool) (dst : Dst) (pad : Byte) (bits bitOff : Word) (p : Bytes)
  | encBigint (sg : Bool) (dst : Dst) (pad : Byte) (bits bitOff : Word) (p : Bytes)
  | encFloat (sg : Bool) (dst : Dst) (pad : Byte) (bits bitOff : Word) (p : Bytes)
  | encDouble (sg : Bool) (dst : Dst) (pad : Byte) (bits bitOff : Word) (p : Bytes)
  | encBytes (sg : Bool) (al : Align) (dst : Dst) (pad : Byte) (bits bitOff : Word) (p : Bytes)
  | encBcd (sg : Bool) (al : Align) (dst : Dst) (pad : Byte) (bits bitOff : Word) (p : Bytes)
  | decByte (sg : Bool) (bits bitOff byteOff : Word) (p : Bytes)
  | decShort (sg : Bool) (bits bitOff byteOff : Word) (p : Bytes)
  | decInt (sg : Bool) (bits bitOff byteOff : Word) (p : Bytes)
  | decLong (sg : Bool) (bits bitOff byteOff : Word) (p : Bytes)
  | decBigint (sg : Bool) (bits bitOff byteOff : Word) (p : Bytes)
  | decFloat (sg : Bool) (bits bitOff byteOff : Word) (p : Bytes)
  | decDouble (sg : Bool) (bits bitOff byteOff : Word) (p : Bytes)
  | decBytes (sg : Bool) (bits bitOff byteOff : Word) (p : Bytes)
  | decBcd (sg : Bool) (bits bitOff byteOff : Word) (p : Bytes)
  | decBits (sg : Bool) (bits bitOff byteOff : Word) (p : Bytes)
  | bbAppend (pad : Byte) (bits : Word) (p : Bytes)
  | bbWrite (pad : Byte) (bits bitOff : Word) (p : Bytes)
  | bbTobytes (p : Bytes)
  | bbClear (p : Bytes)
deriving DecidableEq, Repr

/-- The payload `P` of a command (R59). -/
def Instr.payload : Instr → Bytes
  | .nop p | .swTowin _ _ p | .swFromwin _ _ p | .brRbits p | .brRbytes p => p
  | .ptPart _ _ p | .ptFlat _ _ p | .ptPack _ _ _ p | .beEncode _ _ p => p
  | .encByte _ _ _ _ _ p | .encShort _ _ _ _ _ p | .encInt _ _ _ _ _ p | .encLong _ _ _ _ _ p => p
  | .encBigint _ _ _ _ _ p | .encFloat _ _ _ _ _ p | .encDouble _ _ _ _ _ p => p
  | .encBytes _ _ _ _ _ _ p | .encBcd _ _ _ _ _ _ p => p
  | .decByte _ _ _ _ p | .decShort _ _ _ _ p | .decInt _ _ _ _ p | .decLong _ _ _ _ p => p
  | .decBigint _ _ _ _ p | .decFloat _ _ _ _ p | .decDouble _ _ _ _ p | .decBytes _ _ _ _ p => p
  | .decBcd _ _ _ _ p | .decBits _ _ _ _ p => p
  | .bbAppend _ _ p | .bbWrite _ _ _ p | .bbTobytes p | .bbClear p => p

end Sys2Proof
end

