-- ==== Sys2Proof/WellFormed.lean ====
section
/-!
DEFINITION. Which commands have a byte form (`Instr.wellFormed`), and which commands the spec defines
(`Instr.legal`: the ones that `ILLEGAL_COMMAND` does not answer). The meanings do not call these checks:
each makes its own, in the order its rule gives them. `Instr.legal` says the same once more, from the
list of illegal encodings (30_encoding.md R58, R66) and the length rules.
-/

namespace Sys2Proof

/-- A command has a byte form when its payload length fits the 32-bit word `PLEN` (R57); every other field
holds exactly the values its header bits can carry. -/
def Instr.wellFormed (i : Instr) : Bool := decide (i.payload.length < 2 ^ 32)

/-- `v` does not exceed the limit; `none` is no limit (R8). -/
def Config.admits (limit : Option Nat) (v : Nat) : Bool := limit.all fun m => decide (v ≤ m)

/-- `PLEN ≤ MAXIN` (R58, R66 (f)). -/
def Instr.payloadLegal (p : Bytes) : Bool := Config.admits Config.maxIn p.length

/-- The common rule of a field-geometry command: `1 ≤ BITSIZE ≤ MAXBITS` and `PLEN ≤ MAXIN` (R58, R66 (e),
(f)). -/
def Instr.fieldLegal (bits : Word) (p : Bytes) : Bool :=
  Instr.payloadLegal p && decide (1 ≤ bits.toNat) && Config.admits Config.maxBits bits.toNat

/-- The common rule of a sequence command: `CHUNK ≠ 0`, `BITSIZE ≤ 8·MAXIN` and `PLEN ≤ MAXIN` (R58, R66 (d)
to (f)). -/
def Instr.sequenceLegal (chunk : Byte) (bits : Word) (p : Bytes) : Bool :=
  Instr.payloadLegal p && decide (chunk ≠ 0) && Config.admits (Config.maxIn.map (8 * ·)) bits.toNat

/-- The common rule of an encoder: a field-geometry command with `DST ≠ 3` (R66 (c)). -/
def Instr.encoderLegal (dst : Dst) (bits : Word) (p : Bytes) : Bool :=
  Instr.fieldLegal bits p && decide (dst ≠ .reserved)

/-- The command is one the spec defines: no case of R66, its own payload-length rule holds, and a typed
decoder's `BITSIZE` is within the native width (R137). -/
def Instr.legal : Instr → Bool
  | .nop p | .bbTobytes p | .bbClear p => decide (p = [])
  | .swTowin _ bits p | .swFromwin _ bits p => Instr.fieldLegal bits p && decide (1 ≤ p.length)
  | .brRbits p => decide (p.length = 1)
  | .brRbytes p => Instr.payloadLegal p
  | .ptPart c bits p => Instr.sequenceLegal c bits p && decide (p.length = (bits.toNat + 7) / 8)
  | .ptFlat c bits p =>
      Instr.sequenceLegal c bits p &&
        decide (p.length = (bits.toNat + c.toNat - 1) / c.toNat * ((c.toNat + 7) / 8))
  | .ptPack _ c bits p =>
      Instr.sequenceLegal c bits p && decide (c.toNat ≤ 8) &&
        decide (p.length = (bits.toNat + c.toNat - 1) / c.toNat)
  | .beEncode _ bits p | .bbAppend _ bits p | .bbWrite _ bits _ p => Instr.fieldLegal bits p
  | .encByte _ dst _ bits _ p => Instr.encoderLegal dst bits p && decide (p.length = 1)
  | .encShort _ dst _ bits _ p => Instr.encoderLegal dst bits p && decide (p.length = 2)
  | .encInt _ dst _ bits _ p | .encFloat _ dst _ bits _ p =>
      Instr.encoderLegal dst bits p && decide (p.length = 4)
  | .encLong _ dst _ bits _ p | .encDouble _ dst _ bits _ p =>
      Instr.encoderLegal dst bits p && decide (p.length = 8)
  | .encBigint _ dst _ bits _ p => Instr.encoderLegal dst bits p && decide (1 ≤ p.length)
  | .encBytes _ _ dst _ bits _ p => Instr.encoderLegal dst bits p
  | .encBcd _ _ dst _ bits _ p =>
      Instr.encoderLegal dst bits p && decide (p.length ≤ bits.toNat / 4)
  | .decByte _ bits _ _ p => Instr.fieldLegal bits p && decide (bits.toNat ≤ 8)
  | .decShort _ bits _ _ p => Instr.fieldLegal bits p && decide (bits.toNat ≤ 16)
  | .decInt _ bits _ _ p | .decFloat _ bits _ _ p =>
      Instr.fieldLegal bits p && decide (bits.toNat ≤ 32)
  | .decLong _ bits _ _ p | .decDouble _ bits _ _ p =>
      Instr.fieldLegal bits p && decide (bits.toNat ≤ 64)
  | .decBigint _ bits _ _ p | .decBytes _ bits _ _ p | .decBcd _ bits _ _ p | .decBits _ bits _ _ p =>
      Instr.fieldLegal bits p

end Sys2Proof
end

