-- ==== Sys2Proof/Decode.lean ====
section
/-!
DEFINITION. From the bytes of a command packet to a command and back (30_encoding.md R55 to R58, R63, R64,
R66, R67). The decoder is total on any bytes. It rejects by name what is no packet or what no row of the
opcode map selects; every other legality check belongs to the command's own rule (R64 step 4) and is made
by its meaning (log entry 9).
-/

namespace Sys2Proof

/-- Why bytes are no command. `incomplete`: fewer than `20 + PLEN` bytes are there (R64 steps 1 and 2).
`reservedBits`: `RSV ≠ 0` (R66 (b)). `reservedOpcode`: `OPC` is not in the opcode map (R66 (a)). The step
waits on the first and answers the other two with `ILLEGAL_COMMAND`. -/
inductive DecodeError
  | incomplete
  | reservedBits
  | reservedOpcode (opc : Byte)
deriving DecidableEq, Repr

/-- The five header words of a command packet (R55). -/
structure Header where
  w0 : Word
  w1 : Word
  w2 : Word
  w3 : Word
  w4 : Word
deriving DecidableEq, Repr

/-! ## Words and bytes -/

/-- The word sent least significant byte first (R55). -/
def wordOfBytes (b0 b1 b2 b3 : Byte) : Word := b3 ++ b2 ++ b1 ++ b0

/-- The four bytes of a word, least significant first (R55). -/
def bytesOfWord (w : Word) : Bytes :=
  [w.extractLsb' 0 8, w.extractLsb' 8 8, w.extractLsb' 16 8, w.extractLsb' 24 8]

/-- Read one word off the front of a byte sequence. -/
def takeWord : Bytes → Option (Word × Bytes)
  | b0 :: b1 :: b2 :: b3 :: rest => some (wordOfBytes b0 b1 b2 b3, rest)
  | _ => none

/-- Read the 20 header bytes (R64 step 1). -/
def takeHeader (bs : Bytes) : Option (Header × Bytes) := do
  let (w0, bs) ← takeWord bs
  let (w1, bs) ← takeWord bs
  let (w2, bs) ← takeWord bs
  let (w3, bs) ← takeWord bs
  let (w4, bs) ← takeWord bs
  pure (⟨w0, w1, w2, w3, w4⟩, bs)

/-- The 20 bytes of a header. -/
def Header.bytes (h : Header) : Bytes :=
  bytesOfWord h.w0 ++ bytesOfWord h.w1 ++ bytesOfWord h.w2 ++ bytesOfWord h.w3 ++ bytesOfWord h.w4

/-! ## The fields of the header (R56, R57) -/

/-- `OPC`, bits 7:0 of `W0`. -/
def Header.opc (h : Header) : Byte := h.w0.extractLsb' 0 8

/-- `S`, bit 8 of `W0`. -/
def Header.sg (h : Header) : Bool := h.w0.getLsbD 8

/-- `A`, bit 9 of `W0`: 0 = left, 1 = right. -/
def Header.al (h : Header) : Align := if h.w0.getLsbD 9 then .right else .left

/-- `RV`, bit 10 of `W0`. -/
def Header.rv (h : Header) : Bool := h.w0.getLsbD 10

/-- `DST`, bits 12:11 of `W0`. -/
def Header.dst (h : Header) : Dst :=
  match h.w0.getLsbD 12, h.w0.getLsbD 11 with
  | false, false => .none
  | false, true => .append
  | true, false => .write
  | true, true => .reserved

/-- `RSV`, bits 15:13 of `W0`. -/
def Header.rsv (h : Header) : BitVec 3 := h.w0.extractLsb' 13 3

/-- `PAD`, bits 23:16 of `W0`. -/
def Header.pad (h : Header) : Byte := h.w0.extractLsb' 16 8

/-- `CHUNK`, bits 31:24 of `W0`. -/
def Header.chunk (h : Header) : Byte := h.w0.extractLsb' 24 8

/-- `BITSIZE`, `W1`. -/
def Header.bits (h : Header) : Word := h.w1

/-- `BITOFF`, `W2`. -/
def Header.bitOff (h : Header) : Word := h.w2

/-- `BYTEOFF`, `W3`. -/
def Header.byteOff (h : Header) : Word := h.w3

/-- `PLEN`, `W4`, as a number of bytes. -/
def Header.plen (h : Header) : Nat := h.w4.toNat

/-! ## The decoder (R63, R64) -/

/-- A row of the opcode map: `OPC`, and the command it selects, made from the fields its row lists (R63). -/
abbrev CommandRow := Byte × (Header → Bytes → Instr)

/-- The rows of `NOP` and the buffer commands (R63). -/
def systemRows : List CommandRow :=
  [(0x00, fun _ p => .nop p),
   (0x30, fun h p => .bbAppend h.pad h.bits p),
   (0x31, fun h p => .bbWrite h.pad h.bits h.bitOff p),
   (0x32, fun _ p => .bbTobytes p),
   (0x33, fun _ p => .bbClear p)]

/-- The rows of SignWindow, BitReversal, the Partitioner and the primitive (R63). -/
def pureRows : List CommandRow :=
  [(0x01, fun h p => .swTowin h.sg h.bits p),
   (0x02, fun h p => .swFromwin h.sg h.bits p),
   (0x04, fun _ p => .brRbits p),
   (0x05, fun _ p => .brRbytes p),
   (0x08, fun h p => .ptPart h.chunk h.bits p),
   (0x09, fun h p => .ptFlat h.chunk h.bits p),
   (0x0A, fun h p => .ptPack h.rv h.chunk h.bits p),
   (0x0C, fun h p => .beEncode h.pad h.bits p)]

/-- The rows of the encoders (R63). -/
def encoderRows : List CommandRow :=
  [(0x10, fun h p => .encByte h.sg h.dst h.pad h.bits h.bitOff p),
   (0x11, fun h p => .encShort h.sg h.dst h.pad h.bits h.bitOff p),
   (0x12, fun h p => .encInt h.sg h.dst h.pad h.bits h.bitOff p),
   (0x13, fun h p => .encLong h.sg h.dst h.pad h.bits h.bitOff p),
   (0x14, fun h p => .encBigint h.sg h.dst h.pad h.bits h.bitOff p),
   (0x15, fun h p => .encFloat h.sg h.dst h.pad h.bits h.bitOff p),
   (0x16, fun h p => .encDouble h.sg h.dst h.pad h.bits h.bitOff p),
   (0x17, fun h p => .encBytes h.sg h.al h.dst h.pad h.bits h.bitOff p),
   (0x18, fun h p => .encBcd h.sg h.al h.dst h.pad h.bits h.bitOff p)]

/-- The rows of the decoders (R63). -/
def decoderRows : List CommandRow :=
  [(0x20, fun h p => .decByte h.sg h.bits h.bitOff h.byteOff p),
   (0x21, fun h p => .decShort h.sg h.bits h.bitOff h.byteOff p),
   (0x22, fun h p => .decInt h.sg h.bits h.bitOff h.byteOff p),
   (0x23, fun h p => .decLong h.sg h.bits h.bitOff h.byteOff p),
   (0x24, fun h p => .decBigint h.sg h.bits h.bitOff h.byteOff p),
   (0x25, fun h p => .decFloat h.sg h.bits h.bitOff h.byteOff p),
   (0x26, fun h p => .decDouble h.sg h.bits h.bitOff h.byteOff p),
   (0x27, fun h p => .decBytes h.sg h.bits h.bitOff h.byteOff p),
   (0x28, fun h p => .decBcd h.sg h.bits h.bitOff h.byteOff p),
   (0x2F, fun h p => .decBits h.sg h.bits h.bitOff h.byteOff p)]

/-- The opcode map: 32 rows; every other value of `OPC` is reserved (R63, R66 (a)). -/
def commandTable : List CommandRow := pureRows ++ encoderRows ++ decoderRows ++ systemRows

/-- The command that `OPC` selects, with the fields its row lists and the payload `p` (R63). -/
def selectCommand (h : Header) (p : Bytes) : Except DecodeError Instr :=
  match commandTable.lookup h.opc with
  | some make => .ok (make h p)
  | none => .error (.reservedOpcode h.opc)

/-- Decode a whole packet: `RSV` must be 0 and `OPC` must be in the opcode map (R64 step 3, R66 (a), (b)). -/
def decodePacket (h : Header) (p : Bytes) : Except DecodeError Instr :=
  if h.rsv = 0 then selectCommand h p else .error .reservedBits

/-- Split a byte stream after its first packet: the header, the `PLEN` payload bytes, and the bytes after
them (R64 steps 1 and 2; R67: the length is always `20 + PLEN`). `none`: the packet is not complete. -/
def takePacket (bs : Bytes) : Option (Header × Bytes × Bytes) :=
  match takeHeader bs with
  | none => none
  | some (h, rest) =>
    if rest.length < h.plen then none else some (h, rest.take h.plen, rest.drop h.plen)

/-- Decode the first command of a byte stream; the bytes after it are returned with it. -/
def decode (bs : Bytes) : Except DecodeError (Instr × Bytes) :=
  match takePacket bs with
  | none => .error .incomplete
  | some (h, p, rest) =>
    match decodePacket h p with
    | .ok i => .ok (i, rest)
    | .error e => .error e

/-! ## The encoder -/

/-- The two bits of `DST` (R56). -/
def Dst.code : Dst → BitVec 2
  | .none => 0
  | .append => 1
  | .write => 2
  | .reserved => 3

/-- The bit of `A` (R56). -/
def Align.code : Align → Bool
  | .left => false
  | .right => true

/-- `W0`, field by field from its top bit down: `CHUNK`, `PAD`, `RSV = 0`, `DST`, `RV`, `A`, `S`, `OPC` (R56). -/
def packW0 (opc : Byte) (sg al rv : Bool) (dst : BitVec 2) (pad chunk : Byte) : Word :=
  chunk ++ pad ++ (0 : BitVec 3) ++ dst ++ BitVec.ofBool rv ++ BitVec.ofBool al ++ BitVec.ofBool sg ++ opc

/-- `OPC` of a command (R63). -/
def Instr.opcode : Instr → Byte
  | .nop .. => 0x00
  | .swTowin .. => 0x01
  | .swFromwin .. => 0x02
  | .brRbits .. => 0x04
  | .brRbytes .. => 0x05
  | .ptPart .. => 0x08
  | .ptFlat .. => 0x09
  | .ptPack .. => 0x0A
  | .beEncode .. => 0x0C
  | .encByte .. => 0x10
  | .encShort .. => 0x11
  | .encInt .. => 0x12
  | .encLong .. => 0x13
  | .encBigint .. => 0x14
  | .encFloat .. => 0x15
  | .encDouble .. => 0x16
  | .encBytes .. => 0x17
  | .encBcd .. => 0x18
  | .decByte .. => 0x20
  | .decShort .. => 0x21
  | .decInt .. => 0x22
  | .decLong .. => 0x23
  | .decBigint .. => 0x24
  | .decFloat .. => 0x25
  | .decDouble .. => 0x26
  | .decBytes .. => 0x27
  | .decBcd .. => 0x28
  | .decBits .. => 0x2F
  | .bbAppend .. => 0x30
  | .bbWrite .. => 0x31
  | .bbTobytes .. => 0x32
  | .bbClear .. => 0x33

/-- The header of a command whose format uses only the payload (formats N and B of R62). -/
def headerBare (opc : Byte) (p : Bytes) : Header :=
  ⟨packW0 opc false false false 0 0 0, 0, 0, 0, BitVec.ofNat 32 p.length⟩

/-- The header of a format V command (R62). -/
def headerV (opc : Byte) (sg : Bool) (bits : Word) (p : Bytes) : Header :=
  ⟨packW0 opc sg false false 0 0 0, bits, 0, 0, BitVec.ofNat 32 p.length⟩

/-- The header of a format P command (R62). -/
def headerP (opc : Byte) (rv : Bool) (chunk : Byte) (bits : Word) (p : Bytes) : Header :=
  ⟨packW0 opc false false rv 0 0 chunk, bits, 0, 0, BitVec.ofNat 32 p.length⟩

/-- The header of a format C or W command (R62). -/
def headerW (opc pad : Byte) (bits bitOff : Word) (p : Bytes) : Header :=
  ⟨packW0 opc false false false 0 pad 0, bits, bitOff, 0, BitVec.ofNat 32 p.length⟩

/-- The header of a format E command (R62). -/
def headerE (opc : Byte) (sg : Bool) (al : Align) (dst : Dst) (pad : Byte) (bits bitOff : Word) (p : Bytes) :
    Header :=
  ⟨packW0 opc sg al.code false dst.code pad 0, bits, bitOff, 0, BitVec.ofNat 32 p.length⟩

/-- The header of a format D command (R62). -/
def headerD (opc : Byte) (sg : Bool) (bits bitOff byteOff : Word) (p : Bytes) : Header :=
  ⟨packW0 opc sg false false 0 0 0, bits, bitOff, byteOff, BitVec.ofNat 32 p.length⟩

/-- The header of a command: its fields where R56 and R57 place them, every field its format does not use
zero (such a field is ignored, R58). -/
def Instr.header (i : Instr) : Header :=
  match i with
  | .nop p | .brRbits p | .brRbytes p | .bbTobytes p | .bbClear p => headerBare i.opcode p
  | .swTowin sg bits p | .swFromwin sg bits p => headerV i.opcode sg bits p
  | .ptPart chunk bits p | .ptFlat chunk bits p => headerP i.opcode false chunk bits p
  | .ptPack rv chunk bits p => headerP i.opcode rv chunk bits p
  | .beEncode pad bits p | .bbAppend pad bits p => headerW i.opcode pad bits 0 p
  | .bbWrite pad bits bitOff p => headerW i.opcode pad bits bitOff p
  | .encByte sg dst pad bits bitOff p | .encShort sg dst pad bits bitOff p
  | .encInt sg dst pad bits bitOff p | .encLong sg dst pad bits bitOff p
  | .encBigint sg dst pad bits bitOff p | .encFloat sg dst pad bits bitOff p
  | .encDouble sg dst pad bits bitOff p => headerE i.opcode sg .left dst pad bits bitOff p
  | .encBytes sg al dst pad bits bitOff p | .encBcd sg al dst pad bits bitOff p =>
      headerE i.opcode sg al dst pad bits bitOff p
  | .decByte sg bits bitOff byteOff p | .decShort sg bits bitOff byteOff p
  | .decInt sg bits bitOff byteOff p | .decLong sg bits bitOff byteOff p
  | .decBigint sg bits bitOff byteOff p | .decFloat sg bits bitOff byteOff p
  | .decDouble sg bits bitOff byteOff p | .decBytes sg bits bitOff byteOff p
  | .decBcd sg bits bitOff byteOff p | .decBits sg bits bitOff byteOff p =>
      headerD i.opcode sg bits bitOff byteOff p

/-- The byte form of a command: 20 header bytes and the payload (R55). -/
def encode (i : Instr) : Bytes := i.header.bytes ++ i.payload

/-! ## The table's numbering of bits -/

/-- The packet whose bits are the low `nbits` bits of `w`, all others 0: byte `k` holds bits `8k + 7` to `8k`
(R55: words and bytes are sent least significant first), and it is `20 + PLEN` bytes long (R67). -/
def packetOfNat (nbits w : Nat) : Bytes :=
  let v := w % 2 ^ nbits
  (List.range (20 + v / 2 ^ 128 % 2 ^ 32)).map fun k => BitVec.ofNat 8 (v / 2 ^ (8 * k))

/-- The command the decoder reads from the packet whose bits are the low `nbits` bits of `w`. -/
def decodeTableWord (nbits w : Nat) : Option Instr :=
  match decode (packetOfNat nbits w) with
  | .ok (i, _) => some i
  | .error _ => none

end Sys2Proof
end

