-- ==== Sys2Proof/Machine/State.lean ====
section
/-!
DEFINITION. The state of the block (10_state.md R20, R21), the responses it produces (30_encoding.md R60,
R61; 60_exceptions.md R155), what reaches it from outside, and the state after reset (R33, R175, R176).
-/

namespace Sys2Proof.Machine

/-- The status codes (R155). `ok` and `truncated` are not fatal; the other four are. -/
inductive Status
  | ok
  | invalidArgument
  | truncated
  | outOfBounds
  | illegalCommand
  | capacity
deriving DecidableEq, Repr

/-- A response record (R60). `RLEN` is the payload's length. -/
structure Response where
  /-- `STATUS`, bits 7:0 of `R0`. -/
  status : Status
  /-- `RBITS`, `R1`: the number of meaningful bits of the result. -/
  rbits : Nat
  /-- The payload `Q`. -/
  payload : Bytes
  /-- `BBLEN`, `R3`: the length of the BitBuffer after the command. -/
  bbLen : Nat
deriving DecidableEq, Repr

/-- What reaches the block from outside (R18, R164: "A model has no asynchronous input other than reset"): one
byte of a command packet on the command port, or one assertion and release of the reset input (R175). `busy` says
when reset was asserted: while the command whose packet has just arrived whole was in progress (`true`), or not
(`false`). The host side decides it, because the model has no time (log entry 4). -/
inductive PortEvent
  | byte (b : Byte)
  | reset (busy : Bool)
deriving DecidableEq, Repr

/-- The state. `bb` is the whole architectural state of the block: `BBLEN` is its length (R20, R21). `port` and
`responses` are the model's own fields, the host's side of the block (log entries 2 and 3). -/
structure State where
  /-- `BB`: element 0 is the first bit of the message in wire order (R21). -/
  bb : Bits
  /-- What the host has sent and the block has not consumed, oldest first. -/
  port : List PortEvent
  /-- The responses produced, oldest first: one per command, in command order (R60, R163). -/
  responses : List Response
deriving DecidableEq, Repr

/-- `BBLEN` (R21, R29). -/
def State.bbLen (s : State) : Nat := s.bb.length

/-- `BB[i]`; bits at positions `≥ BBLEN` do not exist (R14, R21). -/
def State.bit (s : State) (i : Nat) : Option Bool := s.bb[i]?

/-- The reasons a step could stop with a fault: none. Every command, legal or not, is answered with a status
and the block goes on (R160, R165, R167, R186), so this type has no constructor (log entry 10; safe: the spec
names no event that stops the block). -/
inductive Fault
deriving DecidableEq, Repr

/-- The reasons a step could be refused. -/
inductive Refusal
  /-- Raised by an arm of `exec` for an instruction that has no meaning yet; no arm raises it (safe). -/
  | notModelled (mnemonic : String)
deriving DecidableEq, Repr

/-- After reset `BB` is empty and `BBLEN` is 0; there is nothing else to reset (R33, R175, R176). The model's own
fields hold nothing: the host has sent nothing and no response has been produced (log entry 7). -/
def State.reset : State := { bb := [], port := [], responses := [] }

end Sys2Proof.Machine
end

