-- ==== Sys2Proof/Machine/Flags.lean ====
section
/-!
DEFINITION. The block holds no flags and no condition codes (10_state.md R27). What stands in their place is
the status code of a response, which is not stored and influences no later command (60_exceptions.md R155).
-/

namespace Sys2Proof.Machine

/-- The number of a status (R155). -/
def statusCode : Status → Byte
  | .ok => 0
  | .invalidArgument => 1
  | .truncated => 2
  | .outOfBounds => 3
  | .illegalCommand => 4
  | .capacity => 5

/-- Fatal: any status other than `OK` and `TRUNCATED` (R18, R61). -/
def isFatal : Status → Bool
  | .ok | .truncated => false
  | .invalidArgument | .outOfBounds | .illegalCommand | .capacity => true

end Sys2Proof.Machine
end

