-- ==== Sys2Proof/Machine/Bits.lean ====
section
/-!
DEFINITION. The pure functions of the block's components: conversions between bytes, bits and numbers
(00_scope.md R10 to R13), SignWindow (40_signwindow.md), BitReversal (41_bitreversal.md), Partitioner
(42_partitioner.md), the bit-encode primitive (43_encoders.md R106), the wire stream and the bit-window
extractor (45_decoders.md R135, R136), and the transport forms of bit sequences and chunk lists
(20_memory.md R43; 42_partitioner.md R96).
-/

namespace Sys2Proof.Machine

/-! ## Numbers, bytes and bits (R10 to R13) -/

/-- `ceil(a/b) = floor((a+b-1)/b)` (R10). -/
def ceilDiv (a b : Nat) : Nat := (a + b - 1) / b

/-- `bc(n) = ceil(n/8)`, the byte count of `n` bits (R10). -/
def bc (n : Nat) : Nat := ceilDiv n 8

/-- The eight bits of a byte, bit 0 first (R11). -/
def byteBits (b : Byte) : Bits := (List.range 8).map fun j => b.getLsbD j

/-- The byte whose bit `j` is `f j` (R11: bit 0 has weight 1, bit 7 weight 128). -/
def byteOfBits (f : Nat → Bool) : Byte := BitVec.ofFnLE fun j : Fin 8 => f j.val

/-- `bitsLE(B)[8k+j] = B[k][j]` (R13). -/
def bitsLE (B : Bytes) : Bits := B.flatMap byteBits

/-- `fit(s, n)`: the first `n` bits of `s`, with zeros after the end of `s` (R13). -/
def fit (s : Bits) (n : Nat) : Bits := s.take n ++ List.replicate (n - s.length) false

/-- `toBytesLE(x, n)`: element `k` is `floor((x mod 2^(8n)) / 2^(8k)) mod 256` (R13). -/
def toBytesLE (x : Int) (n : Nat) : Bytes :=
  let v := (x % ((2 ^ (8 * n) : Nat) : Int)).toNat
  (List.range n).map fun k => BitVec.ofNat 8 (v / 2 ^ (8 * k))

/-- `uLE(B) = Σ B[k]·2^(8k)` (R13). -/
def uLE : Bytes → Nat
  | [] => 0
  | b :: B => b.toNat + 256 * uLE B

/-- `sLE(B)`: `uLE(B)`, less `2^(8·len(B))` where bit 7 of the last byte is 1 (R13). -/
def sLE (B : Bytes) : Int :=
  if (B.getLast?.map BitVec.msb).getD false then (uLE B : Int) - ((2 ^ (8 * B.length) : Nat) : Int)
  else (uLE B : Int)

/-! ## SignWindow (R80, R82) -/

/-- `toWindow(v, n, s)`; `none` is its failure `INVALID_ARGUMENT` (R80). -/
def toWindow (v : Int) (n : Nat) (sg : Bool) : Option Int :=
  if v < 0 then
    if sg then some (v + ((2 ^ n : Nat) : Int)) else none
  else some v

/-- `fromWindow(W, n, s)`: only bit `n−1` of `W` is tested (R82, R83). -/
def fromWindow (W n : Nat) (sg : Bool) : Int :=
  if sg && W.testBit (n - 1) then (W : Int) - ((2 ^ n : Nat) : Int) else (W : Int)

/-! ## BitReversal (R91, R92) -/

/-- `reverseBits(b)[j] = b[7−j]` (R91). -/
def reverseBits (b : Byte) : Byte := byteOfBits fun j => b.getLsbD (7 - j)

/-- `reverseBytes(B)[k] = B[len(B)−1−k]` (R92). -/
def reverseBytes (B : Bytes) : Bytes := B.reverse

/-! ## Partitioner (R97 to R99) -/

/-- `partition(c, s)`: chunk `k` is `s[k·c .. min((k+1)·c, len(s)))`; no chunks for the empty sequence (R97). -/
def partition (c : Nat) (s : Bits) : List Bits :=
  (List.range (ceilDiv s.length c)).map fun k => (s.drop (k * c)).take c

/-- `flatten(chunks)`: the concatenation (R98). -/
def flatten (chunks : List Bits) : Bits := chunks.flatten

/-- One chunk of at most 8 bits as one byte: bit `j` of the chunk at position `7−j` when `rv` is true, else at
position `j`; positions that receive no chunk bit are 0 (R99, R103). -/
def packChunk (rv : Bool) (chunk : Bits) : Byte :=
  byteOfBits fun i => chunk.getD (if rv then 7 - i else i) false

/-- `pack(chunks, rv)`, the source's `toByteSequence` (R99). -/
def pack (chunks : List Bits) (rv : Bool) : Bytes := chunks.map (packChunk rv)

/-! ## Transport forms (R43, R96) -/

/-- A bit sequence in a payload: `s[i]` at bit `i mod 8` of byte `floor(i/8)`, unused bits 0 (R43). -/
def bitsToBytes (s : Bits) : Bytes := pack (partition 8 s) false

/-- The bit sequence of length `n` that a command's payload carries; bits beyond `n` are ignored (R43). -/
def bitsOfBytes (P : Bytes) (n : Nat) : Bits := fit (bitsLE P) n

/-- The length of chunk `k` of a list made with chunk size `c` from `L` bits: `c`, but for the last chunk, which
holds what is left (R96). -/
def chunkLen (c L k : Nat) : Nat := if k + 1 < ceilDiv L c then c else L - k * c

/-- A chunk list in a response: `bc(c)` bytes per chunk, bit `j` of a chunk at bit `j mod 8` of its byte
`floor(j/8)`, all other bits 0 (R96). -/
def chunksToBytes (c : Nat) (chunks : List Bits) : Bytes :=
  chunks.flatMap fun chunk => bitsToBytes (fit chunk (8 * bc c))

/-- The chunk list that a command's payload carries; filler bits are ignored (R96). -/
def chunksOfBytes (c L : Nat) (P : Bytes) : List Bits :=
  (List.range (ceilDiv L c)).map fun k =>
    bitsOfBytes ((P.drop (k * bc c)).take (bc c)) (chunkLen c L k)

/-! ## Encoding (R106, R108, R117, R118) -/

/-- The bit-encode primitive: `bitEncode(B, n) = rev(fit(bitsLE(B), n))` (R106). -/
def bitEncode (B : Bytes) (n : Nat) : Bits := (fit (bitsLE B) n).reverse

/-- The integer chunk: `toBytesLE(toWindow(v, n, s), bc(n))`; `none` is `INVALID_ARGUMENT` (R108). -/
def chunkInt (v : Int) (n : Nat) (sg : Bool) : Option Bytes :=
  (toWindow v n sg).map fun W => toBytesLE W (bc n)

/-- The chunk of a byte-sequence value: pad a short value to the field's byte count, after it when left-aligned,
before it when right-aligned; reverse the bytes; keep the first `bc(n)` (R117). -/
def chunkBytes (P : Bytes) (n : Nat) (al : Align) (pad : Byte) : Bytes :=
  let fill := List.replicate (bc n - P.length) pad
  let padded := match al with
    | .left => P ++ fill
    | .right => fill ++ P
  (reverseBytes padded).take (bc n)

/-- Where the digits start among the `n4` nibble slots (R118). -/
def bcdStart (al : Align) (n4 len : Nat) : Nat :=
  match al with
  | .left => 0
  | .right => n4 - len

/-- The value of slot `k` before its sign fold: a character's code less 0x30 inside the string, the low four bits
of `PAD` outside it (R118). -/
def bcdSlot (P : Bytes) (start : Nat) (pad : Byte) (k : Nat) : Int :=
  if start ≤ k ∧ k < start + P.length then ((P.getD (k - start) 0).toNat : Int) - 0x30
  else ((pad.toNat % 16 : Nat) : Int)

/-- One slot as a 4-bit window: `toWindow(d, 4, S) mod 16`; `none` is `INVALID_ARGUMENT` (R118). -/
def bcdNibble (d : Int) (sg : Bool) : Option Nat :=
  (toWindow d 4 sg).map fun w => (w % 16).toNat

/-- The window of a digit string: slot 0 in the top four bits; one failing slot fails the whole (R118, R160). -/
def bcdWindow (P : Bytes) (n4 : Nat) (sg : Bool) (al : Align) (pad : Byte) : Option Nat :=
  (List.range n4).foldlM
    (fun W k => (bcdNibble (bcdSlot P (bcdStart al n4 P.length) pad k) sg).map fun w => 16 * W + w) 0

/-! ## Decoding (R135, R136, R146) -/

/-- The wire stream of an input: `wire(I) = bitsLE(map reverseBits I)` (R135). -/
def wire (I : Bytes) : Bits := bitsLE (I.map reverseBits)

/-- `decodeBits(I, abs, n)`: cut the window out of the wire stream, reverse it, repack it (R136). -/
def decodeBits (I : Bytes) (start n : Nat) : Bytes :=
  pack (partition 8 (((wire I).drop start).take n).reverse) false

/-- The nibble at position `p` of a bit stream, its first bit the most significant (R146). -/
def nibbleAt (s : Bits) (p : Nat) : Nat :=
  8 * (s.getD p false).toNat + 4 * (s.getD (p + 1) false).toNat + 2 * (s.getD (p + 2) false).toNat +
    (s.getD (p + 3) false).toNat

/-- The character of a nibble: `0x30 + fromWindow(nib, 4, S)` (R146). -/
def bcdChar (nib : Nat) (sg : Bool) : Byte := BitVec.ofInt 8 (0x30 + fromWindow nib 4 sg)

/-- The digits of at most `slots` nibbles from position `p` on; it stops at the first nibble that is not wholly
inside the stream (R146). -/
def bcdDigits (s : Bits) (sg : Bool) : (slots p : Nat) → Bytes
  | 0, _ => []
  | slots + 1, p =>
    if p + 4 > s.length then [] else bcdChar (nibbleAt s p) sg :: bcdDigits s sg slots (p + 4)

end Sys2Proof.Machine
end

