-- ==== Sys2Proof/Machine/Operands.lean ====
section
/-!
DEFINITION. What a command checks and reads before it does anything: the size limits (00_scope.md R8), the
header legality common to a format (30_encoding.md R58, R66), and the window of a decoder (45_decoders.md
R137).

Each limit check first compares with the floor that R8 gives the parameter: every legal implementation admits
a value up to the floor, so the disjunct changes nothing, and it lets a command of ordinary size be evaluated
without knowing the parameter (`Laws/Operands.lean` proves each check equal to the plain limit).
-/

namespace Sys2Proof.Machine

/-- `n ≤ MAXBITS` (R8; the floor is 64). -/
def fitsMaxBits (n : Nat) : Bool := decide (n ≤ 64) || Config.admits Config.maxBits n

/-- `n ≤ BB_CAP` (R8; the floor is `MAXBITS`, so at least 64). -/
def fitsBuffer (n : Nat) : Bool := decide (n ≤ 64) || Config.admits Config.bbCap n

/-- `n ≤ MAXIN` (R8; the floor is 8). -/
def fitsMaxIn (n : Nat) : Bool := decide (n ≤ 8) || Config.admits Config.maxIn n

/-- `n ≤ 8·MAXIN` (R58; the floor is 64). -/
def fitsSequence (n : Nat) : Bool := decide (n ≤ 64) || Config.admits (Config.maxIn.map (8 * ·)) n

/-- The header legality of a field-geometry command, formats V, C, W, E and D (R58). -/
def fieldOk (bits : Word) (p : Bytes) : Bool :=
  decide (1 ≤ bits.toNat) && fitsMaxBits bits.toNat && fitsMaxIn p.length

/-- The header legality of a sequence command, format P (R58, R66 (d)). -/
def sequenceOk (chunk : Byte) (bits : Word) (p : Bytes) : Bool :=
  decide (chunk.toNat ≠ 0) && fitsSequence bits.toNat && fitsMaxIn p.length

/-- The header legality of an encoder, format E: `DST = 3` is refused (R66 (c), R109). -/
def encoderOk (dst : Dst) (bits : Word) (p : Bytes) : Bool :=
  decide (dst ≠ .reserved) && fieldOk bits p

/-- The start of a decoder's window, `abs = 8·BYTEOFF + BITOFF`, computed without wrap (R46, R135). -/
def windowStart (bitOff byteOff : Word) : Nat := 8 * byteOff.toNat + bitOff.toNat

/-- The strict bounds check: the window `[abs, abs + n)` lies inside the payload (R148). -/
def insidePayload (start n : Nat) (p : Bytes) : Bool := decide (start + n ≤ 8 * p.length)

/-- `BITSIZE` is within the native width, where the type has one (R137). -/
def withinNative (native : Option Nat) (n : Nat) : Bool := native.all fun N => decide (n ≤ 8 * N)

/-- The bytes of a decoder's window, or the status of the first check that fails: `ILLEGAL_COMMAND` (header,
native width), then `OUT_OF_BOUNDS` (R136, R149). -/
def extract (native : Option Nat) (bits bitOff byteOff : Word) (p : Bytes) : Except Status Bytes :=
  if fieldOk bits p && withinNative native bits.toNat then
    if insidePayload (windowStart bitOff byteOff) bits.toNat p then
      .ok (decodeBits p (windowStart bitOff byteOff) bits.toNat)
    else .error .outOfBounds
  else .error .illegalCommand

/-- The typed decoders' common head, `window(N)`: the extracted bytes read as an unsigned number (R137). -/
def window (native : Option Nat) (bits bitOff byteOff : Word) (p : Bytes) : Except Status Nat :=
  (extract native bits bitOff byteOff p).map uLE

end Sys2Proof.Machine
end

