-- ==== Sys2Proof/Machine/Ops.lean ====
section
/-!
DEFINITION. What a command does to the state: answering (30_encoding.md R60; 00_scope.md R15), failing
(60_exceptions.md R160), storing into the buffer (44_bitbuffer.md R126, R127; 43_encoders.md R109), and reset
(70_reset_and_hazards.md R175).
-/

namespace Sys2Proof.Machine

/-- `respond(STATUS, RBITS, payload)`: the one response of a command, made after the command's effect on `BB`;
its `BBLEN` word is the buffer length after the command (R15, R60). -/
def respond (st : Status) (rbits : Nat) (q : Bytes) (s : State) : Host.Outcome State Fault Refusal :=
  .next { s with responses := s.responses ++ [⟨st, rbits, q, s.bb.length⟩] }

/-- `raise <Status>`, the block's only "trap entry": the command ends with that status, `RBITS = 0`, no payload,
and nothing else changes; no mode, mask or saved register exists, and control goes nowhere (R15, R160, R163,
R165). There is no return from it: the next command runs normally (R167). -/
def raise (st : Status) (s : State) : Host.Outcome State Fault Refusal := respond st 0 [] s

/-- `bbAppend(B, n)`: the encoded bits at the end of the buffer (R126). -/
def bbAppend (bb : Bits) (B : Bytes) (n : Nat) : Bits := bb ++ bitEncode B n

/-- Zero-extend the buffer until it holds `len` bits (R127). -/
def zeroExtend (bb : Bits) (len : Nat) : Bits := bb ++ List.replicate (len - bb.length) false

/-- `MemWrite(off, n, v)` with `n = len(v)`: overwrite the bits `[off, off+n)` (R14). -/
def memWrite (bb : Bits) (off : Nat) (v : Bits) : Bits := bb.take off ++ v ++ bb.drop (off + v.length)

/-- `bbWrite(B, off, n)`: zero-extend to `off + n`, then overwrite `[off, off+n)` with the encoded bits (R127). -/
def bbWrite (bb : Bits) (B : Bytes) (off n : Nat) : Bits :=
  memWrite (zeroExtend bb (off + n)) off (bitEncode B n)

/-- `bbAppend` behind the room check of `BB.APPEND` and of `DST = append` (R109, R126, R159); `q` is the
response's payload. -/
def storeAppend (chunk : Bytes) (n : Nat) (q : Bytes) (s : State) : Host.Outcome State Fault Refusal :=
  if fitsBuffer (s.bb.length + n) then respond .ok n q { s with bb := bbAppend s.bb chunk n }
  else raise .capacity s

/-- `bbWrite` behind the room check of `BB.WRITE` and of `DST = write`: `max(BBLEN, off + n) ≤ BB_CAP`, computed
without wrap (R109, R127, R159); `q` is the response's payload. -/
def storeWrite (chunk : Bytes) (off n : Nat) (q : Bytes) (s : State) : Host.Outcome State Fault Refusal :=
  if fitsBuffer (max s.bb.length (off + n)) then respond .ok n q { s with bb := bbWrite s.bb chunk off n }
  else raise .capacity s

/-- The common tail of every encoder, `finish(chunk, eff)` (R109). -/
def finish (dst : Dst) (chunk : Bytes) (eff off : Nat) (s : State) : Host.Outcome State Fault Refusal :=
  match dst with
  | .reserved => raise .illegalCommand s
  | .none => respond .ok eff chunk s
  | .append => storeAppend chunk eff chunk s
  | .write => storeWrite chunk off eff chunk s

/-- Reset: the buffer is empty; no response is produced. What the host sent after the reset stays on the port,
and the responses already produced stay produced (R175, R176; log entry 4). -/
def takeReset (rest : List PortEvent) (s : State) : State := { s with bb := [], port := rest }

end Sys2Proof.Machine
end

