-- ==== Sys2Proof/Machine/BitBuffer.lean ====
section
/-!
DEFINITION. `NOP` and the commands of BitBuffer, the bit accumulator (44_bitbuffer.md).
-/

namespace Sys2Proof.Machine

/-- `NOP`: change nothing and report the buffer length (R125). -/
def execNop (p : Bytes) (s : State) : Host.Outcome State Fault Refusal :=
  if p.length ≠ 0 then raise .illegalCommand s else respond .ok 0 [] s

/-- `BB.APPEND`: encode a chunk and add its bits at the end of the buffer (R126). -/
def execBbAppend (_pad : Byte) (bits : Word) (p : Bytes) (s : State) : Host.Outcome State Fault Refusal :=
  if fieldOk bits p then storeAppend p bits.toNat [] s else raise .illegalCommand s

/-- `BB.WRITE`: encode a chunk and store its bits at a buffer offset (R127). -/
def execBbWrite (_pad : Byte) (bits bitOff : Word) (p : Bytes) (s : State) :
    Host.Outcome State Fault Refusal :=
  if fieldOk bits p then storeWrite p bitOff.toNat bits.toNat [] s else raise .illegalCommand s

/-- `BB.TOBYTES`: deliver the finished message, most significant bit first; the buffer is not changed (R131). -/
def execBbTobytes (p : Bytes) (s : State) : Host.Outcome State Fault Refusal :=
  if p.length ≠ 0 then raise .illegalCommand s
  else respond .ok s.bb.length (pack (partition 8 s.bb) true) s

/-- `BB.CLEAR`: empty the buffer for the next message (R132). -/
def execBbClear (p : Bytes) (s : State) : Host.Outcome State Fault Refusal :=
  if p.length ≠ 0 then raise .illegalCommand s else respond .ok 0 [] { s with bb := [] }

end Sys2Proof.Machine
end

