-- ==== Sys2Proof/Machine/BitReversal.lean ====
section
/-!
DEFINITION. The commands of BitReversal, the bit-reversal permutation unit (41_bitreversal.md).
-/

namespace Sys2Proof.Machine

/-- `BR.RBITS`: reverse the bit order within one byte; the payload is exactly one byte (R91). -/
def execBrRbits (p : Bytes) (s : State) : Host.Outcome State Fault Refusal :=
  match p with
  | [b] => respond .ok 8 [reverseBits b] s
  | _ => raise .illegalCommand s

/-- `BR.RBYTES`: reverse the order of the bytes of a sequence (R92). -/
def execBrRbytes (p : Bytes) (s : State) : Host.Outcome State Fault Refusal :=
  if fitsMaxIn p.length then respond .ok (8 * p.length) (reverseBytes p) s else raise .illegalCommand s

end Sys2Proof.Machine
end

