-- ==== Sys2Proof/Machine/Decoders.lean ====
section
/-!
DEFINITION. The bit-window extractor and the typed decoders (45_decoders.md). None reads or writes the buffer.
`S` has no effect in `DEC.BITS`, `DEC.FLOAT`, `DEC.DOUBLE` and `DEC.BYTES` (R152). The checks come in the order of
R149.
-/

namespace Sys2Proof.Machine

/-- The fixed-width integer decoders: a result of `native` bytes (R138 to R141). -/
def decodeInteger (native : Nat) (sg : Bool) (bits bitOff byteOff : Word) (p : Bytes) (s : State) :
    Host.Outcome State Fault Refusal :=
  match window (some native) bits bitOff byteOff p with
  | .ok W => respond .ok bits.toNat (toBytesLE (fromWindow W bits.toNat sg) native) s
  | .error st => raise st s

/-- The floating-point decoders: the window zero-extended to the pattern's `native` bytes (R143, R144). -/
def decodePattern (native : Nat) (bits bitOff byteOff : Word) (p : Bytes) (s : State) :
    Host.Outcome State Fault Refusal :=
  match window (some native) bits bitOff byteOff p with
  | .ok W => respond .ok bits.toNat (toBytesLE W native) s
  | .error st => raise st s

/-- `DEC.BYTE`: decode a field into a byte value (R138). -/
def execDecByte (sg : Bool) (bits bitOff byteOff : Word) (p : Bytes) (s : State) :
    Host.Outcome State Fault Refusal :=
  decodeInteger 1 sg bits bitOff byteOff p s

/-- `DEC.SHORT`: decode a field into a short value (R139). -/
def execDecShort (sg : Bool) (bits bitOff byteOff : Word) (p : Bytes) (s : State) :
    Host.Outcome State Fault Refusal :=
  decodeInteger 2 sg bits bitOff byteOff p s

/-- `DEC.INT`: decode a field into an int value (R140). -/
def execDecInt (sg : Bool) (bits bitOff byteOff : Word) (p : Bytes) (s : State) :
    Host.Outcome State Fault Refusal :=
  decodeInteger 4 sg bits bitOff byteOff p s

/-- `DEC.LONG`: decode a field into a long value (R141). -/
def execDecLong (sg : Bool) (bits bitOff byteOff : Word) (p : Bytes) (s : State) :
    Host.Outcome State Fault Refusal :=
  decodeInteger 8 sg bits bitOff byteOff p s

/-- `DEC.BIGINT`: decode a field into a big-integer value of `floor(n/8) + 1` bytes (R142). -/
def execDecBigint (sg : Bool) (bits bitOff byteOff : Word) (p : Bytes) (s : State) :
    Host.Outcome State Fault Refusal :=
  match window none bits bitOff byteOff p with
  | .ok W => respond .ok bits.toNat (toBytesLE (fromWindow W bits.toNat sg) (bits.toNat / 8 + 1)) s
  | .error st => raise st s

/-- `DEC.FLOAT`: decode a field into a binary32 pattern (R143). -/
def execDecFloat (_sg : Bool) (bits bitOff byteOff : Word) (p : Bytes) (s : State) :
    Host.Outcome State Fault Refusal :=
  decodePattern 4 bits bitOff byteOff p s

/-- `DEC.DOUBLE`: decode a field into a binary64 pattern (R144). -/
def execDecDouble (_sg : Bool) (bits bitOff byteOff : Word) (p : Bytes) (s : State) :
    Host.Outcome State Fault Refusal :=
  decodePattern 8 bits bitOff byteOff p s

/-- `DEC.BYTES`: decode a field into a byte sequence, its bytes in wire order (R145). -/
def execDecBytes (_sg : Bool) (bits bitOff byteOff : Word) (p : Bytes) (s : State) :
    Host.Outcome State Fault Refusal :=
  match extract none bits bitOff byteOff p with
  | .ok B => respond .ok bits.toNat (reverseBytes B) s
  | .error st => raise st s

/-- `DEC.BCD`: decode a field into a digit string; it stops at the first nibble that is not wholly inside the
payload and then reports `TRUNCATED`, never `OUT_OF_BOUNDS` (R146, R157). -/
def execDecBcd (sg : Bool) (bits bitOff byteOff : Word) (p : Bytes) (s : State) :
    Host.Outcome State Fault Refusal :=
  if fieldOk bits p then
    let out := bcdDigits (wire p) sg (bits.toNat / 4) (windowStart bitOff byteOff)
    respond (if out.length < bits.toNat / 4 then .truncated else .ok) (4 * out.length) out s
  else raise .illegalCommand s

/-- `DEC.BITS`: extract a bit window (R136). -/
def execDecBits (_sg : Bool) (bits bitOff byteOff : Word) (p : Bytes) (s : State) :
    Host.Outcome State Fault Refusal :=
  match extract none bits bitOff byteOff p with
  | .ok B => respond .ok bits.toNat B s
  | .error st => raise st s

end Sys2Proof.Machine
end

