-- ==== Sys2Proof/Machine/Encoders.lean ====
section
/-!
DEFINITION. The bit-encode primitive and the typed encoders (43_encoders.md). `PAD` has no effect but in
`ENC.BYTES` and `ENC.BCD`, and `S` none in `ENC.FLOAT`, `ENC.DOUBLE` and `ENC.BYTES` (R106, R123). The checks come
in the order of R121: header and payload length, then the value, then (in `finish`) the room.
-/

namespace Sys2Proof.Machine

/-- The five integer encoders differ only in the payload length they take (R108, R110 to R114). -/
def encodeInteger (lengthOk sg : Bool) (dst : Dst) (bits bitOff : Word) (p : Bytes) (s : State) :
    Host.Outcome State Fault Refusal :=
  if encoderOk dst bits p && lengthOk then
    match chunkInt (sLE p) bits.toNat sg with
    | some chunk => finish dst chunk bits.toNat bitOff.toNat s
    | none => raise .invalidArgument s
  else raise .illegalCommand s

/-- The two floating-point encoders carry the IEEE bit pattern verbatim (R115, R116, R120). -/
def encodePattern (lengthOk : Bool) (dst : Dst) (bits bitOff : Word) (p : Bytes) (s : State) :
    Host.Outcome State Fault Refusal :=
  if encoderOk dst bits p && lengthOk then
    finish dst (toBytesLE (uLE p) (bc bits.toNat)) bits.toNat bitOff.toNat s
  else raise .illegalCommand s

/-- `BE.ENCODE`: the bit-encode primitive, its result as a bit sequence (R106). -/
def execBeEncode (_pad : Byte) (bits : Word) (p : Bytes) (s : State) : Host.Outcome State Fault Refusal :=
  if fieldOk bits p then respond .ok bits.toNat (bitsToBytes (bitEncode p bits.toNat)) s
  else raise .illegalCommand s

/-- `ENC.BYTE`: encode a byte value (R110). -/
def execEncByte (sg : Bool) (dst : Dst) (_pad : Byte) (bits bitOff : Word) (p : Bytes) (s : State) :
    Host.Outcome State Fault Refusal :=
  encodeInteger (decide (p.length = 1)) sg dst bits bitOff p s

/-- `ENC.SHORT`: encode a short value (R111). -/
def execEncShort (sg : Bool) (dst : Dst) (_pad : Byte) (bits bitOff : Word) (p : Bytes) (s : State) :
    Host.Outcome State Fault Refusal :=
  encodeInteger (decide (p.length = 2)) sg dst bits bitOff p s

/-- `ENC.INT`: encode an int value (R112). -/
def execEncInt (sg : Bool) (dst : Dst) (_pad : Byte) (bits bitOff : Word) (p : Bytes) (s : State) :
    Host.Outcome State Fault Refusal :=
  encodeInteger (decide (p.length = 4)) sg dst bits bitOff p s

/-- `ENC.LONG`: encode a long value (R113). -/
def execEncLong (sg : Bool) (dst : Dst) (_pad : Byte) (bits bitOff : Word) (p : Bytes) (s : State) :
    Host.Outcome State Fault Refusal :=
  encodeInteger (decide (p.length = 8)) sg dst bits bitOff p s

/-- `ENC.BIGINT`: encode a big-integer value of one or more bytes (R114). -/
def execEncBigint (sg : Bool) (dst : Dst) (_pad : Byte) (bits bitOff : Word) (p : Bytes) (s : State) :
    Host.Outcome State Fault Refusal :=
  encodeInteger (decide (1 ≤ p.length)) sg dst bits bitOff p s

/-- `ENC.FLOAT`: encode a binary32 pattern (R115). -/
def execEncFloat (_sg : Bool) (dst : Dst) (_pad : Byte) (bits bitOff : Word) (p : Bytes) (s : State) :
    Host.Outcome State Fault Refusal :=
  encodePattern (decide (p.length = 4)) dst bits bitOff p s

/-- `ENC.DOUBLE`: encode a binary64 pattern (R116). -/
def execEncDouble (_sg : Bool) (dst : Dst) (_pad : Byte) (bits bitOff : Word) (p : Bytes) (s : State) :
    Host.Outcome State Fault Refusal :=
  encodePattern (decide (p.length = 8)) dst bits bitOff p s

/-- `ENC.BYTES`: encode a byte sequence (R117). -/
def execEncBytes (_sg : Bool) (al : Align) (dst : Dst) (pad : Byte) (bits bitOff : Word) (p : Bytes)
    (s : State) : Host.Outcome State Fault Refusal :=
  if encoderOk dst bits p then finish dst (chunkBytes p bits.toNat al pad) bits.toNat bitOff.toNat s
  else raise .illegalCommand s

/-- `ENC.BCD`: encode a decimal-digit string, one 4-bit slot per character; the field has
`eff = 4·floor(BITSIZE/4)` bits (R118). -/
def execEncBcd (sg : Bool) (al : Align) (dst : Dst) (pad : Byte) (bits bitOff : Word) (p : Bytes)
    (s : State) : Host.Outcome State Fault Refusal :=
  if encoderOk dst bits p && decide (p.length ≤ bits.toNat / 4) then
    match bcdWindow p (bits.toNat / 4) sg al pad with
    | some W =>
      finish dst (toBytesLE W (bc (4 * (bits.toNat / 4)))) (4 * (bits.toNat / 4)) bitOff.toNat s
    | none => raise .invalidArgument s
  else raise .illegalCommand s

end Sys2Proof.Machine
end

