-- ==== Sys2Proof/Machine/Partitioner.lean ====
section
/-!
DEFINITION. The commands of the Partitioner (42_partitioner.md).
-/

namespace Sys2Proof.Machine

/-- `PT.PART`: split a bit sequence into chunks (R97). -/
def execPtPart (chunk : Byte) (bits : Word) (p : Bytes) (s : State) : Host.Outcome State Fault Refusal :=
  if sequenceOk chunk bits p && decide (p.length = bc bits.toNat) then
    respond .ok bits.toNat
      (chunksToBytes chunk.toNat (partition chunk.toNat (bitsOfBytes p bits.toNat))) s
  else raise .illegalCommand s

/-- `PT.FLAT`: concatenate chunks back into one bit sequence (R98). -/
def execPtFlat (chunk : Byte) (bits : Word) (p : Bytes) (s : State) : Host.Outcome State Fault Refusal :=
  if sequenceOk chunk bits p &&
      decide (p.length = ceilDiv bits.toNat chunk.toNat * bc chunk.toNat) then
    respond .ok bits.toNat (bitsToBytes (flatten (chunksOfBytes chunk.toNat bits.toNat p))) s
  else raise .illegalCommand s

/-- `PT.PACK`: pack chunks of at most 8 bits into one byte each (R99). -/
def execPtPack (rv : Bool) (chunk : Byte) (bits : Word) (p : Bytes) (s : State) :
    Host.Outcome State Fault Refusal :=
  if sequenceOk chunk bits p && decide (chunk.toNat ≤ 8) &&
      decide (p.length = ceilDiv bits.toNat chunk.toNat) then
    respond .ok bits.toNat (pack (chunksOfBytes chunk.toNat bits.toNat p) rv) s
  else raise .illegalCommand s

end Sys2Proof.Machine
end

