-- ==== Sys2Proof/Machine/SignWindow.lean ====
section
/-!
DEFINITION. The commands of SignWindow, the signed/unsigned bit-width converter (40_signwindow.md).
-/

namespace Sys2Proof.Machine

/-- The length of the result of `SW.TOWIN` and `SW.FROMWIN`: `max(PLEN, bc(n)) + 1` bytes (R81, R83). -/
def signWindowLength (bits : Word) (p : Bytes) : Nat := max p.length (bc bits.toNat) + 1

/-- `SW.TOWIN`: the window of a value (R81). -/
def execSwTowin (sg : Bool) (bits : Word) (p : Bytes) (s : State) : Host.Outcome State Fault Refusal :=
  if fieldOk bits p && decide (p.length ≠ 0) then
    match toWindow (sLE p) bits.toNat sg with
    | some W => respond .ok bits.toNat (toBytesLE W (signWindowLength bits p)) s
    | none => raise .invalidArgument s
  else raise .illegalCommand s

/-- `SW.FROMWIN`: the value of a window, which is not masked to `n` bits (R83). -/
def execSwFromwin (sg : Bool) (bits : Word) (p : Bytes) (s : State) : Host.Outcome State Fault Refusal :=
  if fieldOk bits p && decide (p.length ≠ 0) then
    respond .ok bits.toNat (toBytesLE (fromWindow (uLE p) bits.toNat sg) (signWindowLength bits p)) s
  else raise .illegalCommand s

end Sys2Proof.Machine
end

