-- ==== Sys2Proof/Machine/Dispatch.lean ====
section
/-!
DEFINITION. The dispatch: one arm per command (30_encoding.md R63).
-/

namespace Sys2Proof.Machine

/-- The meaning of a command at a state. -/
def exec (i : Instr) (s : State) : Host.Outcome State Fault Refusal :=
  match i with
  | .nop p => Sys2Proof.Machine.execNop p s
  | .swTowin sg bits p => Sys2Proof.Machine.execSwTowin sg bits p s
  | .swFromwin sg bits p => Sys2Proof.Machine.execSwFromwin sg bits p s
  | .brRbits p => Sys2Proof.Machine.execBrRbits p s
  | .brRbytes p => Sys2Proof.Machine.execBrRbytes p s
  | .ptPart chunk bits p => Sys2Proof.Machine.execPtPart chunk bits p s
  | .ptFlat chunk bits p => Sys2Proof.Machine.execPtFlat chunk bits p s
  | .ptPack rv chunk bits p => Sys2Proof.Machine.execPtPack rv chunk bits p s
  | .beEncode pad bits p => Sys2Proof.Machine.execBeEncode pad bits p s
  | .encByte sg dst pad bits bitOff p => Sys2Proof.Machine.execEncByte sg dst pad bits bitOff p s
  | .encShort sg dst pad bits bitOff p => Sys2Proof.Machine.execEncShort sg dst pad bits bitOff p s
  | .encInt sg dst pad bits bitOff p => Sys2Proof.Machine.execEncInt sg dst pad bits bitOff p s
  | .encLong sg dst pad bits bitOff p => Sys2Proof.Machine.execEncLong sg dst pad bits bitOff p s
  | .encBigint sg dst pad bits bitOff p => Sys2Proof.Machine.execEncBigint sg dst pad bits bitOff p s
  | .encFloat sg dst pad bits bitOff p => Sys2Proof.Machine.execEncFloat sg dst pad bits bitOff p s
  | .encDouble sg dst pad bits bitOff p => Sys2Proof.Machine.execEncDouble sg dst pad bits bitOff p s
  | .encBytes sg al dst pad bits bitOff p => Sys2Proof.Machine.execEncBytes sg al dst pad bits bitOff p s
  | .encBcd sg al dst pad bits bitOff p => Sys2Proof.Machine.execEncBcd sg al dst pad bits bitOff p s
  | .decByte sg bits bitOff byteOff p => Sys2Proof.Machine.execDecByte sg bits bitOff byteOff p s
  | .decShort sg bits bitOff byteOff p => Sys2Proof.Machine.execDecShort sg bits bitOff byteOff p s
  | .decInt sg bits bitOff byteOff p => Sys2Proof.Machine.execDecInt sg bits bitOff byteOff p s
  | .decLong sg bits bitOff byteOff p => Sys2Proof.Machine.execDecLong sg bits bitOff byteOff p s
  | .decBigint sg bits bitOff byteOff p => Sys2Proof.Machine.execDecBigint sg bits bitOff byteOff p s
  | .decFloat sg bits bitOff byteOff p => Sys2Proof.Machine.execDecFloat sg bits bitOff byteOff p s
  | .decDouble sg bits bitOff byteOff p => Sys2Proof.Machine.execDecDouble sg bits bitOff byteOff p s
  | .decBytes sg bits bitOff byteOff p => Sys2Proof.Machine.execDecBytes sg bits bitOff byteOff p s
  | .decBcd sg bits bitOff byteOff p => Sys2Proof.Machine.execDecBcd sg bits bitOff byteOff p s
  | .decBits sg bits bitOff byteOff p => Sys2Proof.Machine.execDecBits sg bits bitOff byteOff p s
  | .bbAppend pad bits p => Sys2Proof.Machine.execBbAppend pad bits p s
  | .bbWrite pad bits bitOff p => Sys2Proof.Machine.execBbWrite pad bits bitOff p s
  | .bbTobytes p => Sys2Proof.Machine.execBbTobytes p s
  | .bbClear p => Sys2Proof.Machine.execBbClear p s

end Sys2Proof.Machine
end

