-- ==== Sys2Proof/Machine/Port.lean ====
section
/-!
DEFINITION. The command port and the response port as bytes (30_encoding.md R55, R60, R64): what the next step
finds on the port, and the byte form of a response. `Step.lean` calls `fetch`.
-/

namespace Sys2Proof.Machine

/-- The packet bytes that stand before the first reset, and what follows that reset where there is one. -/
def bytesBeforeReset : List PortEvent → Bytes × Option (List PortEvent)
  | [] => ([], none)
  | .reset _ :: rest => ([], some rest)
  | .byte b :: rest => (b :: (bytesBeforeReset rest).1, (bytesBeforeReset rest).2)

/-- What the block finds on its port. `waiting`: no whole packet has arrived, and no reset (R170: between commands
the block waits). `reset`: reset was asserted before a whole packet arrived, or while the command in it was in
progress; the bytes before it are abandoned (R175). `packet`: one whole packet, and the port after it (R64). -/
inductive Fetched
  | waiting
  | reset (rest : List PortEvent)
  | packet (h : Header) (p : Bytes) (rest : List PortEvent)

/-- A whole packet and what follows it on the port: the command runs, or a reset abandons it (R64, R175). -/
def fetchPacket (h : Header) (p : Bytes) : List PortEvent → Fetched
  | .reset true :: rest => .reset rest
  | rest => .packet h p rest

/-- Look at the port: a whole packet at its front is consumed whole, whatever its header holds (R64). -/
def fetch (port : List PortEvent) : Fetched :=
  match takePacket (bytesBeforeReset port).1 with
  | some (h, p, _) => fetchPacket h p (port.drop (20 + p.length))
  | none =>
    match (bytesBeforeReset port).2 with
    | some rest => .reset rest
    | none => .waiting

/-- The host presents bytes on the command port (R26, R49). -/
def present (bs : Bytes) (s : State) : State := { s with port := s.port ++ bs.map .byte }

/-- The host asserts and releases the reset input (R175). -/
def assertReset (busy : Bool) (s : State) : State := { s with port := s.port ++ [.reset busy] }

/-- A response header word, where it fits 32 bits (R60; 10_state.md R29; log entry 6). -/
def responseWord (v : Nat) : Option Bytes :=
  if v < 2 ^ 32 then some (bytesOfWord (BitVec.ofNat 32 v)) else none

/-- The byte form of a response: `STATUS`, `RBITS`, `RLEN`, `BBLEN`, then the payload (R60); none where a word does
not fit 32 bits (10_state.md R29; log entry 6). -/
def responseBytes (r : Response) : Option Bytes := do
  let r1 ← responseWord r.rbits
  let r2 ← responseWord r.payload.length
  let r3 ← responseWord r.bbLen
  pure (bytesOfWord ((statusCode r.status).setWidth 32) ++ r1 ++ r2 ++ r3 ++ r.payload)

end Sys2Proof.Machine
end

