-- ==== Sys2Proof/Machine/Step.lean ====
section
/-!
DEFINITION. One step of the block: one command, or one reset, or a wait (70_reset_and_hazards.md R185; 20_memory.md
R49; 30_encoding.md R64).
-/

namespace Sys2Proof.Machine

/-- Answer one whole packet that has left the port: the command it selects, or `ILLEGAL_COMMAND` where it selects
none (R64 steps 3 and 4, R66 (a), (b)). -/
def runPacket (h : Header) (p : Bytes) (s : State) : Host.Outcome State Fault Refusal :=
  match decodePacket h p with
  | .ok i => exec i s
  | .error _ => raise .illegalCommand s

/-- One step: execute the packet at the front of the port, or take a reset, or wait. -/
def step (s : State) : Host.Outcome State Fault Refusal :=
  match fetch s.port with
  | .waiting => .next s
  | .reset rest => .next (takeReset rest s)
  | .packet h p rest => runPacket h p { s with port := rest }

/-- `s` with the packet whose bits are the low `nbits` bits of `w` at the front of the port, so that the next step
fetches and runs it; a reset that waits at the front for a command in progress would abandon it and is left out (log
entry 5). -/
def State.withFetchWord (s : State) (nbits w : Nat) : State :=
  { s with port := (packetOfNat nbits w).map .byte ++ s.port.dropWhile fun e => decide (e = .reset true) }

end Sys2Proof.Machine
end

