-- ==== Sys2Proof/Machine/Assembly.lean ====
section
/-!
DEFINITION. The textual form of commands and responses (30_encoding.md R68, R69; 00_scope.md R16). A line is a list
of characters. It is a way to write packets down: no step reads it. What R68 leaves open (white space, values that do
not fit their field, a payload whose length does not fit `PLEN`, the notation of a response's payload) is the model's
choice, log entry 12 (DESIGN CHOICE).
-/

namespace Sys2Proof.Machine

/-- The mnemonics and their opcodes (R63), and the two other spellings `BB.ADD` and `BB.SET` (R69). -/
def mnemonics : List (String × Byte) :=
  [("NOP", 0x00), ("SW.TOWIN", 0x01), ("SW.FROMWIN", 0x02), ("BR.RBITS", 0x04), ("BR.RBYTES", 0x05),
   ("PT.PART", 0x08), ("PT.FLAT", 0x09), ("PT.PACK", 0x0A), ("BE.ENCODE", 0x0C)] ++
  [("ENC.BYTE", 0x10), ("ENC.SHORT", 0x11), ("ENC.INT", 0x12), ("ENC.LONG", 0x13), ("ENC.BIGINT", 0x14),
   ("ENC.FLOAT", 0x15), ("ENC.DOUBLE", 0x16), ("ENC.BYTES", 0x17), ("ENC.BCD", 0x18)] ++
  [("DEC.BYTE", 0x20), ("DEC.SHORT", 0x21), ("DEC.INT", 0x22), ("DEC.LONG", 0x23), ("DEC.BIGINT", 0x24),
   ("DEC.FLOAT", 0x25), ("DEC.DOUBLE", 0x26), ("DEC.BYTES", 0x27), ("DEC.BCD", 0x28), ("DEC.BITS", 0x2F)] ++
  [("BB.APPEND", 0x30), ("BB.WRITE", 0x31), ("BB.TOBYTES", 0x32), ("BB.CLEAR", 0x33),
   ("BB.ADD", 0x30), ("BB.SET", 0x31)]

/-- The opcode a mnemonic names. -/
def opcodeOfMnemonic (name : List Char) : Option Byte :=
  (mnemonics.find? fun m => m.1.toList = name).map Prod.snd

/-- Cut a text at every `sep`. -/
def splitAtChar (sep : Char) : List Char → List (List Char)
  | [] => [[]]
  | c :: cs =>
    match splitAtChar sep cs with
    | [] => [[c]]
    | w :: ws => if c = sep then [] :: w :: ws else (c :: w) :: ws

/-- The words of a text, parted by spaces. -/
def textWords (cs : List Char) : List (List Char) := (splitAtChar ' ' cs).filter fun w => !w.isEmpty

/-- The value of one digit. -/
def digitValue (c : Char) : Option Nat :=
  if '0' ≤ c ∧ c ≤ '9' then some (c.toNat - 0x30)
  else if 'A' ≤ c ∧ c ≤ 'F' then some (c.toNat - 0x41 + 10)
  else if 'a' ≤ c ∧ c ≤ 'f' then some (c.toNat - 0x61 + 10)
  else none

/-- A numeral of one or more digits. -/
def numeral (base : Nat) (cs : List Char) : Option Nat :=
  if cs.isEmpty then none
  else cs.foldlM (fun v c => (digitValue c).bind fun d => if d < base then some (base * v + d) else none) 0

/-- A decimal or `0x` hexadecimal number (R68). -/
def textNumber : List Char → Option Nat
  | '0' :: 'x' :: cs => numeral 16 cs
  | cs => numeral 10 cs

/-- A decimal integer with an optional minus sign (R68). -/
def textInteger : List Char → Option Int
  | '-' :: cs => (numeral 10 cs).map fun v => -(v : Int)
  | cs => (numeral 10 cs).map fun v => (v : Int)

/-- The fields a line can set; an omitted field is 0 (R68). -/
structure TextFields where
  s : Nat := 0
  a : Nat := 0
  rv : Nat := 0
  dst : Nat := 0
  pad : Nat := 0
  chunk : Nat := 0
  bits : Nat := 0
  bitoff : Nat := 0
  byteoff : Nat := 0
deriving DecidableEq, Repr

/-- The value of a field: `a` also takes `left` and `right`; `dst` also takes `none`, `append` and `write` (R68). -/
def textValue (name value : List Char) : Option Nat :=
  if name = "a".toList ∧ value = "left".toList then some 0
  else if name = "a".toList ∧ value = "right".toList then some 1
  else if name = "dst".toList ∧ value = "none".toList then some 0
  else if name = "dst".toList ∧ value = "append".toList then some 1
  else if name = "dst".toList ∧ value = "write".toList then some 2
  else textNumber value

/-- Set one field, where its value fits (R56, R57, R68). -/
def setField (f : TextFields) (name : List Char) (v : Nat) : Option TextFields :=
  if name = "s".toList then (if v < 2 then some { f with s := v } else none)
  else if name = "a".toList then (if v < 2 then some { f with a := v } else none)
  else if name = "rv".toList then (if v < 2 then some { f with rv := v } else none)
  else if name = "dst".toList then (if v < 4 then some { f with dst := v } else none)
  else if name = "pad".toList then (if v < 256 then some { f with pad := v } else none)
  else if name = "chunk".toList then (if v < 256 then some { f with chunk := v } else none)
  else if name = "bits".toList then (if v < 2 ^ 32 then some { f with bits := v } else none)
  else if name = "bitoff".toList then (if v < 2 ^ 32 then some { f with bitoff := v } else none)
  else if name = "byteoff".toList then (if v < 2 ^ 32 then some { f with byteoff := v } else none)
  else none

/-- Read one `field=value` word (R68). -/
def textField (f : TextFields) (word : List Char) : Option TextFields :=
  match splitAtChar '=' word with
  | [name, value] => (textValue name value).bind (setField f name)
  | _ => none

/-- Nothing but spaces, or a comment, may follow (R68: "Text after `#` is comment"). -/
def onlyComment (cs : List Char) : Bool :=
  match cs.dropWhile (· = ' ') with
  | [] => true
  | c :: _ => c = '#'

/-- An integer in `n` bytes, little-endian two's complement (R68). -/
def integerPayload (n : Nat) (cs : List Char) : Option Bytes :=
  let word := cs.takeWhile fun c => c ≠ ' ' ∧ c ≠ '#'
  if onlyComment (cs.dropWhile fun c => c ≠ ' ' ∧ c ≠ '#') then
    (textInteger word).bind fun v =>
      if -((2 ^ (8 * n - 1) : Nat) : Int) ≤ v ∧ v < ((2 ^ (8 * n - 1) : Nat) : Int) then
        some (toBytesLE v n)
      else none
  else none

/-- The characters up to a closing quote, where one stands and only a comment follows it. -/
def quoted (cs : List Char) : Option (List Char) :=
  match cs.dropWhile (· ≠ '"') with
  | '"' :: rest => if onlyComment rest then some (cs.takeWhile (· ≠ '"')) else none
  | _ => none

/-- One byte as two hexadecimal digits. -/
def textByte (w : List Char) : Option Byte :=
  if w.length = 2 then (numeral 16 w).map (BitVec.ofNat 8) else none

/-- A payload: `x"1D 04"`, `i4:-3` or `"123"` (R68). -/
def textPayload (cs : List Char) : Option Bytes :=
  match cs.dropWhile (· = ' ') with
  | 'x' :: '"' :: rest => (quoted rest).bind fun q => (textWords q).mapM textByte
  | 'i' :: '1' :: ':' :: rest => integerPayload 1 rest
  | 'i' :: '2' :: ':' :: rest => integerPayload 2 rest
  | 'i' :: '4' :: ':' :: rest => integerPayload 4 rest
  | 'i' :: '8' :: ':' :: rest => integerPayload 8 rest
  | '"' :: rest => (quoted rest).bind fun q => q.mapM fun c =>
      if c.toNat < 128 then some (BitVec.ofNat 8 c.toNat) else none
  | _ => none

/-- The header of an opcode with the given fields and `RSV = 0`. Every value must fit its field: `setField` sees to the
fields a line sets and `assemble` to `plen`, which is below 2^32. -/
def TextFields.header (f : TextFields) (opc : Byte) (plen : Nat) : Header :=
  ⟨packW0 opc (decide (f.s = 1)) (decide (f.a = 1)) (decide (f.rv = 1)) (BitVec.ofNat 2 f.dst)
      (BitVec.ofNat 8 f.pad) (BitVec.ofNat 8 f.chunk),
    BitVec.ofNat 32 f.bits, BitVec.ofNat 32 f.bitoff, BitVec.ofNat 32 f.byteoff, BitVec.ofNat 32 plen⟩

/-- The packet a line stands for: `MNEMONIC [field=value]... [: payload]` (R68); `PLEN` is the length of the payload
written. R68 does not say what a payload of 2^32 bytes or more stands for, whose length the 32 bits of `PLEN` (R57)
cannot hold: in the model, no packet (DESIGN CHOICE, log entry 12; log entry 13 says the same of such a command). -/
def assemble (line : List Char) : Option Bytes :=
  let front := line.takeWhile fun c => c ≠ ':' ∧ c ≠ '#'
  match textWords front with
  | [] => none
  | name :: fields =>
    (opcodeOfMnemonic name).bind fun opc =>
      (fields.foldlM textField ({} : TextFields)).bind fun f =>
        let payload := match line.drop front.length with
          | ':' :: rest => textPayload rest
          | _ => some []
        payload.bind fun p => if p.length < 2 ^ 32 then some ((f.header opc p.length).bytes ++ p) else none

/-- The name of a status (R155). -/
def statusName : Status → List Char
  | .ok => "OK".toList
  | .invalidArgument => "INVALID_ARGUMENT".toList
  | .truncated => "TRUNCATED".toList
  | .outOfBounds => "OUT_OF_BOUNDS".toList
  | .illegalCommand => "ILLEGAL_COMMAND".toList
  | .capacity => "CAPACITY".toList

/-- One hexadecimal digit. -/
def hexDigit (n : Nat) : Char := if n < 10 then Char.ofNat (0x30 + n) else Char.ofNat (0x41 + (n - 10))

/-- A byte as two hexadecimal digits. -/
def byteText (b : Byte) : List Char := [hexDigit (b.toNat / 16), hexDigit (b.toNat % 16)]

/-- A response: `-> STATUS rbits=<n> bblen=<n> [: payload]` (R68). R68 does not say in which of its payload notations a
response is written: the model always writes `x".."`, as R70's example does, with upper-case digits and one space
between bytes, and leaves the last part out where the payload is empty (DESIGN CHOICE, log entry 12). -/
def responseText (r : Response) : List Char :=
  "-> ".toList ++ statusName r.status ++ " rbits=".toList ++ Nat.toDigits 10 r.rbits ++ " bblen=".toList ++
    Nat.toDigits 10 r.bbLen ++
    (if r.payload.isEmpty then [] else " : x\"".toList ++ [' '].intercalate (r.payload.map byteText) ++ ['"'])

end Sys2Proof.Machine
end

