-- ==== Sys2Proof/Safety.lean ====
section
/-!
DEFINITION. The terms claims are stated in: what a safe state is, what an answered command leaves, and the bit by bit
reading of fields, messages and chunks that the spec gives (20_memory.md R37, R38; 45_decoders.md R136). None of it is
used by the machine: it says the rules a second time, from positions and weights, where the machine reverses, cuts and
joins sequences.
-/

namespace Sys2Proof.Machine

/-! ## Safe states -/

/-- The buffer holds at most `BB_CAP` bits (R21, R130). -/
def State.bufferFits (s : State) : Bool := Config.admits Config.bbCap s.bb.length

/-- A response keeps to R61 and R29: a fatal status carries nothing, and the length it reports is one the buffer can
have. -/
def Response.wf (r : Response) : Bool :=
  (!isFatal r.status || (decide (r.rbits = 0) && decide (r.payload = []))) &&
    Config.admits Config.bbCap r.bbLen

/-- What every step keeps: the buffer is within its capacity and every response produced is well formed. -/
def State.inv (s : State) : Bool := s.bufferFits && s.responses.all Response.wf

/-- The state a command leaves: buffer `bb`, and one more response, which reports that buffer's length; the port and
the earlier responses are as they were (R60). -/
def State.answered (s : State) (bb : Bits) (st : Status) (rbits : Nat) (q : Bytes) : State :=
  { s with bb := bb, responses := s.responses ++ [⟨st, rbits, q, bb.length⟩] }

/-- The state a command with a fatal status leaves: only the response is new (R160). -/
def State.failed (s : State) (st : Status) : State := s.answered s.bb st 0 []

/-! ## Positions and weights -/

/-- Bit `i` of a byte sequence read least significant bit first: bit `i mod 8` of byte `floor(i/8)` (R13, R36, R43). -/
def leBit (B : Bytes) (i : Nat) : Bool := (B.getD (i / 8) 0).getLsbD (i % 8)

/-- The bit at wire position `i` of a byte sequence: bit `7 − (i mod 8)` of byte `floor(i/8)` (R38). -/
def wireBit (B : Bytes) (i : Nat) : Bool := (B.getD (i / 8) 0).getLsbD (7 - i % 8)

/-- The bits of a field in buffer order: element `i` is bit `n−1−i` of the window (R37). -/
def fieldBits (W n : Nat) : Bits := (List.range n).map fun i => W.testBit (n - 1 - i)

/-- The window of `n` bits from wire position `start` on, read as a big-endian bit string (R136). -/
def windowAt (B : Bytes) (start n : Nat) : Nat :=
  ((List.range n).map fun i => (wireBit B (start + i)).toNat * 2 ^ (n - 1 - i)).sum

/-- The values representable in `n` bits (R84). -/
def representable (v : Int) (n : Nat) (sg : Bool) : Prop :=
  if sg then -((2 ^ (n - 1) : Nat) : Int) ≤ v ∧ v ≤ ((2 ^ (n - 1) : Nat) : Int) - 1
  else 0 ≤ v ∧ v ≤ ((2 ^ n : Nat) : Int) - 1

/-- The value of a window under the sign flag: `W − 2^n` where `S = 1` and bit `n−1` is set (R82). -/
def signedValue (W n : Nat) (sg : Bool) : Int :=
  if sg = true ∧ 2 ^ (n - 1) ≤ W then (W : Int) - ((2 ^ n : Nat) : Int) else (W : Int)

/-- The window of a value that `toWindow` accepts: `v + 2^n` for a negative `v` (R80). -/
def foldedValue (v : Int) (n : Nat) : Int := if v < 0 then v + ((2 ^ n : Nat) : Int) else v

/-! ## Stores -/

/-- The buffer after the bits `E` are written at `off`: position by position, the written bit inside `[off, off + n)`,
the old bit or a zero outside it (R127, R129). -/
def overlay (bb : Bits) (off : Nat) (E : Bits) : Bits :=
  (List.range (max bb.length (off + E.length))).map fun i =>
    if off ≤ i ∧ i < off + E.length then E.getD (i - off) false else bb.getD i false

/-- The buffer after an encoder with destination `dst` (R56, R109). -/
def storedBuffer (dst : Dst) (bb : Bits) (off : Nat) (E : Bits) : Bits :=
  match dst with
  | .none | .reserved => bb
  | .append => bb ++ E
  | .write => overlay bb off E

/-- There is room for what an encoder with destination `dst` stores (R109, R159). -/
def roomFor (dst : Dst) (bb : Bits) (off eff : Nat) : Bool :=
  match dst with
  | .none | .reserved => true
  | .append => Config.admits Config.bbCap (bb.length + eff)
  | .write => Config.admits Config.bbCap (max bb.length (off + eff))

/-! ## Byte sequences and digit strings -/

/-- A byte-sequence value padded to `k` bytes: after it when left-aligned, before it when right-aligned (R117). -/
def paddedValue (P : Bytes) (k : Nat) (al : Align) (pad : Byte) : Bytes :=
  match al with
  | .left => P ++ List.replicate (k - P.length) pad
  | .right => List.replicate (k - P.length) pad ++ P

/-- The nibble of slot `k` of a digit-string field of `n4` slots: the character's code less 0x30, modulo 16, inside the
string; the low four bits of `PAD` outside it (R118). -/
def slotNibble (P : Bytes) (n4 : Nat) (al : Align) (pad : Byte) (k : Nat) : Nat :=
  let start := if al = .left then 0 else n4 - P.length
  if start ≤ k ∧ k < start + P.length then ((P.getD (k - start) 0).toNat + 256 - 0x30) % 16
  else pad.toNat % 16

/-- How many nibbles from position `start` on lie wholly inside an input, at most `n4` (R146). -/
def wholeNibbles (P : Bytes) (start n4 : Nat) : Nat := min n4 ((8 * P.length - start) / 4)

/-! ## Which statuses a command can have -/

/-- `CAPACITY` is among an encoder's statuses only where it stores (R155: "`ENC.*` with `DST ≠ none`"). -/
def roomStatus : Dst → List Status
  | .append | .write => [.capacity]
  | .none | .reserved => []

/-- The statuses a command may be answered with (the column "raised by" of R155). -/
def statusesOf : Instr → List Status
  | .nop .. | .swFromwin .. | .brRbits .. | .brRbytes .. | .ptPart .. | .ptFlat .. | .ptPack .. | .beEncode ..
  | .bbTobytes .. | .bbClear .. => [.ok, .illegalCommand]
  | .swTowin .. => [.ok, .illegalCommand, .invalidArgument]
  | .encByte _ dst _ _ _ _ | .encShort _ dst _ _ _ _ | .encInt _ dst _ _ _ _ | .encLong _ dst _ _ _ _
  | .encBigint _ dst _ _ _ _ | .encBcd _ _ dst _ _ _ _ =>
      [.ok, .illegalCommand, .invalidArgument] ++ roomStatus dst
  | .encFloat _ dst _ _ _ _ | .encDouble _ dst _ _ _ _ | .encBytes _ _ dst _ _ _ _ =>
      [.ok, .illegalCommand] ++ roomStatus dst
  | .bbAppend .. | .bbWrite .. => [.ok, .illegalCommand, .capacity]
  | .decByte .. | .decShort .. | .decInt .. | .decLong .. | .decBigint .. | .decFloat .. | .decDouble ..
  | .decBytes .. | .decBits .. => [.ok, .illegalCommand, .outOfBounds]
  | .decBcd .. => [.ok, .illegalCommand, .truncated]

/-- The commands that may write the buffer: `BB.APPEND`, `BB.WRITE`, `BB.CLEAR`, and an encoder whose `DST` is `append`
or `write` (R24). -/
def writesBuffer : Instr → Bool
  | .bbAppend .. | .bbWrite .. | .bbClear .. => true
  | .encByte _ dst _ _ _ _ | .encShort _ dst _ _ _ _ | .encInt _ dst _ _ _ _ | .encLong _ dst _ _ _ _
  | .encBigint _ dst _ _ _ _ | .encFloat _ dst _ _ _ _ | .encDouble _ dst _ _ _ _
  | .encBytes _ _ dst _ _ _ _ | .encBcd _ _ dst _ _ _ _ => decide (dst = .append) || decide (dst = .write)
  | _ => false

/-- A decoder (R63, format D). -/
def isDecoder : Instr → Bool
  | .decByte .. | .decShort .. | .decInt .. | .decLong .. | .decBigint .. | .decFloat .. | .decDouble ..
  | .decBytes .. | .decBcd .. | .decBits .. => true
  | _ => false

/-! ## Commands by family, and what a command's outcome is -/

/-- The nine typed encoders, `ENC.BYTES` and `ENC.BCD` at the alignment `al` (R63, format E). -/
def typedEncoders (al : Align) : List (Bool → Dst → Byte → Word → Word → Bytes → Instr) :=
  [.encByte, .encShort, .encInt, .encLong, .encBigint, .encFloat, .encDouble, fun sg => .encBytes sg al,
    fun sg => .encBcd sg al]

/-- The header `h` holds, at the places of R56 and R57, the fields that the format of the command uses (R62), at the command's
values. What the other fields hold is not asked (R58). -/
def headerCarries (h : Header) : Instr → Prop
  | .nop _ | .brRbits _ | .brRbytes _ | .bbTobytes _ | .bbClear _ => True
  | .swTowin sg bits _ | .swFromwin sg bits _ => h.w0.getLsbD 8 = sg ∧ h.w1 = bits
  | .ptPart chunk bits _ | .ptFlat chunk bits _ => h.w0.extractLsb' 24 8 = chunk ∧ h.w1 = bits
  | .ptPack rv chunk bits _ => h.w0.getLsbD 10 = rv ∧ h.w0.extractLsb' 24 8 = chunk ∧ h.w1 = bits
  | .beEncode pad bits _ | .bbAppend pad bits _ => h.w0.extractLsb' 16 8 = pad ∧ h.w1 = bits
  | .bbWrite pad bits bitOff _ => h.w0.extractLsb' 16 8 = pad ∧ h.w1 = bits ∧ h.w2 = bitOff
  | .encByte sg dst pad bits bitOff _ | .encShort sg dst pad bits bitOff _ | .encInt sg dst pad bits bitOff _
  | .encLong sg dst pad bits bitOff _ | .encBigint sg dst pad bits bitOff _
  | .encFloat sg dst pad bits bitOff _ | .encDouble sg dst pad bits bitOff _ =>
      h.w0.getLsbD 8 = sg ∧ h.w0.extractLsb' 11 2 = dst.code ∧ h.w0.extractLsb' 16 8 = pad ∧ h.w1 = bits ∧
        h.w2 = bitOff
  | .encBytes sg al dst pad bits bitOff _ | .encBcd sg al dst pad bits bitOff _ =>
      h.w0.getLsbD 8 = sg ∧ h.w0.getLsbD 9 = al.code ∧ h.w0.extractLsb' 11 2 = dst.code ∧
        h.w0.extractLsb' 16 8 = pad ∧ h.w1 = bits ∧ h.w2 = bitOff
  | .decByte sg bits bitOff byteOff _ | .decShort sg bits bitOff byteOff _ | .decInt sg bits bitOff byteOff _
  | .decLong sg bits bitOff byteOff _ | .decBigint sg bits bitOff byteOff _
  | .decFloat sg bits bitOff byteOff _ | .decDouble sg bits bitOff byteOff _
  | .decBytes sg bits bitOff byteOff _ | .decBcd sg bits bitOff byteOff _ | .decBits sg bits bitOff byteOff _ =>
      h.w0.getLsbD 8 = sg ∧ h.w1 = bits ∧ h.w2 = bitOff ∧ h.w3 = byteOff

/-- The bits a typed encoder stores: `eff`, which is `BITSIZE` for all types but BCD (R107). -/
def fieldSize : Instr → Nat
  | .encByte _ _ _ bits _ _ | .encShort _ _ _ bits _ _ | .encInt _ _ _ bits _ _ | .encLong _ _ _ bits _ _
  | .encBigint _ _ _ bits _ _ | .encFloat _ _ _ bits _ _ | .encDouble _ _ _ bits _ _
  | .encBytes _ _ _ _ bits _ _ => bits.toNat
  | .encBcd _ _ _ _ bits _ _ => 4 * (bits.toNat / 4)
  | _ => 0

/-- The ten decoders (R63, format D). -/
def typedDecoders : List (Bool → Word → Word → Word → Bytes → Instr) :=
  [.decByte, .decShort, .decInt, .decLong, .decBigint, .decFloat, .decDouble, .decBytes, .decBcd, .decBits]

/-- The range of buffer positions `(start, size)` that a command stores to when it is answered `OK`: the end of the buffer for
an append, `BITOFF` for a write (R134). -/
def storedRange (i : Instr) (s : State) : Option (Nat × Nat) :=
  match i with
  | .bbAppend _ bits _ => some (s.bbLen, bits.toNat)
  | .bbWrite _ bits bitOff _ => some (bitOff.toNat, bits.toNat)
  | .encByte _ dst _ _ bitOff _ | .encShort _ dst _ _ bitOff _ | .encInt _ dst _ _ bitOff _
  | .encLong _ dst _ _ bitOff _ | .encBigint _ dst _ _ bitOff _ | .encFloat _ dst _ _ bitOff _
  | .encDouble _ dst _ _ bitOff _ | .encBytes _ _ dst _ _ bitOff _ | .encBcd _ _ dst _ _ bitOff _ =>
      match dst with
      | .append => some (s.bbLen, fieldSize i)
      | .write => some (bitOff.toNat, fieldSize i)
      | .none | .reserved => none
  | _ => none

/-- The opcodes that no command has (R66 (a)). -/
def reservedOpcode (o : Nat) : Prop :=
  o = 0x03 ∨ o = 0x06 ∨ o = 0x07 ∨ o = 0x0B ∨ (0x0D ≤ o ∧ o ≤ 0x0F) ∨ (0x19 ≤ o ∧ o ≤ 0x1F) ∨
    (0x29 ≤ o ∧ o ≤ 0x2E) ∨ (0x34 ≤ o ∧ o ≤ 0xFF)

/-- The status of the last response (R60). -/
def State.lastStatus (s : State) : Option Status := s.responses.getLast?.map Response.status

/-- What an encoder with destination `dst` answers once its value is accepted: where there is room, the field bits `E`
are stored and the chunk `q` is returned with `RBITS = eff`; else `CAPACITY` and no change (R109, R159). -/
def answersField (o : Host.Outcome State Fault Refusal) (s : State) (dst : Dst) (off eff : Nat) (E : Bits)
    (q : Bytes) : Prop :=
  (roomFor dst s.bb off eff = true → o = .next (s.answered (storedBuffer dst s.bb off E) .ok eff q)) ∧
    (roomFor dst s.bb off eff = false → o = .next (s.failed .capacity))

/-- Two outcomes at `s` store the same: both answer `OK` with the same buffer and `RBITS` (the first with the chunk `q`, the
second with no payload), or both answer `CAPACITY` (R109). -/
def storesTheSame (s : State) (eff : Nat) (q : Bytes) (o o' : Host.Outcome State Fault Refusal) : Prop :=
  (∃ bb, o = .next (s.answered bb .ok eff q) ∧ o' = .next (s.answered bb .ok eff [])) ∨
    (o = .next (s.failed .capacity) ∧ o' = .next (s.failed .capacity))

/-- The message `M` carries at wire position `off` the field of `len` bits that the command `i` stored: `i` was answered
`OK` on a buffer of `off` bits, and `M` was delivered later, when nothing had written to those `len` positions (R151). -/
def carriesField (i : Instr) (off len : Nat) (M : Bytes) : Prop :=
  ∃ s t u : State, exec i s = .next t ∧ t.lastStatus = some .ok ∧ s.bb.length = off ∧
    (∀ j < len, u.bit (off + j) = t.bit (off + j)) ∧
    exec (.bbTobytes []) u = .next (u.answered u.bb .ok u.bb.length M)

end Sys2Proof.Machine
end

