-- ==== Sys2Proof/Certificates/Slice0/Obligations.lean ====
section
/-!
DEFINITION. The statements for the provers. `s.answered bb st n q` is the whole state after a command: buffer `bb`, one more
response `(st, n, q)` whose `BBLEN` is the length of `bb`, and the port and the earlier responses as they were; so an
equation `exec i s = .next (s.answered …)` says the command's result and its frame together. `s.failed st` is that state for
a fatal status. Every legality hypothesis is on the command alone.
-/

section

open Sys2Proof Sys2Proof.Machine

/-! ## Encoding and stepping -/

/-- Decoding an encoded command gives it back, with every field at every value its encoding admits, and leaves the bytes
after it; the packet is `20 + PLEN` bytes long (R55 to R57, R63, R64, R67). -/
def Obligations.DecodeEncodeRoundTrip : Prop :=
  ∀ (i : Instr) (rest : Bytes), i.wellFormed = true →
    decode (encode i ++ rest) = .ok (i, rest) ∧ (encode i).length = 20 + i.payload.length

/-- Packets written out from the tables of R56, R57 and R63 decode to the commands they stand for, one of each family. -/
def Obligations.SpecPacketsDecode : Prop :=
  decode [0x00, 0, 0, 0, 0, 0, 0, 0, 0, 0, 0, 0, 0, 0, 0, 0, 0, 0, 0, 0] = .ok (.nop [], []) ∧
  decode [0x01, 0x01, 0, 0, 4, 0, 0, 0, 0, 0, 0, 0, 0, 0, 0, 0, 1, 0, 0, 0, 0xFF] = .ok (.swTowin true 4 [0xFF], []) ∧
  decode [0x04, 0, 0, 0, 0, 0, 0, 0, 0, 0, 0, 0, 0, 0, 0, 0, 1, 0, 0, 0, 0x12] = .ok (.brRbits [0x12], []) ∧
  decode [0x0A, 0x04, 0, 3, 8, 0, 0, 0, 0, 0, 0, 0, 0, 0, 0, 0, 3, 0, 0, 0, 5, 5, 3] =
    .ok (.ptPack true 3 8 [5, 5, 3], []) ∧
  decode [0x12, 0x09, 0, 0, 5, 0, 0, 0, 0, 0, 0, 0, 0, 0, 0, 0, 4, 0, 0, 0, 0xFD, 0xFF, 0xFF, 0xFF] =
    .ok (.encInt true .append 0 5 0 [0xFD, 0xFF, 0xFF, 0xFF], []) ∧
  decode [0x17, 0x0A, 0xEE, 0, 24, 0, 0, 0, 0, 0, 0, 0, 0, 0, 0, 0, 2, 0, 0, 0, 0xAB, 0xCD] =
    .ok (.encBytes false .right .append 0xEE 24 0 [0xAB, 0xCD], []) ∧
  decode [0x23, 0x01, 0, 0, 37, 0, 0, 0, 3, 0, 0, 0, 7, 0, 0, 0, 1, 0, 0, 0, 0xB8] =
    .ok (.decLong true 37 3 7 [0xB8], []) ∧
  decode [0x31, 0, 0, 0, 4, 0, 0, 0, 10, 0, 0, 0, 0, 0, 0, 0, 1, 0, 0, 0, 9] = .ok (.bbWrite 0 4 10 [9], [])

/-- A packet decodes to a command exactly when `W0 AND 0x0000E0FF` is the command's `OPC`, the payload is the command's, and the
fields that the command's format uses are the header's; the fields it does not use may hold anything. Exactly the
`PLEN` payload bytes are taken, and what follows the packet is left. Every header with an assigned opcode and `RSV = 0`
decodes to a command of that opcode (R56 to R58, R62 to R64, R67). -/
def Obligations.HeaderSelectsCommand : Prop :=
  ∀ (h : Header) (p rest : Bytes), p.length = h.plen →
    (∀ i r, decode (h.bytes ++ p ++ rest) = .ok (i, r) ↔
      r = rest ∧ i.payload = p ∧ h.w0 &&& 0x0000E0FF#32 = i.opcode.setWidth 32 ∧ headerCarries h i) ∧
    (∀ j : Instr, h.w0 &&& 0x0000E0FF#32 = j.opcode.setWidth 32 →
      ∃ i, decode (h.bytes ++ p ++ rest) = .ok (i, rest) ∧ i.opcode = j.opcode)

/-- A step runs the command that the bytes at the front of the port decode to, on the state whose port has moved past the
packet, when no reset is asserted while it is in progress (R49, R64; the port as a list of events is log entries 2 and 4). -/
def Obligations.StepRunsDecodedCommand : Prop :=
  ∀ (s : State) (bs : Bytes) (i : Instr) (tail : List PortEvent),
    s.port = bs.map .byte ++ tail → decode bs = .ok (i, []) → tail.head? ≠ some (.reset true) →
    step s = exec i { s with port := tail }

/-- Two commands sent one after the other run in that order, the second from exactly the state the first left (R49, R51).
The bytes may already have arrived together (the port is log entry 2). -/
def Obligations.CommandsRunInOrder : Prop :=
  ∀ (s : State) (i j : Instr) (tail : List PortEvent), i.wellFormed = true → j.wellFormed = true →
    s.port = (encode i ++ encode j).map .byte ++ tail → tail.head? ≠ some (.reset true) →
    ∃ t : State, step s = .next t ∧ exec i { s with port := (encode j).map .byte ++ tail } = .next t ∧
      step t = exec j { t with port := tail }

/-- A packet with `RSV ≠ 0` or a reserved opcode is consumed whole, whatever else its header holds, and answered
`ILLEGAL_COMMAND` with no effect (R64, R66 (a) and (b); the port is log entry 2). -/
def Obligations.ReservedEncodingsAreIllegal : Prop :=
  ∀ (s : State) (h : Header) (p : Bytes) (tail : List PortEvent), p.length = h.plen →
    s.port = (h.bytes ++ p).map .byte ++ tail → tail.head? ≠ some (.reset true) →
    h.rsv ≠ 0 ∨ reservedOpcode h.opc.toNat →
    step s = .next (State.failed { s with port := tail } .illegalCommand)

/-- Where only part of a packet has arrived, a step changes nothing. The model's choice: the spec says only that between
commands the block waits (R170; log entry 2). -/
def Obligations.IncompletePacketWaits : Prop :=
  ∀ (s : State) (bs : Bytes), s.port = bs.map .byte →
    (bs.length < 20 ∨ ∃ h r, takeHeader bs = some (h, r) ∧ r.length < h.plen) → step s = .next s

/-- Reset empties the buffer and produces no response, and a command in progress is abandoned with no effect (R175). The
model's choice (log entry 4): a reset is an event on the port; one that comes inside a packet abandons the bytes of it
that had arrived (the first two clauses); the bytes sent after the reset stay on the port, and the earlier responses
stay produced (all three). -/
def Obligations.ResetEmptiesBuffer : Prop :=
  (∀ (s : State) (bs : Bytes) (busy : Bool) (rest : List PortEvent), s.port = bs.map .byte ++ .reset busy :: rest →
    bs.length < 20 → step s = .next { s with bb := [], port := rest }) ∧
  (∀ (s : State) (h : Header) (p : Bytes) (busy : Bool) (rest : List PortEvent),
    s.port = (h.bytes ++ p).map .byte ++ .reset busy :: rest → p.length < h.plen →
    step s = .next { s with bb := [], port := rest }) ∧
  (∀ (s : State) (h : Header) (p : Bytes) (rest : List PortEvent),
    s.port = (h.bytes ++ p).map .byte ++ .reset true :: rest → p.length = h.plen →
    step s = .next { s with bb := [], port := rest })

/-- After reset the buffer is empty, its length is 0 and no bit of it exists; after `BB.CLEAR` the buffer is the one after
reset (R33, R175, R176). -/
def Obligations.ResetBufferIsEmpty : Prop :=
  State.reset.bb = [] ∧ State.reset.bbLen = 0 ∧ (∀ k, State.reset.bit k = none) ∧
    ∀ s : State, ∃ t : State, exec (.bbClear []) s = .next t ∧ t.bb = State.reset.bb

/-- The worked encoding of R70: the line assembles to the bytes shown, they decode to the record shown, and on the empty
buffer the response is the one shown, with the bytes shown. -/
def Obligations.WorkedEncodingExample : Prop :=
  assemble "ENC.INT dst=append s=1 bits=5 : i4:-3".toList =
    some [0x12, 0x09, 0, 0, 5, 0, 0, 0, 0, 0, 0, 0, 0, 0, 0, 0, 4, 0, 0, 0, 0xFD, 0xFF, 0xFF, 0xFF] ∧
  decode [0x12, 0x09, 0, 0, 5, 0, 0, 0, 0, 0, 0, 0, 0, 0, 0, 0, 4, 0, 0, 0, 0xFD, 0xFF, 0xFF, 0xFF] =
    .ok (.encInt true .append 0 5 0 [0xFD, 0xFF, 0xFF, 0xFF], []) ∧
  exec (.encInt true .append 0 5 0 [0xFD, 0xFF, 0xFF, 0xFF]) State.reset =
    .next (State.reset.answered [true, true, true, false, true] .ok 5 [0x1D]) ∧
  responseText ⟨.ok, 5, [0x1D], 5⟩ = "-> OK rbits=5 bblen=5 : x\"1D\"".toList ∧
  responseBytes ⟨.ok, 5, [0x1D], 5⟩ = some [0, 0, 0, 0, 5, 0, 0, 0, 1, 0, 0, 0, 5, 0, 0, 0, 0x1D]

/-- `BB.ADD` and `BB.SET` are other spellings of `BB.APPEND` and `BB.WRITE`, with identical encoding (R69). -/
def Obligations.BufferAliasesEncodeAlike : Prop :=
  opcodeOfMnemonic "BB.ADD".toList = some 0x30 ∧ opcodeOfMnemonic "BB.APPEND".toList = some 0x30 ∧
  opcodeOfMnemonic "BB.SET".toList = some 0x31 ∧ opcodeOfMnemonic "BB.WRITE".toList = some 0x31 ∧
  assemble "BB.ADD bits=5 : x\"1D\"".toList = assemble "BB.APPEND bits=5 : x\"1D\"".toList ∧
  assemble "BB.SET bitoff=10 bits=4 : x\"09\"".toList = assemble "BB.WRITE bitoff=10 bits=4 : x\"09\"".toList

/-- The byte form of a response: four little-endian words `STATUS`, `RBITS`, `RLEN`, `BBLEN`, then the payload (R60). It
exists exactly where the three lengths fit their words; the spec says so of `BBLEN` (R29), the rest is the model's choice
(log entry 6). -/
def Obligations.ResponseLayout : Prop :=
  ∀ r : Response,
    ((responseBytes r).isSome = true ↔ r.rbits < 2 ^ 32 ∧ r.payload.length < 2 ^ 32 ∧ r.bbLen < 2 ^ 32) ∧
    ∀ B, responseBytes r = some B →
      uLE (B.take 4) = (statusCode r.status).toNat ∧ uLE ((B.drop 4).take 4) = r.rbits ∧
      uLE ((B.drop 8).take 4) = r.payload.length ∧ uLE ((B.drop 12).take 4) = r.bbLen ∧
      B.drop 16 = r.payload ∧ B.length = 16 + r.payload.length

/-! ## What holds of every command and every step -/

/-- Every step from a state whose buffer is within `BB_CAP` and whose responses are well formed leads to such a state, and
no step stops the machine (R21, R61, R130, R186). -/
def Obligations.StepKeepsInvariant : Prop :=
  ∀ s : State, s.inv = true → ∃ t, step s = .next t ∧ t.inv = true

/-- The state after reset meets that invariant (R33). -/
def Obligations.ResetHasInvariant : Prop := State.reset.inv = true

/-- Every command, legal or not, ends with exactly one response, which reports the length of the buffer after it; the response
and the buffer after the command are a function of the buffer before it and of the command, and of nothing else (R32,
R60, R186). -/
def Obligations.ResponseDependsOnBufferAndCommandOnly : Prop :=
  ∀ (i : Instr) (bb : Bits), ∃ bb' st n q, ∀ s : State, s.bb = bb → exec i s = .next (s.answered bb' st n q)

/-- A command answered with a fatal status changes nothing and carries nothing (R160). -/
def Obligations.FatalStatusLeavesNoTrace : Prop :=
  ∀ (i : Instr) (s t : State) (st : Status), exec i s = .next t → t.lastStatus = some st →
    st = .invalidArgument ∨ st = .outOfBounds ∨ st = .illegalCommand ∨ st = .capacity →
    t.bb = s.bb ∧ t.bbLen = s.bbLen ∧ t.responses = s.responses ++ [⟨st, 0, [], s.bbLen⟩]

/-- A failed command does not affect a later one: it gives the same buffer and response as if the failed one had not been
sent (R27, R167). -/
def Obligations.FailureDoesNotAffectLaterCommand : Prop :=
  ∀ (i j : Instr) (s t : State) (st : Status), exec i s = .next t → t.lastStatus = some st → isFatal st = true →
    ∃ bb st' n q, exec j s = .next (s.answered bb st' n q) ∧ exec j t = .next (t.answered bb st' n q)

/-- A command is answered with one of the statuses that R155 lists for it, and with no other; the status codes and which of
them are fatal are as R155 tables them. -/
def Obligations.StatusesAreAsTabled : Prop :=
  (∀ (i : Instr) (s t : State) (st : Status), exec i s = .next t → t.lastStatus = some st → st ∈ statusesOf i) ∧
  [Status.ok, .invalidArgument, .truncated, .outOfBounds, .illegalCommand, .capacity].map statusCode =
    [0, 1, 2, 3, 4, 5] ∧
  ∀ st, isFatal st = false ↔ st = .ok ∨ st = .truncated

/-- `ILLEGAL_COMMAND` answers exactly the commands that the spec does not define: `BITSIZE` out of range, a payload length
that is too large or not the one the command requires, `CHUNK` out of range, `DST = 3` in an encoder, a `BITSIZE` above
a decoder's native width (R58, R66 (c) to (f), R158). It comes before every other status (R161). -/
def Obligations.IllegalExactlyWhereUndefined : Prop :=
  ∀ (i : Instr) (s : State),
    (i.legal = false → exec i s = .next (s.failed .illegalCommand)) ∧
    (i.legal = true → ∀ t, exec i s = .next t → t.lastStatus ≠ some .illegalCommand)

/-- Only `BB.APPEND`, `BB.WRITE`, `BB.CLEAR` and the encoders with `DST` `append` or `write` change the buffer; of the others none
but `BB.TOBYTES` reads it: the status, `RBITS` and payload are the same whatever the buffer holds (R24, R51 (c), R181). -/
def Obligations.PureCommandsIgnoreBuffer : Prop :=
  ∀ i : Instr, writesBuffer i = false →
    (∀ s : State, ∃ st n q, exec i s = .next (s.answered s.bb st n q)) ∧
    ((∀ p, i ≠ .bbTobytes p) → ∃ st n q, ∀ s : State, exec i s = .next (s.answered s.bb st n q))

/-- A storing command changes the buffer only inside the range it stores to: bits outside it that existed keep their value, new
positions outside it are 0, and the length is the larger of the old one and the range's end; the length never shrinks
but to 0 by `BB.CLEAR` (R22, R129, R134). -/
def Obligations.BufferChangesOnlyInStoredRange : Prop :=
  ∀ (i : Instr) (s t : State), i ≠ .bbClear [] → exec i s = .next t →
    match storedRange i s with
    | none => t.bb = s.bb
    | some (off, n) => t.bb = s.bb ∨ (t.bbLen = max s.bbLen (off + n) ∧
        ∀ k, k < off ∨ off + n ≤ k →
          (k < s.bbLen → t.bit k = s.bit k) ∧ (s.bbLen ≤ k → k < t.bbLen → t.bit k = some false))

/-! ## The buffer commands -/

/-- `NOP` changes nothing and reports the buffer length (R125). -/
def Obligations.NopReportsLength : Prop :=
  ∀ s : State, exec (.nop []) s = .next (s.answered s.bb .ok 0 [])

/-- `BB.CLEAR` empties the buffer (R132). -/
def Obligations.ClearEmptiesBuffer : Prop :=
  ∀ s : State, exec (.bbClear []) s = .next (s.answered [] .ok 0 [])

/-- `BB.TOBYTES` delivers the message: `ceil(BBLEN/8)` bytes, `BB[i]` at wire position `i`, the unused low bits of the last
byte 0; the buffer stays (R38, R131). -/
def Obligations.MessageIsBufferInWireOrder : Prop :=
  ∀ s : State, ∃ M, exec (.bbTobytes []) s = .next (s.answered s.bb .ok s.bbLen M) ∧
    M.length = (s.bbLen + 7) / 8 ∧ ∀ k < 8 * M.length, wireBit M k = (s.bit k).getD false

/-- `BB.APPEND` adds the `BITSIZE` bits of the chunk's window at the end, most significant first; where they do not fit in
`BB_CAP` it is refused whole (R126, R159). -/
def Obligations.AppendStoresField : Prop :=
  ∀ (pad : Byte) (bits : Word) (p : Bytes) (s : State), Instr.fieldLegal bits p = true →
    (Config.admits Config.bbCap (s.bbLen + bits.toNat) = true →
      exec (.bbAppend pad bits p) s =
        .next (s.answered (s.bb ++ fieldBits (uLE p) bits.toNat) .ok bits.toNat [])) ∧
    (Config.admits Config.bbCap (s.bbLen + bits.toNat) = false →
      exec (.bbAppend pad bits p) s = .next (s.failed .capacity))

/-- `BB.WRITE` zero-extends the buffer to `BITOFF + BITSIZE` and overwrites `[BITOFF, BITOFF + BITSIZE)` with the bits of the
chunk's window; where that does not fit in `BB_CAP` it is refused whole (R127, R159). -/
def Obligations.WriteStoresField : Prop :=
  ∀ (pad : Byte) (bits bitOff : Word) (p : Bytes) (s : State), Instr.fieldLegal bits p = true →
    (Config.admits Config.bbCap (max s.bbLen (bitOff.toNat + bits.toNat)) = true →
      exec (.bbWrite pad bits bitOff p) s =
        .next (s.answered (overlay s.bb bitOff.toNat (fieldBits (uLE p) bits.toNat)) .ok bits.toNat [])) ∧
    (Config.admits Config.bbCap (max s.bbLen (bitOff.toNat + bits.toNat)) = false →
      exec (.bbWrite pad bits bitOff p) s = .next (s.failed .capacity))

/-- What a completed `BB.WRITE` leaves alone, bit by bit: bits outside the field that existed are unchanged, new positions
outside it are 0, inside it stands the window most significant bit first, and the length is the larger of the old one
and the field's end (R37, R129). -/
def Obligations.WriteFrame : Prop :=
  ∀ (pad : Byte) (bits bitOff : Word) (p : Bytes) (s t : State), exec (.bbWrite pad bits bitOff p) s = .next t →
    t.lastStatus = some .ok →
    t.bbLen = max s.bbLen (bitOff.toNat + bits.toNat) ∧
    (∀ k, k < bitOff.toNat ∨ bitOff.toNat + bits.toNat ≤ k → k < s.bbLen → t.bit k = s.bit k) ∧
    (∀ k, k < bitOff.toNat → s.bbLen ≤ k → t.bit k = some false) ∧
    ∀ j < bits.toNat, t.bit (bitOff.toNat + j) = some ((uLE p).testBit (bits.toNat - 1 - j))

/-- Appending is writing at the current length: the same buffer, and for the commands the same response, `CAPACITY` in the
same cases (R128). -/
def Obligations.AppendIsWriteAtEnd : Prop :=
  (∀ (bb : Bits) (B : Bytes) (n : Nat), bbAppend bb B n = bbWrite bb B bb.length n) ∧
  ∀ (pad : Byte) (bits bitOff : Word) (p : Bytes) (s : State), bitOff.toNat = s.bbLen →
    exec (.bbAppend pad bits p) s = exec (.bbWrite pad bits bitOff p) s

/-- Two writes to disjoint ranges commute (R129). -/
def Obligations.DisjointWritesCommute : Prop :=
  ∀ (bb : Bits) (B B' : Bytes) (off n off' n' : Nat), off + n ≤ off' ∨ off' + n' ≤ off →
    bbWrite (bbWrite bb B off n) B' off' n' = bbWrite (bbWrite bb B' off' n') B off n

/-! ## SignWindow and BitReversal -/

/-- `SW.TOWIN` returns the window of its value in `max(PLEN, bc(n)) + 1` bytes, exactly, also where the value is not
representable: `v + 2^n` for a negative value under `S = 1`, else `v` (R80, R81, R85). -/
def Obligations.ToWindowReturnsWindow : Prop :=
  ∀ (sg : Bool) (bits : Word) (p : Bytes) (s : State), Instr.fieldLegal bits p = true → 1 ≤ p.length →
    0 ≤ sLE p ∨ sg = true →
    ∃ q, exec (.swTowin sg bits p) s = .next (s.answered s.bb .ok bits.toNat q) ∧
      q.length = max p.length ((bits.toNat + 7) / 8) + 1 ∧ sLE q = foldedValue (sLE p) bits.toNat

/-- `SW.FROMWIN` returns the value of its window, in the same length: `W − 2^n` where `S = 1` and bit `n−1` of `W` is set, else
`W`; bits above the window are not masked (R82, R83). -/
def Obligations.FromWindowReturnsValue : Prop :=
  ∀ (sg : Bool) (bits : Word) (p : Bytes) (s : State), Instr.fieldLegal bits p = true → 1 ≤ p.length →
    ∃ q, exec (.swFromwin sg bits p) s = .next (s.answered s.bb .ok bits.toNat q) ∧
      q.length = max p.length ((bits.toNat + 7) / 8) + 1 ∧
      sLE q = if sg = true ∧ uLE p / 2 ^ (bits.toNat - 1) % 2 = 1 then (uLE p : Int) - 2 ^ bits.toNat else (uLE p : Int)

/-- The two conversions are inverse: on every representable value and on every window of `n` bits; the window of a
representable value is `v mod 2^n` (R84). -/
def Obligations.WindowConversionsAreInverse : Prop :=
  ∀ (n : Nat) (sg : Bool), 1 ≤ n →
    (∀ v : Int, representable v n sg → ∃ W : Nat, toWindow v n sg = some (W : Int) ∧ W < 2 ^ n ∧
      (W : Int) = v % 2 ^ n ∧ fromWindow W n sg = v) ∧
    ∀ W : Nat, W < 2 ^ n → toWindow (fromWindow W n sg) n sg = some (W : Int)

/-- A negative value under `S = 0` is `INVALID_ARGUMENT` in `SW.TOWIN` and in the five integer encoders, whatever the buffer's
room; so is a character below `'0'` in `ENC.BCD` (R121, R156, R161). -/
def Obligations.NegativeUnsignedIsInvalid : Prop :=
  (∀ (bits : Word) (p : Bytes) (s : State), (Instr.swTowin false bits p).legal = true → sLE p < 0 →
    exec (.swTowin false bits p) s = .next (s.failed .invalidArgument)) ∧
  (∀ e ∈ [Instr.encByte, .encShort, .encInt, .encLong, .encBigint],
    ∀ (dst : Dst) (pad : Byte) (bits bitOff : Word) (p : Bytes) (s : State),
      (e false dst pad bits bitOff p).legal = true → sLE p < 0 →
      exec (e false dst pad bits bitOff p) s = .next (s.failed .invalidArgument)) ∧
  ∀ (al : Align) (dst : Dst) (pad : Byte) (bits bitOff : Word) (p : Bytes) (s : State),
    (Instr.encBcd false al dst pad bits bitOff p).legal = true → (∃ c ∈ p, c.toNat < 0x30) →
    exec (.encBcd false al dst pad bits bitOff p) s = .next (s.failed .invalidArgument)

/-- `BR.RBITS` returns its byte with bit `j` at position `7 − j` (R91). -/
def Obligations.ReverseBitsReflectsByte : Prop :=
  ∀ (b : Byte) (s : State), ∃ r : Byte, exec (.brRbits [b]) s = .next (s.answered s.bb .ok 8 [r]) ∧
    (∀ j < 8, r.getLsbD j = b.getLsbD (7 - j)) ∧
    r.toNat = ((List.range 8).map fun j => (b.getLsbD j).toNat * 2 ^ (7 - j)).sum

/-- `BR.RBYTES` returns its bytes in the opposite order, each byte as it was (R92). -/
def Obligations.ReverseBytesReversesOrder : Prop :=
  ∀ (p : Bytes) (s : State), Instr.payloadLegal p = true →
    ∃ q, exec (.brRbytes p) s = .next (s.answered s.bb .ok (8 * p.length) q) ∧ q.length = p.length ∧
      ∀ k < p.length, q[k]? = p[p.length - 1 - k]?

/-- Both reversals undo themselves (R90). -/
def Obligations.ReversalsAreInvolutions : Prop :=
  (∀ b : Byte, reverseBits (reverseBits b) = b) ∧ ∀ B : Bytes, reverseBytes (reverseBytes B) = B

/-! ## The Partitioner -/

/-- `PT.PART` returns `ceil(L/c)` chunks of `bc(c)` bytes: bit `j` of chunk `k` is bit `k·c + j` of the sequence, and every
other bit is 0 (R96, R97). -/
def Obligations.PartitionSplitsSequence : Prop :=
  ∀ (c : Byte) (bits : Word) (p : Bytes) (s : State), (Instr.ptPart c bits p).legal = true →
    ∃ q, exec (.ptPart c bits p) s = .next (s.answered s.bb .ok bits.toNat q) ∧
      q.length = (bits.toNat + c.toNat - 1) / c.toNat * ((c.toNat + 7) / 8) ∧
      ∀ k < (bits.toNat + c.toNat - 1) / c.toNat, ∀ j < 8 * ((c.toNat + 7) / 8),
        leBit q (8 * ((c.toNat + 7) / 8) * k + j) =
          (decide (j < c.toNat ∧ k * c.toNat + j < bits.toNat) && leBit p (k * c.toNat + j))

/-- `PT.FLAT` returns the chunks joined: bit `i` of the sequence is bit `i mod c` of chunk `floor(i/c)`; filler bits do not
reach the result (R96, R98). -/
def Obligations.FlattenJoinsChunks : Prop :=
  ∀ (c : Byte) (bits : Word) (p : Bytes) (s : State), (Instr.ptFlat c bits p).legal = true →
    ∃ q, exec (.ptFlat c bits p) s = .next (s.answered s.bb .ok bits.toNat q) ∧
      q.length = (bits.toNat + 7) / 8 ∧
      ∀ i < 8 * ((bits.toNat + 7) / 8), leBit q i =
        (decide (i < bits.toNat) && leBit p (8 * ((c.toNat + 7) / 8) * (i / c.toNat) + i % c.toNat))

/-- `PT.PACK` returns one byte per chunk: bit `j` of a chunk at position `7 − j` when `RV = 1`, else at position `j`; positions
that receive no chunk bit are 0 (R99, R103). -/
def Obligations.PackPlacesChunkBits : Prop :=
  ∀ (rv : Bool) (c : Byte) (bits : Word) (p : Bytes) (s : State), (Instr.ptPack rv c bits p).legal = true →
    ∃ q, exec (.ptPack rv c bits p) s = .next (s.answered s.bb .ok bits.toNat q) ∧
      q.length = (bits.toNat + c.toNat - 1) / c.toNat ∧
      ∀ k < q.length, ∀ j < 8, (q.getD k 0).getLsbD (if rv = true then 7 - j else j) =
        (decide (j < c.toNat ∧ k * c.toNat + j < bits.toNat) && (p.getD k 0).getLsbD j)

/-- Partitioning and flattening are inverse in both directions (R100). -/
def Obligations.PartitionFlattenInverse : Prop :=
  ∀ c : Nat, 1 ≤ c →
    (∀ s : Bits, flatten (partition c s) = s) ∧
    partition c (flatten []) = [] ∧
    ∀ (init : List Bits) (last : Bits), (∀ x ∈ init, x.length = c) → 1 ≤ last.length → last.length ≤ c →
      partition c (flatten (init ++ [last])) = init ++ [last]

/-- The two packings differ by a reversal within each byte, in unchanged byte order; reading a message packed with one flag by
the other convention reverses each group of eight bits (R101). -/
def Obligations.MismatchedPackingsReverseBytes : Prop :=
  (∀ chunks : List Bits, pack chunks true = (pack chunks false).map reverseBits) ∧
  ∀ (s : Bits) (k j : Nat), 8 * k + 8 ≤ s.length → j < 8 →
    (bitsLE (pack (partition 8 s) true))[8 * k + j]? = s[8 * k + (7 - j)]?

/-! ## The encoders -/

/-- `BE.ENCODE` returns the `n` encoded bits of its chunk, bit `n−1−i` of the chunk first; a long chunk is cut at its high end, a
short one extended there by zeros (R43, R106). -/
def Obligations.BitEncodeReversesWindow : Prop :=
  ∀ (pad : Byte) (bits : Word) (p : Bytes) (s : State), Instr.fieldLegal bits p = true →
    ∃ q, exec (.beEncode pad bits p) s = .next (s.answered s.bb .ok bits.toNat q) ∧
      q.length = (bits.toNat + 7) / 8 ∧
      ∀ i < 8 * q.length, leBit q i = (decide (i < bits.toNat) && leBit p (bits.toNat - 1 - i))

/-- Encoding never yields more than `BITSIZE` bits: the primitive yields exactly `n`; an encoder that is answered `OK` reports
`RBITS = eff ≤ BITSIZE`, and with the chunk it returns, `append` adds exactly the `eff` encoded bits of the chunk at the
end, `write` stores exactly those `eff` bits at `BITOFF` and leaves every other bit of the buffer, and `none` stores
nothing (R107). -/
def Obligations.EncodersStoreExactlyTheField : Prop :=
  (∀ (B : Bytes) (n : Nat), (bitEncode B n).length = n) ∧
  ∀ (al : Align), ∀ e ∈ typedEncoders al, ∀ (sg : Bool) (dst : Dst) (pad : Byte) (bits bitOff : Word) (p : Bytes)
    (s t : State), exec (e sg dst pad bits bitOff p) s = .next t → t.lastStatus = some .ok →
    ∀ eff, eff = fieldSize (e sg dst pad bits bitOff p) →
      eff ≤ bits.toNat ∧
      ∃ q, t.responses = s.responses ++ [⟨.ok, eff, q, t.bbLen⟩] ∧
        match dst with
        | .none | .reserved => t.bb = s.bb
        | .append => t.bb = s.bb ++ bitEncode q eff
        | .write =>
            t.bbLen = max s.bbLen (bitOff.toNat + eff) ∧
            (∀ j < eff, t.bit (bitOff.toNat + j) = (bitEncode q eff)[j]?) ∧
            ∀ k, k < bitOff.toNat ∨ bitOff.toNat + eff ≤ k →
              (k < s.bbLen → t.bit k = s.bit k) ∧ (s.bbLen ≤ k → k < t.bbLen → t.bit k = some false)

/-- `ENC.BYTE`, `ENC.SHORT`, `ENC.INT`, `ENC.LONG` and `ENC.BIGINT` store `v mod 2^n` in the field, most significant bit first, and
return the chunk: `bc(n)` bytes that hold the low bits of the window; under `S = 0` for `v ≥ 0`, under `S = 1` for every `v`,
representable or not (R85, R108 to R114). -/
def Obligations.IntegerEncodersStoreValue : Prop :=
  ∀ e ∈ [Instr.encByte, .encShort, .encInt, .encLong, .encBigint],
    ∀ (sg : Bool) (dst : Dst) (pad : Byte) (bits bitOff : Word) (p : Bytes) (s : State),
      (e sg dst pad bits bitOff p).legal = true → 0 ≤ sLE p ∨ sg = true →
      ∃ q, q.length = (bits.toNat + 7) / 8 ∧
        (uLE q : Int) = foldedValue (sLE p) bits.toNat % 2 ^ (8 * ((bits.toNat + 7) / 8)) ∧
        answersField (exec (e sg dst pad bits bitOff p) s) s dst bitOff.toNat bits.toNat
          (fieldBits (sLE p % 2 ^ bits.toNat).toNat bits.toNat) q

/-- `ENC.FLOAT` and `ENC.DOUBLE` carry the pattern verbatim: its low `n` bits in the field, zero-extended where `n` is larger
(R115, R116, R120). -/
def Obligations.PatternEncodersCarryPattern : Prop :=
  ∀ e ∈ [Instr.encFloat, .encDouble],
    ∀ (sg : Bool) (dst : Dst) (pad : Byte) (bits bitOff : Word) (p : Bytes) (s : State),
      (e sg dst pad bits bitOff p).legal = true →
      ∃ q, q.length = (bits.toNat + 7) / 8 ∧ uLE q = uLE p % 2 ^ (8 * ((bits.toNat + 7) / 8)) ∧
        answersField (exec (e sg dst pad bits bitOff p) s) s dst bitOff.toNat bits.toNat
          (fieldBits (uLE p) bits.toNat) q

/-- `ENC.BYTES` stores the last `n` bits, in wire order, of the value padded to the field's byte count, and returns the last
`bc(n)` bytes of it in reverse order (R117). -/
def Obligations.BytesEncoderStoresWireImage : Prop :=
  ∀ (sg : Bool) (al : Align) (dst : Dst) (pad : Byte) (bits bitOff : Word) (p : Bytes) (s : State),
    (Instr.encBytes sg al dst pad bits bitOff p).legal = true →
    ∀ V, V = paddedValue p ((bits.toNat + 7) / 8) al pad →
      answersField (exec (.encBytes sg al dst pad bits bitOff p) s) s dst bitOff.toNat bits.toNat
        ((List.range bits.toNat).map fun i => wireBit V (8 * V.length - bits.toNat + i))
        (V.drop (V.length - (bits.toNat + 7) / 8)).reverse

/-- `ENC.BCD` stores `floor(n/4)` nibbles, slot 0 first and each most significant bit first: a character's code less 0x30 modulo
16 inside the string, the pad nibble outside it; the chunk is the little-endian bytes of that window. `n < 4` stores no
bit (R109, R118). -/
def Obligations.BcdEncoderStoresSlots : Prop :=
  ∀ (sg : Bool) (al : Align) (dst : Dst) (pad : Byte) (bits bitOff : Word) (p : Bytes) (s : State),
    (Instr.encBcd sg al dst pad bits bitOff p).legal = true → sg = true ∨ (∀ c ∈ p, 0x30 ≤ c.toNat) →
    ∃ q, q.length = (4 * (bits.toNat / 4) + 7) / 8 ∧
      uLE q = ((List.range (bits.toNat / 4)).map fun k =>
        slotNibble p (bits.toNat / 4) al pad k * 16 ^ (bits.toNat / 4 - 1 - k)).sum ∧
      answersField (exec (.encBcd sg al dst pad bits bitOff p) s) s dst bitOff.toNat (4 * (bits.toNat / 4))
        ((List.range (4 * (bits.toNat / 4))).map fun i =>
          (slotNibble p (bits.toNat / 4) al pad (i / 4)).testBit (3 - i % 4)) q

/-- An encoder with `DST = append` or `write` is equivalent to the same encoder with `DST = none` followed by `BB.APPEND` or
`BB.WRITE` of the returned chunk with `BITSIZE = eff` and the same `BITOFF`, where that command may carry the chunk
(R69, R109). -/
def Obligations.EncodeAndStoreEqualsTwoCommands : Prop :=
  ∀ (al : Align), ∀ e ∈ typedEncoders al, ∀ (sg : Bool) (pad : Byte) (bits bitOff eff : Word) (p q : Bytes) (s : State),
    exec (e sg .none pad bits bitOff p) s = .next (s.answered s.bb .ok eff.toNat q) → 1 ≤ eff.toNat →
    Instr.payloadLegal q = true →
    storesTheSame s eff.toNat q (exec (e sg .append pad bits bitOff p) s) (exec (.bbAppend pad eff q) s) ∧
    storesTheSame s eff.toNat q (exec (e sg .write pad bits bitOff p) s) (exec (.bbWrite pad eff bitOff q) s)

/-- The header fields an encoder accepts without effect change nothing: `PAD` in the integer, float and double encoders and in the
buffer commands and the primitive, `S` in `ENC.FLOAT`, `ENC.DOUBLE` and `ENC.BYTES`, `BITOFF` unless `DST = write` (R58, R109,
R123). -/
def Obligations.IgnoredEncoderFields : Prop :=
  (∀ e ∈ [Instr.encByte, .encShort, .encInt, .encLong, .encBigint, .encFloat, .encDouble],
    ∀ sg dst pad pad' bits bitOff p s,
      exec (e sg dst pad bits bitOff p) s = exec (e sg dst pad' bits bitOff p) s) ∧
  (∀ e ∈ [Instr.encFloat, .encDouble, fun sg => Instr.encBytes sg .left, fun sg => Instr.encBytes sg .right],
    ∀ sg sg' dst pad bits bitOff p s,
      exec (e sg dst pad bits bitOff p) s = exec (e sg' dst pad bits bitOff p) s) ∧
  (∀ (al : Align), ∀ e ∈ typedEncoders al, ∀ sg dst pad bits bitOff bitOff' p s, dst ≠ .write →
    exec (e sg dst pad bits bitOff p) s = exec (e sg dst pad bits bitOff' p) s) ∧
  (∀ pad pad' bits p s, exec (.beEncode pad bits p) s = exec (.beEncode pad' bits p) s ∧
    exec (.bbAppend pad bits p) s = exec (.bbAppend pad' bits p) s) ∧
  ∀ pad pad' bits bitOff p s, exec (.bbWrite pad bits bitOff p) s = exec (.bbWrite pad' bits bitOff p) s

/-! ## The decoders -/

/-- `DEC.BYTE`, `DEC.SHORT`, `DEC.INT` and `DEC.LONG` return the value of their window in 1, 2, 4 and 8 bytes: read with its sign
under `S = 1`, unsigned under `S = 0` (R137 to R141). -/
def Obligations.IntegerDecodersReturnValue : Prop :=
  ∀ d ∈ [(Instr.decByte, 1), (.decShort, 2), (.decInt, 4), (.decLong, 8)],
    ∀ (sg : Bool) (bits bitOff byteOff : Word) (p : Bytes) (s : State),
      Instr.fieldLegal bits p = true → bits.toNat ≤ 8 * d.2 →
      8 * byteOff.toNat + bitOff.toNat + bits.toNat ≤ 8 * p.length →
      ∃ q, exec (d.1 sg bits bitOff byteOff p) s = .next (s.answered s.bb .ok bits.toNat q) ∧ q.length = d.2 ∧
        (sg = true →
          sLE q = signedValue (windowAt p (8 * byteOff.toNat + bitOff.toNat) bits.toNat) bits.toNat true) ∧
        (sg = false → uLE q = windowAt p (8 * byteOff.toNat + bitOff.toNat) bits.toNat)

/-- `DEC.BIGINT` returns the value of its window in `floor(n/8) + 1` bytes, with its sign under either `S` (R142). -/
def Obligations.BigintDecoderReturnsValue : Prop :=
  ∀ (sg : Bool) (bits bitOff byteOff : Word) (p : Bytes) (s : State), Instr.fieldLegal bits p = true →
    8 * byteOff.toNat + bitOff.toNat + bits.toNat ≤ 8 * p.length →
    ∃ q, exec (.decBigint sg bits bitOff byteOff p) s = .next (s.answered s.bb .ok bits.toNat q) ∧
      q.length = bits.toNat / 8 + 1 ∧
      sLE q = signedValue (windowAt p (8 * byteOff.toNat + bitOff.toNat) bits.toNat) bits.toNat sg

/-- `DEC.FLOAT` and `DEC.DOUBLE` return the window as a pattern of 4 and 8 bytes, zero-extended; `S` is not applied (R143, R144). -/
def Obligations.PatternDecodersReturnPattern : Prop :=
  ∀ d ∈ [(Instr.decFloat, 4), (.decDouble, 8)],
    ∀ (sg : Bool) (bits bitOff byteOff : Word) (p : Bytes) (s : State),
      Instr.fieldLegal bits p = true → bits.toNat ≤ 8 * d.2 →
      8 * byteOff.toNat + bitOff.toNat + bits.toNat ≤ 8 * p.length →
      ∃ q, exec (d.1 sg bits bitOff byteOff p) s = .next (s.answered s.bb .ok bits.toNat q) ∧ q.length = d.2 ∧
        uLE q = windowAt p (8 * byteOff.toNat + bitOff.toNat) bits.toNat

/-- `DEC.BITS` returns the window in `bc(n)` little-endian bytes, and `DEC.BYTES` the same bytes in the opposite order (R136,
R145). -/
def Obligations.WindowDecodersReturnWindow : Prop :=
  ∀ (sg : Bool) (bits bitOff byteOff : Word) (p : Bytes) (s : State), Instr.fieldLegal bits p = true →
    8 * byteOff.toNat + bitOff.toNat + bits.toNat ≤ 8 * p.length →
    ∃ q, q.length = (bits.toNat + 7) / 8 ∧ uLE q = windowAt p (8 * byteOff.toNat + bitOff.toNat) bits.toNat ∧
      exec (.decBits sg bits bitOff byteOff p) s = .next (s.answered s.bb .ok bits.toNat q) ∧
      exec (.decBytes sg bits bitOff byteOff p) s = .next (s.answered s.bb .ok bits.toNat q.reverse)

/-- `DEC.BCD` returns one character for each nibble that lies wholly inside the payload, and `TRUNCATED` where that is fewer than
`floor(n/4)`; it is never out of bounds (R146, R157). -/
def Obligations.BcdDecoderReturnsDigits : Prop :=
  ∀ (sg : Bool) (bits bitOff byteOff : Word) (p : Bytes) (s : State), Instr.fieldLegal bits p = true →
    ∀ m, m = wholeNibbles p (8 * byteOff.toNat + bitOff.toNat) (bits.toNat / 4) →
      ∃ q, exec (.decBcd sg bits bitOff byteOff p) s =
          .next (s.answered s.bb (if m < bits.toNat / 4 then .truncated else .ok) (4 * m) q) ∧
        q.length = m ∧
        ∀ k < m, ((q.getD k 0).toNat : Int) =
          0x30 + signedValue (windowAt p (8 * byteOff.toNat + bitOff.toNat + 4 * k) 4) 4 sg

/-- Every decoder but `DEC.BCD` answers a legal command whose window does not lie inside its payload with `OUT_OF_BOUNDS`, and
returns no partial data; where the window lies inside, it completes (R148, R149, R162). -/
def Obligations.WindowOutsidePayloadIsOutOfBounds : Prop :=
  ∀ d ∈ [Instr.decByte, .decShort, .decInt, .decLong, .decBigint, .decFloat, .decDouble, .decBytes, .decBits],
    ∀ (sg : Bool) (bits bitOff byteOff : Word) (p : Bytes) (s : State),
      (d sg bits bitOff byteOff p).legal = true →
      (8 * p.length < 8 * byteOff.toNat + bitOff.toNat + bits.toNat →
        exec (d sg bits bitOff byteOff p) s = .next (s.failed .outOfBounds)) ∧
      (8 * byteOff.toNat + bitOff.toNat + bits.toNat ≤ 8 * p.length →
        ∃ q, exec (d sg bits bitOff byteOff p) s = .next (s.answered s.bb .ok bits.toNat q))

/-- No decoder reads outside its window: what it answers depends on the payload only through the payload's length and the bits
`[abs, abs + n)` of the wire stream (R148). -/
def Obligations.DecodersReadOnlyTheWindow : Prop :=
  ∀ d ∈ typedDecoders, ∀ (sg : Bool) (bits bitOff byteOff : Word) (p p' : Bytes) (s : State), p.length = p'.length →
    (∀ k, 8 * byteOff.toNat + bitOff.toNat ≤ k → k < 8 * byteOff.toNat + bitOff.toNat + bits.toNat →
      wireBit p k = wireBit p' k) →
    exec (d sg bits bitOff byteOff p) s = exec (d sg bits bitOff byteOff p') s

/-- Decoder positions are computed without wrap: two commands with the same `abs = 8·BYTEOFF + BITOFF`, as a number, the same
payload and the same other fields give the same response; and a window past the end of the payload by that number is
never taken for one inside it: `OUT_OF_BOUNDS`, or for `DEC.BCD` no digit (R46). -/
def Obligations.SamePositionSameResponse : Prop :=
  (∀ d ∈ typedDecoders, ∀ (sg : Bool) (bits bitOff byteOff bitOff' byteOff' : Word) (p : Bytes) (s : State),
    8 * byteOff.toNat + bitOff.toNat = 8 * byteOff'.toNat + bitOff'.toNat →
    exec (d sg bits bitOff byteOff p) s = exec (d sg bits bitOff' byteOff' p) s) ∧
  (∀ d ∈ [Instr.decByte, .decShort, .decInt, .decLong, .decBigint, .decFloat, .decDouble, .decBytes, .decBits],
    ∀ (sg : Bool) (bits bitOff byteOff : Word) (p : Bytes) (s : State), (d sg bits bitOff byteOff p).legal = true →
      8 * p.length < 8 * byteOff.toNat + bitOff.toNat + bits.toNat →
      exec (d sg bits bitOff byteOff p) s = .next (s.failed .outOfBounds)) ∧
  ∀ (sg : Bool) (bits bitOff byteOff : Word) (p : Bytes) (s : State), (Instr.decBcd sg bits bitOff byteOff p).legal = true →
    8 * p.length < 8 * byteOff.toNat + bitOff.toNat + 4 →
    exec (.decBcd sg bits bitOff byteOff p) s =
      .next (s.answered s.bb (if bits.toNat < 4 then .ok else .truncated) 0 [])

/-! ## The round-trip law -/

/-- A representable integer that is stored at any buffer offset and read back from the message with the same `BITSIZE` and `S` is
the value that was stored, for every type, width, sign and offset (R151). -/
def Obligations.IntegerRoundTrip : Prop :=
  ∀ c ∈ [(Instr.encByte, Instr.decByte, some 1), (.encShort, .decShort, some 2), (.encInt, .decInt, some 4),
      (.encLong, .decLong, some 8), (.encBigint, .decBigint, none)],
    ∀ (sg : Bool) (pad : Byte) (bits bitOff bo byo : Word) (p M : Bytes) (w : State),
      carriesField (c.1 sg .append pad bits bitOff p) (8 * byo.toNat + bo.toNat) bits.toNat M →
      representable (sLE p) bits.toNat sg → Instr.payloadLegal M = true →
      (∀ N, c.2.2 = some N → bits.toNat ≤ 8 * N) →
      ∃ q, exec (c.2.1 sg bits bo byo M) w = .next (w.answered w.bb .ok bits.toNat q) ∧
        q.length = c.2.2.getD (bits.toNat / 8 + 1) ∧
        if sg = true ∨ c.2.2 = none then sLE q = sLE p else (uLE q : Int) = sLE p

/-- Float and double patterns at the native width, byte sequences of exactly the field's size, and digit strings of exactly
`floor(n/4)` digits (under `S = 1` without `'8'` and `'9'`) come back as they were stored, at any buffer offset (R151). -/
def Obligations.VerbatimRoundTrip : Prop :=
  ∀ (al : Align) (sg sg' : Bool) (pad : Byte) (bits bitOff bo byo : Word) (p M : Bytes) (w : State),
    Instr.payloadLegal M = true →
    (carriesField (.encFloat sg .append pad bits bitOff p) (8 * byo.toNat + bo.toNat) bits.toNat M → bits = 32 →
      exec (.decFloat sg' bits bo byo M) w = .next (w.answered w.bb .ok 32 p)) ∧
    (carriesField (.encDouble sg .append pad bits bitOff p) (8 * byo.toNat + bo.toNat) bits.toNat M → bits = 64 →
      exec (.decDouble sg' bits bo byo M) w = .next (w.answered w.bb .ok 64 p)) ∧
    (carriesField (.encBytes sg al .append pad bits bitOff p) (8 * byo.toNat + bo.toNat) bits.toNat M →
      bits.toNat = 8 * p.length →
      exec (.decBytes sg' bits bo byo M) w = .next (w.answered w.bb .ok bits.toNat p)) ∧
    (carriesField (.encBcd sg al .append pad bits bitOff p) (8 * byo.toNat + bo.toNat) (4 * (bits.toNat / 4)) M →
      p.length = bits.toNat / 4 → (∀ c ∈ p, 0x30 ≤ c.toNat ∧ c.toNat ≤ if sg' = true then 0x37 else 0x39) →
      exec (.decBcd sg' bits bo byo M) w = .next (w.answered w.bb .ok (4 * (bits.toNat / 4)) p))

end
end

