-- ==== Sys2Proof/Laws/State.lean ====
section
/-!
SUPPORT. One lemma per field per update of State, true by `rfl`.
-/

namespace Sys2Proof.Machine

section
variable (s : State) (bb : Bits) (port rest : List PortEvent) (rs : List Response)
variable (st : Status) (n nbits w : Nat) (q bs : Bytes) (busy : Bool)

@[simp] theorem withBb_bb : ({ s with bb := bb } : State).bb = bb := rfl
@[simp] theorem withBb_port : ({ s with bb := bb } : State).port = s.port := rfl
@[simp] theorem withBb_responses : ({ s with bb := bb } : State).responses = s.responses := rfl

@[simp] theorem withPort_bb : ({ s with port := port } : State).bb = s.bb := rfl
@[simp] theorem withPort_port : ({ s with port := port } : State).port = port := rfl
@[simp] theorem withPort_responses : ({ s with port := port } : State).responses = s.responses := rfl

@[simp] theorem withResponses_bb : ({ s with responses := rs } : State).bb = s.bb := rfl
@[simp] theorem withResponses_port : ({ s with responses := rs } : State).port = s.port := rfl
@[simp] theorem withResponses_responses : ({ s with responses := rs } : State).responses = rs := rfl

@[simp] theorem answered_bb : (s.answered bb st n q).bb = bb := rfl
@[simp] theorem answered_port : (s.answered bb st n q).port = s.port := rfl
@[simp] theorem answered_responses :
    (s.answered bb st n q).responses = s.responses ++ [⟨st, n, q, bb.length⟩] := rfl

@[simp] theorem failed_bb : (s.failed st).bb = s.bb := rfl
@[simp] theorem failed_port : (s.failed st).port = s.port := rfl
@[simp] theorem failed_responses :
    (s.failed st).responses = s.responses ++ [⟨st, 0, [], s.bb.length⟩] := rfl

@[simp] theorem takeReset_bb : (takeReset rest s).bb = [] := rfl
@[simp] theorem takeReset_port : (takeReset rest s).port = rest := rfl
@[simp] theorem takeReset_responses : (takeReset rest s).responses = s.responses := rfl

@[simp] theorem present_bb : (present bs s).bb = s.bb := rfl
@[simp] theorem present_port : (present bs s).port = s.port ++ bs.map .byte := rfl
@[simp] theorem present_responses : (present bs s).responses = s.responses := rfl

@[simp] theorem assertReset_bb : (assertReset busy s).bb = s.bb := rfl
@[simp] theorem assertReset_port : (assertReset busy s).port = s.port ++ [.reset busy] := rfl
@[simp] theorem assertReset_responses : (assertReset busy s).responses = s.responses := rfl

@[simp] theorem withFetchWord_bb : (s.withFetchWord nbits w).bb = s.bb := rfl
@[simp] theorem withFetchWord_port :
    (s.withFetchWord nbits w).port =
      (packetOfNat nbits w).map .byte ++ s.port.dropWhile fun e => decide (e = .reset true) := rfl
@[simp] theorem withFetchWord_responses : (s.withFetchWord nbits w).responses = s.responses := rfl

@[simp] theorem reset_bb : State.reset.bb = [] := rfl
@[simp] theorem reset_port : State.reset.port = [] := rfl
@[simp] theorem reset_responses : State.reset.responses = [] := rfl
@[simp] theorem bbLen_eq : s.bbLen = s.bb.length := rfl

end

end Sys2Proof.Machine
end

