-- ==== Sys2Proof/Laws/Operands.lean ====
section
/-!
SUPPORT. The limit checks say what the plain limits of R8 say, and every legal implementation admits a value up to the
parameter's floor.
-/

namespace Sys2Proof.Machine

@[simp] theorem admits_none (v : Nat) : Config.admits none v = true := rfl

@[simp] theorem admits_some (m v : Nat) : Config.admits (some m) v = decide (v ≤ m) := rfl

theorem admits_mono {limit : Option Nat} {u v : Nat} (h : Config.admits limit v = true) (huv : u ≤ v) :
    Config.admits limit u = true := by
  cases limit with
  | none => rfl
  | some m => simp only [admits_some, decide_eq_true_eq] at h ⊢; omega

theorem floor_le_maxBits {m : Nat} (h : Config.maxBits = some m) : 64 ≤ m ∧ m < 2 ^ 32 := by
  simp only [Config.maxBits, Option.map_eq_some_iff] at h
  obtain ⟨k, -, rfl⟩ := h
  have := k.isLt
  omega

theorem floor_le_maxIn {m : Nat} (h : Config.maxIn = some m) : 8 ≤ m ∧ m < 2 ^ 32 := by
  simp only [Config.maxIn, Option.map_eq_some_iff] at h
  obtain ⟨k, -, rfl⟩ := h
  have := k.isLt
  omega

/-- A finite `BB_CAP` lies between a finite `MAXBITS` and 2^32 − 1 (R8, R29). -/
theorem floor_le_bbCap {c : Nat} (h : Config.bbCap = some c) :
    ∃ m, Config.maxBits = some m ∧ m ≤ c ∧ c < 2 ^ 32 := by
  unfold Config.bbCap at h
  split at h
  · rename_i m k hm hk
    have := floor_le_maxBits hm
    refine ⟨m, hm, ?_⟩
    simp only [Option.some.injEq] at h
    omega
  · cases h

theorem admits_maxBits_of_le {n : Nat} (h : n ≤ 64) : Config.admits Config.maxBits n = true := by
  cases hm : Config.maxBits with
  | none => rfl
  | some m => have := floor_le_maxBits hm; simp only [admits_some, decide_eq_true_eq]; omega

theorem admits_maxIn_of_le {n : Nat} (h : n ≤ 8) : Config.admits Config.maxIn n = true := by
  cases hm : Config.maxIn with
  | none => rfl
  | some m => have := floor_le_maxIn hm; simp only [admits_some, decide_eq_true_eq]; omega

theorem admits_bbCap_of_le {n : Nat} (h : n ≤ 64) : Config.admits Config.bbCap n = true := by
  cases hm : Config.bbCap with
  | none => rfl
  | some c =>
    obtain ⟨m, hm', hle, -⟩ := floor_le_bbCap hm
    have := floor_le_maxBits hm'
    simp only [admits_some, decide_eq_true_eq]; omega

theorem admits_sequence_of_le {n : Nat} (h : n ≤ 64) :
    Config.admits (Config.maxIn.map (8 * ·)) n = true := by
  cases hm : Config.maxIn with
  | none => rfl
  | some m =>
    have := floor_le_maxIn hm
    simp only [Option.map_some, admits_some, decide_eq_true_eq]; omega

theorem fitsMaxBits_eq (n : Nat) : fitsMaxBits n = Config.admits Config.maxBits n := by
  by_cases h : n ≤ 64 <;> simp [fitsMaxBits, h, admits_maxBits_of_le]

theorem fitsMaxIn_eq (n : Nat) : fitsMaxIn n = Config.admits Config.maxIn n := by
  by_cases h : n ≤ 8 <;> simp [fitsMaxIn, h, admits_maxIn_of_le]

theorem fitsBuffer_eq (n : Nat) : fitsBuffer n = Config.admits Config.bbCap n := by
  by_cases h : n ≤ 64 <;> simp [fitsBuffer, h, admits_bbCap_of_le]

theorem fitsSequence_eq (n : Nat) :
    fitsSequence n = Config.admits (Config.maxIn.map (8 * ·)) n := by
  by_cases h : n ≤ 64 <;> simp [fitsSequence, h, admits_sequence_of_le]

/-- The header legality of a field-geometry command is the list of R58. -/
theorem fieldOk_eq (bits : Word) (p : Bytes) : fieldOk bits p = Instr.fieldLegal bits p := by
  simp only [fieldOk, Instr.fieldLegal, Instr.payloadLegal, fitsMaxBits_eq, fitsMaxIn_eq]
  ac_rfl

theorem encoderOk_eq (dst : Dst) (bits : Word) (p : Bytes) :
    encoderOk dst bits p = Instr.encoderLegal dst bits p := by
  simp only [encoderOk, Instr.encoderLegal, fieldOk_eq]
  ac_rfl

theorem sequenceOk_eq (chunk : Byte) (bits : Word) (p : Bytes) :
    sequenceOk chunk bits p = Instr.sequenceLegal chunk bits p := by
  have h : (chunk.toNat ≠ 0) = (chunk ≠ 0) := by
    rw [ne_eq, ne_eq, ← BitVec.toNat_inj]; rfl
  simp only [sequenceOk, Instr.sequenceLegal, Instr.payloadLegal, fitsSequence_eq, fitsMaxIn_eq, h]
  ac_rfl

/-- What `extract` answers, and when: the extracted bytes, or the first of its two checks that fails (R149). -/
theorem extract_eq (native : Option Nat) (bits bitOff byteOff : Word) (p : Bytes) :
    extract native bits bitOff byteOff p =
      if Instr.fieldLegal bits p = true ∧ withinNative native bits.toNat = true then
        if windowStart bitOff byteOff + bits.toNat ≤ 8 * p.length then
          .ok (decodeBits p (windowStart bitOff byteOff) bits.toNat)
        else .error .outOfBounds
      else .error .illegalCommand := by
  simp only [extract, fieldOk_eq, insidePayload, Bool.and_eq_true, decide_eq_true_eq]

end Sys2Proof.Machine
end

