-- ==== Sys2Proof/Laws/Bits.lean ====
section
/-!
SUPPORT. One lemma for the length and one for the elements of every pure function of `Machine/Bits.lean`: a bit of the
result, given by its position, in terms of a bit of the argument. Callers cite these and do not unfold the functions.
-/

namespace Sys2Proof.Machine

/-! ## Bytes as bits -/

@[simp] theorem byteOfBits_getLsbD (f : Nat → Bool) (j : Nat) :
    (byteOfBits f).getLsbD j = (decide (j < 8) && f j) := by
  by_cases h : j < 8
  · simp [byteOfBits, h]
  · simp [h, BitVec.getLsbD_of_ge (byteOfBits f) j (by omega)]

@[simp] theorem length_byteBits (b : Byte) : (byteBits b).length = 8 := by simp [byteBits]

theorem byteBits_getD (b : Byte) (j : Nat) : (byteBits b).getD j false = b.getLsbD j := by
  by_cases h : j < 8
  · simp [byteBits, List.getD_eq_getElem?_getD, h]
  · simp [byteBits, List.getD_eq_getElem?_getD, h, BitVec.getLsbD_of_ge b j (by omega)]

@[simp] theorem bitsLE_nil : bitsLE [] = [] := rfl

@[simp] theorem bitsLE_cons (b : Byte) (B : Bytes) : bitsLE (b :: B) = byteBits b ++ bitsLE B := rfl

@[simp] theorem length_bitsLE (B : Bytes) : (bitsLE B).length = 8 * B.length := by
  induction B with
  | nil => rfl
  | cons b B ih => simp [ih]; omega

@[simp] theorem leBit_nil (i : Nat) : leBit [] i = false := by simp [leBit]

theorem leBit_cons (b : Byte) (B : Bytes) (i : Nat) :
    leBit (b :: B) i = if i < 8 then b.getLsbD i else leBit B (i - 8) := by
  by_cases h : i < 8
  · simp [leBit, h, Nat.div_eq_of_lt h, Nat.mod_eq_of_lt h]
  · have h1 : i / 8 = (i - 8) / 8 + 1 := by omega
    have h2 : i % 8 = (i - 8) % 8 := by omega
    simp [leBit, h, h1, h2]

/-- `bitsLE(B)[8k+j] = B[k][j]` (R13). -/
theorem bitsLE_getD (B : Bytes) (i : Nat) : (bitsLE B).getD i false = leBit B i := by
  induction B generalizing i with
  | nil => simp
  | cons b B ih =>
    rw [bitsLE_cons, leBit_cons]
    by_cases h : i < 8
    · rw [List.getD_append _ _ _ _ (by simpa using h), byteBits_getD, if_pos h]
    · rw [List.getD_append_right _ _ _ _ (by simpa using h), length_byteBits, ih, if_neg h]

theorem leBit_of_ge {B : Bytes} {i : Nat} (h : 8 * B.length ≤ i) : leBit B i = false := by
  rw [← bitsLE_getD]
  exact List.getD_eq_default _ _ (by simpa using h)

theorem wireBit_eq_leBit (B : Bytes) (i : Nat) : wireBit B i = leBit B (8 * (i / 8) + (7 - i % 8)) := by
  have h1 : (8 * (i / 8) + (7 - i % 8)) / 8 = i / 8 := by omega
  have h2 : (8 * (i / 8) + (7 - i % 8)) % 8 = 7 - i % 8 := by omega
  simp [wireBit, leBit, h1, h2]

/-- Two byte sequences of one length are equal when their bits are. -/
theorem eq_of_leBit {A B : Bytes} (hl : A.length = B.length)
    (h : ∀ i < 8 * A.length, leBit A i = leBit B i) : A = B := by
  apply List.ext_getElem hl
  intro k hA hB
  apply BitVec.eq_of_getLsbD_eq
  intro j hj
  have h' := h (8 * k + j) (by omega)
  have h1 : (8 * k + j) / 8 = k := by omega
  have h2 : (8 * k + j) % 8 = j := by omega
  simpa [leBit, h1, h2, hA, hB] using h'

/-- Two bit sequences of one length are equal when their elements are. -/
theorem eq_of_getD {s t : Bits} (hl : s.length = t.length)
    (h : ∀ i < s.length, s.getD i false = t.getD i false) : s = t := by
  apply List.ext_getElem hl
  intro k hs ht
  simpa [hs, ht] using h k hs

@[simp] theorem reverseBits_getLsbD (b : Byte) (j : Nat) :
    (reverseBits b).getLsbD j = (decide (j < 8) && b.getLsbD (7 - j)) := by
  simp [reverseBits]

/-! ## Cutting and extending -/

@[simp] theorem length_fit (s : Bits) (n : Nat) : (fit s n).length = n := by
  simp [fit]; omega

/-- Element `i` of `fit(s, n)` (R13). -/
theorem fit_getD (s : Bits) (n i : Nat) :
    (fit s n).getD i false = (decide (i < n) && s.getD i false) := by
  by_cases hi : i < n
  · by_cases hs : i < s.length
    · have : i < (s.take n).length := by simp; omega
      simp [fit, List.getD_eq_getElem?_getD, List.getElem?_append, hi, hs]
    · have h1 : ¬ i < (s.take n).length := by simp; omega
      simp only [fit, List.getD_eq_getElem?_getD, List.getElem?_append, h1, if_false, List.getElem?_replicate]
      rw [List.getElem?_eq_none (l := s) (by omega)]
      split <;> simp
  · rw [List.getD_eq_default _ _ (by simpa using hi)]
    simp [hi]

@[simp] theorem length_bitEncode (B : Bytes) (n : Nat) : (bitEncode B n).length = n := by
  simp [bitEncode]

theorem reverse_getD (s : Bits) (i : Nat) :
    s.reverse.getD i false = (decide (i < s.length) && s.getD (s.length - 1 - i) false) := by
  by_cases h : i < s.length
  · rw [List.getD_eq_getElem?_getD, List.getElem?_reverse h, ← List.getD_eq_getElem?_getD]
    simp [h]
  · rw [List.getD_eq_default _ _ (by simpa using h)]
    simp [h]

/-- Element `i` of the encoded bits is bit `n−1−i` of the chunk (R106). -/
theorem bitEncode_getD (B : Bytes) (n i : Nat) :
    (bitEncode B n).getD i false = (decide (i < n) && leBit B (n - 1 - i)) := by
  rw [bitEncode, reverse_getD]
  by_cases h : i < n
  · have : n - 1 - i < n := by omega
    rw [length_fit, fit_getD, bitsLE_getD]
    simp only [h, this, decide_true, Bool.true_and]
  · simp [h]

/-! ## Little-endian numbers -/

theorem uLE_lt (B : Bytes) : uLE B < 2 ^ (8 * B.length) := by
  induction B with
  | nil => simp [uLE]
  | cons b B ih =>
    have := b.isLt
    have h : 2 ^ (8 * (b :: B).length) = 256 * 2 ^ (8 * B.length) := by
      rw [List.length_cons, Nat.mul_succ, Nat.pow_add]; omega
    rw [h, uLE]; omega

/-- Bit `i` of `uLE(B)` (R13). -/
theorem uLE_testBit (B : Bytes) (i : Nat) : (uLE B).testBit i = leBit B i := by
  induction B generalizing i with
  | nil => simp [uLE]
  | cons b B ih =>
    have hb := b.isLt
    rw [leBit_cons, uLE]
    have e : b.toNat + 256 * uLE B = 2 ^ 8 * uLE B + b.toNat := by omega
    rw [e, Nat.testBit_two_pow_mul_add _ hb, ih]
    by_cases h : i < 8 <;> simp [h, BitVec.testBit_toNat]

@[simp] theorem length_toBytesLE (x : Int) (n : Nat) : (toBytesLE x n).length = n := by
  simp [toBytesLE]

/-- Bit `i` of `toBytesLE(x, n)` (R13). -/
theorem toBytesLE_leBit (x : Int) (n i : Nat) :
    leBit (toBytesLE x n) i = (decide (i < 8 * n) && (x % ((2 ^ (8 * n) : Nat) : Int)).toNat.testBit i) := by
  by_cases h : i < 8 * n
  · have hk : i / 8 < n := by omega
    have e : 8 * (i / 8) + i % 8 = i := by omega
    have hj : i % 8 < 8 := by omega
    simp only [leBit, toBytesLE, List.getD_eq_getElem?_getD, List.getElem?_map, List.getElem?_range hk,
      Option.map_some, Option.getD_some, BitVec.getLsbD_ofNat, hj, decide_true, Bool.true_and, h,
      Nat.testBit_div_two_pow]
    rw [show i % 8 + 8 * (i / 8) = i by omega]
  · rw [leBit_of_ge (by simpa using h)]
    simp [h]

theorem toNat_emod_lt (x : Int) (n : Nat) : (x % ((2 ^ n : Nat) : Int)).toNat < 2 ^ n := by
  have hpos : (0 : Int) < ((2 ^ n : Nat) : Int) := by exact_mod_cast Nat.two_pow_pos n
  have h1 := Int.emod_nonneg x hpos.ne'
  have h2 := Int.emod_lt_of_pos x hpos
  omega

/-- `uLE` reads back what `toBytesLE` writes, modulo `2^(8n)` (R13). -/
theorem uLE_toBytesLE (x : Int) (n : Nat) :
    uLE (toBytesLE x n) = (x % ((2 ^ (8 * n) : Nat) : Int)).toNat := by
  apply Nat.eq_of_testBit_eq
  intro i
  rw [uLE_testBit, toBytesLE_leBit]
  by_cases h : i < 8 * n
  · simp [h]
  · rw [Nat.testBit_lt_two_pow (lt_of_lt_of_le (toNat_emod_lt x (8 * n))
      (Nat.pow_le_pow_right (by omega) (by omega)))]
    simp

theorem getLast_msb (B : Bytes) :
    (B.getLast?.map BitVec.msb).getD false = leBit B (8 * B.length - 1) := by
  rcases List.eq_nil_or_concat B with rfl | ⟨C, b, rfl⟩
  · simp
  · have h1 : (8 * (C ++ [b]).length - 1) / 8 = C.length := by simp; omega
    have h2 : (8 * (C ++ [b]).length - 1) % 8 = 7 := by simp; omega
    simp only [List.concat_eq_append, leBit, h1, h2]
    simp [BitVec.msb_eq_getLsbD_last]

/-- `sLE` is the number of `uLE`, less `2^(8·len)` in the upper half of its range (R13). -/
theorem sLE_eq (B : Bytes) :
    sLE B = if (uLE B).testBit (8 * B.length - 1) then (uLE B : Int) - ((2 ^ (8 * B.length) : Nat) : Int)
      else (uLE B : Int) := by
  rw [sLE, getLast_msb, uLE_testBit]

/-- `sLE` reads back what `toBytesLE` writes, for every value that `n` bytes hold with its sign. -/
theorem sLE_toBytesLE (x : Int) (n : Nat) (hn : 1 ≤ n) (hlo : -((2 ^ (8 * n - 1) : Nat) : Int) ≤ x)
    (hhi : x < ((2 ^ (8 * n - 1) : Nat) : Int)) : sLE (toBytesLE x n) = x := by
  have hp : (2 ^ (8 * n) : Nat) = 2 * 2 ^ (8 * n - 1) := by
    rw [← Nat.pow_succ']; congr 1; omega
  have hpos : 0 < 2 ^ (8 * n - 1) := Nat.two_pow_pos _
  have htb : ∀ u, u < 2 ^ (8 * n) → (u.testBit (8 * n - 1) = decide (2 ^ (8 * n - 1) ≤ u)) := by
    intro u hu
    by_cases h : 2 ^ (8 * n - 1) ≤ u
    · have hd : u / 2 ^ (8 * n - 1) = 1 := by
        apply Nat.div_eq_of_lt_le <;> omega
      simp [Nat.testBit_eq_decide_div_mod_eq, hd, h]
    · simp [Nat.testBit_lt_two_pow (Nat.lt_of_not_le h), h]
  rw [sLE_eq, uLE_toBytesLE, length_toBytesLE, htb _ (toNat_emod_lt x (8 * n))]
  generalize hP : (2 ^ (8 * n) : Nat) = P at *
  generalize hH : 2 ^ (8 * n - 1) = H at *
  by_cases hx : 0 ≤ x
  · have : x % (P : Int) = x := Int.emod_eq_of_lt hx (by omega)
    rw [this]
    have : ¬ H ≤ x.toNat := by omega
    simp [this]; omega
  · have : x % (P : Int) = x + P := by
      rw [← Int.add_emod_right]
      exact Int.emod_eq_of_lt (by omega) (by omega)
    rw [this]
    have : H ≤ (x + P).toNat := by omega
    simp [this]; omega

end Sys2Proof.Machine
end

