-- ==== Sys2Proof/Laws/Fields.lean ====
section
/-!
SUPPORT. The lengths and the bits of chunks, messages, windows and stores.
-/

namespace Sys2Proof.Machine

/-! ## Chunks and packing (R97, R99) -/

theorem bc_eq (n : Nat) : bc n = (n + 7) / 8 := rfl

theorem le_bc (n : Nat) : n ≤ 8 * bc n := by rw [bc_eq]; omega

@[simp] theorem length_partition (c : Nat) (s : Bits) :
    (partition c s).length = ceilDiv s.length c := by simp [partition]

theorem partition_getElem? (c : Nat) (s : Bits) (k : Nat) (h : k < ceilDiv s.length c) :
    (partition c s)[k]? = some ((s.drop (k * c)).take c) := by
  simp [partition, h]

@[simp] theorem length_pack (chunks : List Bits) (rv : Bool) : (pack chunks rv).length = chunks.length := by
  simp [pack]

/-- Where bit `i` of a packed byte comes from (R99, R103). -/
theorem packChunk_getLsbD (rv : Bool) (chunk : Bits) (i : Nat) :
    (packChunk rv chunk).getLsbD i =
      (decide (i < 8) && chunk.getD (if rv then 7 - i else i) false) := by
  rw [packChunk, byteOfBits_getLsbD]

/-- The element of a chunk, from its sequence. -/
theorem drop_take_getD (s : Bits) (d t j : Nat) :
    ((s.drop d).take t).getD j false = (decide (j < t) && s.getD (d + j) false) := by
  by_cases h : j < t
  · simp [List.getD_eq_getElem?_getD, h]
  · simp [List.getD_eq_getElem?_getD, h]

/-- Packing by eights, bit by bit: position `8k + i` of byte `k`. -/
theorem pack_getLsbD (s : Bits) (rv : Bool) (k i : Nat) (hi : i < 8) :
    ((pack (partition 8 s) rv).getD k 0).getLsbD i = s.getD (8 * k + if rv then 7 - i else i) false := by
  by_cases hk : k < ceilDiv s.length 8
  · have e : (pack (partition 8 s) rv).getD k 0 = packChunk rv ((s.drop (k * 8)).take 8) := by
      simp [pack, List.getD_eq_getElem?_getD, partition_getElem? 8 s k hk]
    rw [e, packChunk_getLsbD, drop_take_getD, Nat.mul_comm k 8]
    cases rv with
    | true => simp only [if_true, hi, decide_true, Bool.true_and]; rw [decide_eq_true (by omega)]; simp
    | false => simp [hi]
  · have e : (pack (partition 8 s) rv).getD k 0 = 0 :=
      List.getD_eq_default _ _ (by simpa using hk)
    have hs : s.length ≤ 8 * k := by unfold ceilDiv at hk; omega
    rw [e, List.getD_eq_default _ _ (by omega)]
    simp

@[simp] theorem length_bitsToBytes (s : Bits) : (bitsToBytes s).length = bc s.length := by
  simp [bitsToBytes, bc]

/-- A bit sequence in a payload: `s[i]` at bit `i mod 8` of byte `floor(i/8)`, unused bits 0 (R43). -/
theorem bitsToBytes_leBit (s : Bits) (i : Nat) : leBit (bitsToBytes s) i = s.getD i false := by
  rw [leBit, bitsToBytes, pack_getLsbD s false _ _ (by omega)]
  simp only [Bool.false_eq_true, if_false]
  rw [show 8 * (i / 8) + i % 8 = i by omega]

/-- A message: `s[i]` at wire position `i`, unused bits 0 (R38, R131). -/
theorem pack_wireBit (s : Bits) (i : Nat) : wireBit (pack (partition 8 s) true) i = s.getD i false := by
  rw [wireBit, pack_getLsbD s true _ _ (by omega)]
  simp only [if_true]
  rw [show 8 * (i / 8) + (7 - (7 - i % 8)) = i by omega]

theorem length_message (s : Bits) : (pack (partition 8 s) true).length = bc s.length := by
  simp [bc]

/-! ## The wire stream and the extractor (R135, R136) -/

@[simp] theorem length_wire (I : Bytes) : (wire I).length = 8 * I.length := by simp [wire]

theorem wireBit_of_ge {B : Bytes} {i : Nat} (h : 8 * B.length ≤ i) : wireBit B i = false := by
  rw [wireBit_eq_leBit]; exact leBit_of_ge (by omega)

/-- `wire(I)[p] = I[floor(p/8)][7 − (p mod 8)]` (R135). -/
theorem wire_getD (I : Bytes) (p : Nat) : (wire I).getD p false = wireBit I p := by
  rw [wire, bitsLE_getD, leBit, wireBit]
  by_cases h : p / 8 < I.length
  · have hp : p % 8 < 8 := by omega
    rw [List.getD_eq_getElem?_getD, List.getElem?_map, List.getElem?_eq_getElem h, Option.map_some,
      Option.getD_some, reverseBits_getLsbD]
    simp [h, hp]
  · simp [h]

@[simp] theorem length_decodeBits (I : Bytes) (start n : Nat) (h : start + n ≤ 8 * I.length) :
    (decodeBits I start n).length = bc n := by
  simp only [decodeBits, length_pack, length_partition, List.length_reverse, List.length_take,
    List.length_drop, length_wire, bc]
  rw [Nat.min_eq_left (by omega)]

/-- Bit `i` of the extracted bytes is the wire bit `n−1−i` places after the start (R136). -/
theorem decodeBits_leBit (I : Bytes) (start n i : Nat) (h : start + n ≤ 8 * I.length) :
    leBit (decodeBits I start n) i = (decide (i < n) && wireBit I (start + (n - 1 - i))) := by
  have hl : (((wire I).drop start).take n).length = n := by simp; omega
  have e : decodeBits I start n = bitsToBytes (((wire I).drop start).take n).reverse := rfl
  rw [e, bitsToBytes_leBit, reverse_getD, hl]
  by_cases hi : i < n
  · rw [drop_take_getD, wire_getD]
    simp only [hi, decide_true, Bool.true_and]
    rw [decide_eq_true (by omega)]; simp
  · simp [hi]

theorem windowAt_succ (B : Bytes) (start n : Nat) :
    windowAt B start (n + 1) = (wireBit B start).toNat * 2 ^ n + windowAt B (start + 1) n := by
  simp only [windowAt, List.range_succ_eq_map, List.map_cons, List.map_map, List.sum_cons]
  congr 1
  congr 1
  apply List.map_congr_left
  intro i hi
  simp only [Function.comp]
  rw [show start + 1 + i = start + i.succ by omega, show n + 1 - 1 - i.succ = n - 1 - i by omega]

theorem windowAt_lt (B : Bytes) (start n : Nat) : windowAt B start n < 2 ^ n := by
  induction n generalizing start with
  | zero => simp [windowAt]
  | succ n ih =>
    have h := ih (start + 1)
    rw [windowAt_succ, Nat.pow_succ]
    cases wireBit B start <;> simp <;> omega

/-- Bit `i` of a window read as a big-endian bit string (R136). -/
theorem windowAt_testBit (B : Bytes) (start n i : Nat) :
    (windowAt B start n).testBit i = (decide (i < n) && wireBit B (start + (n - 1 - i))) := by
  induction n generalizing start with
  | zero => simp [windowAt]
  | succ n ih =>
    have h := windowAt_lt B (start + 1) n
    rw [windowAt_succ, Nat.mul_comm, Nat.testBit_two_pow_mul_add _ h, ih]
    rcases Nat.lt_trichotomy i n with hi | hi | hi
    · simp only [hi, if_true, decide_true, Bool.true_and]
      rw [decide_eq_true (by omega), show start + 1 + (n - 1 - i) = start + (n + 1 - 1 - i) by omega]
      simp
    · subst hi
      cases hw : wireBit B start <;> simp [hw]
    · have : ¬ i < n := by omega
      have h2 : ¬ i < n + 1 := by omega
      have h3 : (wireBit B start).toNat < 2 ^ (i - n) :=
        lt_of_lt_of_le (Bool.toNat_lt _) (by
          calc 2 = 2 ^ 1 := rfl
            _ ≤ 2 ^ (i - n) := Nat.pow_le_pow_right (by omega) (by omega))
      simp [this, h2, Nat.testBit_lt_two_pow h3]

/-- The extracted bytes are the window (R136). -/
theorem uLE_decodeBits (I : Bytes) (start n : Nat) (h : start + n ≤ 8 * I.length) :
    uLE (decodeBits I start n) = windowAt I start n := by
  apply Nat.eq_of_testBit_eq
  intro i
  rw [uLE_testBit, decodeBits_leBit I start n i h, windowAt_testBit]

/-! ## Fields (R37, R106) -/

@[simp] theorem length_fieldBits (W n : Nat) : (fieldBits W n).length = n := by simp [fieldBits]

theorem fieldBits_getD (W n i : Nat) :
    (fieldBits W n).getD i false = (decide (i < n) && W.testBit (n - 1 - i)) := by
  by_cases h : i < n <;> simp [fieldBits, List.getD_eq_getElem?_getD, h]

/-- The encoded bits of a chunk are the field bits of its number (R106). -/
theorem bitEncode_eq (B : Bytes) (n : Nat) : bitEncode B n = fieldBits (uLE B) n := by
  apply eq_of_getD (by simp)
  intro i _
  rw [bitEncode_getD, fieldBits_getD, uLE_testBit]

/-- Only the low `n` bits of a window matter to its field (R106). -/
theorem fieldBits_mod (W n m : Nat) (h : n ≤ m) : fieldBits (W % 2 ^ m) n = fieldBits W n := by
  apply eq_of_getD (by simp)
  intro i hi
  rw [length_fieldBits] at hi
  rw [fieldBits_getD, fieldBits_getD, Nat.testBit_mod_two_pow, decide_eq_true (show n - 1 - i < m by omega)]
  simp

/-! ## Stores (R126, R127) -/

@[simp] theorem length_bbAppend (bb : Bits) (B : Bytes) (n : Nat) :
    (bbAppend bb B n).length = bb.length + n := by simp [bbAppend]

@[simp] theorem length_overlay (bb : Bits) (off : Nat) (E : Bits) :
    (overlay bb off E).length = max bb.length (off + E.length) := by simp [overlay]

theorem overlay_getD (bb : Bits) (off : Nat) (E : Bits) (i : Nat) :
    (overlay bb off E).getD i false =
      if off ≤ i ∧ i < off + E.length then E.getD (i - off) false else bb.getD i false := by
  by_cases h : i < max bb.length (off + E.length)
  · rw [overlay, List.getD_eq_getElem?_getD, List.getElem?_map, List.getElem?_range h]
    rfl
  · rw [List.getD_eq_default _ _ (by rw [length_overlay]; omega), if_neg (by omega),
      List.getD_eq_default _ _ (by omega)]

theorem length_zeroExtend (bb : Bits) (len : Nat) : (zeroExtend bb len).length = max bb.length len := by
  simp [zeroExtend]; omega

theorem zeroExtend_getD (bb : Bits) (len i : Nat) : (zeroExtend bb len).getD i false = bb.getD i false := by
  by_cases h : i < bb.length
  · rw [zeroExtend, List.getD_append _ _ _ _ h]
  · rw [zeroExtend, List.getD_append_right _ _ _ _ (by omega), List.getD_eq_default bb _ (by omega)]
    by_cases h2 : i - bb.length < len - bb.length <;> simp [List.getD_eq_getElem?_getD, h2]

theorem length_memWrite (bb : Bits) (off : Nat) (v : Bits) (h : off + v.length ≤ bb.length) :
    (memWrite bb off v).length = bb.length := by
  simp [memWrite]; omega

theorem memWrite_getD (bb : Bits) (off : Nat) (v : Bits) (h : off + v.length ≤ bb.length) (i : Nat) :
    (memWrite bb off v).getD i false =
      if off ≤ i ∧ i < off + v.length then v.getD (i - off) false else bb.getD i false := by
  have ht : (bb.take off).length = off := by simp; omega
  rcases Nat.lt_or_ge i off with h1 | h1
  · rw [memWrite, List.append_assoc, List.getD_append _ _ _ _ (by omega), if_neg (by omega)]
    simp [List.getD_eq_getElem?_getD, h1]
  · rw [memWrite, List.append_assoc, List.getD_append_right _ _ _ _ (by omega), ht]
    rcases Nat.lt_or_ge (i - off) v.length with h2 | h2
    · rw [List.getD_append _ _ _ _ h2, if_pos (by omega)]
    · rw [List.getD_append_right _ _ _ _ h2, if_neg (by omega)]
      simp only [List.getD_eq_getElem?_getD, List.getElem?_drop]
      rw [show off + v.length + (i - off - v.length) = i by omega]

/-- What a write does to the buffer, position by position (R127, R129). -/
theorem bbWrite_eq (bb : Bits) (B : Bytes) (off n : Nat) :
    bbWrite bb B off n = overlay bb off (bitEncode B n) := by
  have hz : off + (bitEncode B n).length ≤ (zeroExtend bb (off + n)).length := by
    rw [length_zeroExtend, length_bitEncode]; omega
  apply eq_of_getD
  · rw [bbWrite, length_memWrite _ _ _ hz, length_zeroExtend, length_overlay, length_bitEncode]
  · intro i _
    rw [bbWrite, memWrite_getD _ _ _ hz, overlay_getD, zeroExtend_getD]

@[simp] theorem length_bbWrite (bb : Bits) (B : Bytes) (off n : Nat) :
    (bbWrite bb B off n).length = max bb.length (off + n) := by
  rw [bbWrite_eq, length_overlay, length_bitEncode]

end Sys2Proof.Machine
end

