-- ==== Sys2Proof/Laws/Ops.lean ====
section
/-!
SUPPORT. What each shared operation over the state can do, said once: the state it answers with. The store operations
keep the buffer within its capacity.
-/

namespace Sys2Proof.Machine

/-- `respond` answers with the same buffer and port and one more response (R60). -/
theorem respond_eq (st : Status) (n : Nat) (q : Bytes) (s : State) :
    respond st n q s = .next (s.answered s.bb st n q) := rfl

/-- `respond` after a change of the buffer. -/
theorem respond_withBb (st : Status) (n : Nat) (q : Bytes) (s : State) (bb : Bits) :
    respond st n q { s with bb := bb } = .next (s.answered bb st n q) := rfl

/-- Failing leaves only a response (R160). -/
theorem raise_eq (st : Status) (s : State) : raise st s = .next (s.failed st) := rfl

/-- What an append can do (R126, R159). -/
theorem storeAppend_eq (chunk : Bytes) (n : Nat) (q : Bytes) (s : State) :
    storeAppend chunk n q s =
      if Config.admits Config.bbCap (s.bb.length + n) then
        .next (s.answered (s.bb ++ fieldBits (uLE chunk) n) .ok n q)
      else .next (s.failed .capacity) := by
  simp only [storeAppend, fitsBuffer_eq, bbAppend, bitEncode_eq, respond_withBb, raise_eq]

/-- What a write can do (R127, R159). -/
theorem storeWrite_eq (chunk : Bytes) (off n : Nat) (q : Bytes) (s : State) :
    storeWrite chunk off n q s =
      if Config.admits Config.bbCap (max s.bb.length (off + n)) then
        .next (s.answered (overlay s.bb off (fieldBits (uLE chunk) n)) .ok n q)
      else .next (s.failed .capacity) := by
  simp only [storeWrite, fitsBuffer_eq, bbWrite_eq, bitEncode_eq, respond_withBb, raise_eq]

/-- What the common tail of the encoders can do (R109). -/
theorem finish_eq (dst : Dst) (chunk : Bytes) (eff off : Nat) (s : State) :
    finish dst chunk eff off s =
      if dst = .reserved then .next (s.failed .illegalCommand)
      else if roomFor dst s.bb off eff then
        .next (s.answered (storedBuffer dst s.bb off (fieldBits (uLE chunk) eff)) .ok eff chunk)
      else .next (s.failed .capacity) := by
  cases dst with
  | none => rfl
  | append => rw [finish, storeAppend_eq]; rfl
  | write => rw [finish, storeWrite_eq]; rfl
  | reserved => rfl

/-- Every operation over the buffer keeps it within its capacity, where the room check lets it through (R130). -/
theorem bbAppend_bufferFits (s : State) (B : Bytes) (n : Nat) (h : fitsBuffer (s.bb.length + n) = true) :
    State.bufferFits { s with bb := bbAppend s.bb B n } = true := by
  rw [fitsBuffer_eq] at h
  simpa [State.bufferFits] using h

theorem bbWrite_bufferFits (s : State) (B : Bytes) (off n : Nat)
    (h : fitsBuffer (max s.bb.length (off + n)) = true) :
    State.bufferFits { s with bb := bbWrite s.bb B off n } = true := by
  rw [fitsBuffer_eq] at h
  simpa [State.bufferFits] using h

theorem clear_bufferFits (s : State) : State.bufferFits { s with bb := [] } = true :=
  admits_bbCap_of_le (by simp)

theorem reset_bufferFits : State.reset.bufferFits = true := admits_bbCap_of_le (by simp)

end Sys2Proof.Machine
end

