-- ==== Sys2Proof/Laws/Decode.lean ====
section
/-!
SUPPORT. The bytes of a header read back as its words, the fields of `packW0` read back as they were packed, and what
taking a packet off a byte stream can answer.
-/

namespace Sys2Proof

theorem wordOfBytes_bytesOfWord (w : Word) :
    wordOfBytes (w.extractLsb' 0 8) (w.extractLsb' 8 8) (w.extractLsb' 16 8) (w.extractLsb' 24 8) = w := by
  apply BitVec.eq_of_getLsbD_eq
  intro i hi
  simp only [wordOfBytes, BitVec.getLsbD_append, BitVec.getLsbD_extractLsb']
  by_cases h1 : i < 8
  · simp [h1]
  · by_cases h2 : i < 16
    · have e1 : i - 8 < 8 := by omega
      have e2 : 8 + (i - 8) = i := by omega
      simp [h1, e1, e2]
    · by_cases h3 : i < 24
      · have e0 : ¬ i - 8 < 8 := by omega
        have e1 : i - 8 - 8 < 8 := by omega
        have e2 : 16 + (i - 8 - 8) = i := by omega
        simp [h1, e0, e1, e2]
      · have e0 : ¬ i - 8 < 8 := by omega
        have e1 : ¬ i - 8 - 8 < 8 := by omega
        have e2 : i - 8 - 8 - 8 < 8 := by omega
        have e3 : 24 + (i - 8 - 8 - 8) = i := by omega
        simp [h1, e0, e1, e2, e3]

@[simp] theorem takeWord_bytesOfWord (w : Word) (rest : Bytes) :
    takeWord (bytesOfWord w ++ rest) = some (w, rest) := by
  simp [bytesOfWord, takeWord, wordOfBytes_bytesOfWord]

@[simp] theorem length_header_bytes (h : Header) : h.bytes.length = 20 := by
  simp [Header.bytes, bytesOfWord]

/-- The header bytes read back as the header (R55, R64 step 1). -/
@[simp] theorem takeHeader_bytes (h : Header) (rest : Bytes) :
    takeHeader (h.bytes ++ rest) = some (h, rest) := by
  simp [takeHeader, Header.bytes, List.append_assoc]

/-- A whole packet is taken off the front of a stream (R64, R67). -/
theorem takePacket_packet (h : Header) (p rest : Bytes) (hp : p.length = h.plen) :
    takePacket (h.bytes ++ p ++ rest) = some (h, p, rest) := by
  rw [takePacket, List.append_assoc, takeHeader_bytes]
  have : ¬ (p ++ rest).length < h.plen := by simp; omega
  simp [← hp]

theorem bytesOfWord_wordOfBytes (b0 b1 b2 b3 : Byte) :
    bytesOfWord (wordOfBytes b0 b1 b2 b3) = [b0, b1, b2, b3] := by
  have e (k : Nat) (b : Byte)
      (hk : ∀ j < 8, (wordOfBytes b0 b1 b2 b3).getLsbD (k + j) = b.getLsbD j) :
      (wordOfBytes b0 b1 b2 b3).extractLsb' k 8 = b := by
    apply BitVec.eq_of_getLsbD_eq
    intro j hj
    rw [BitVec.getLsbD_extractLsb', hk j hj]
    simp [hj]
  simp only [bytesOfWord]
  rw [e 0 b0, e 8 b1, e 16 b2, e 24 b3]
  all_goals
    intro j hj
    simp only [wordOfBytes, BitVec.getLsbD_append]
  · have h1 : ¬ 24 + j < 8 := by omega
    have h2 : ¬ 24 + j - 8 < 8 := by omega
    have h3 : ¬ 24 + j - 8 - 8 < 8 := by omega
    simp only [h1, h2, h3, if_false]
    congr 1; omega
  · have h1 : ¬ 16 + j < 8 := by omega
    have h2 : ¬ 16 + j - 8 < 8 := by omega
    have h3 : 16 + j - 8 - 8 < 8 := by omega
    simp only [h1, h2, h3, if_true, if_false]
    congr 1; omega
  · have h1 : ¬ 8 + j < 8 := by omega
    have h2 : 8 + j - 8 < 8 := by omega
    simp only [h1, h2, if_true, if_false]
    congr 1; omega
  · simp [hj]

theorem takeWord_some {bs : Bytes} {w : Word} {rest : Bytes} (h : takeWord bs = some (w, rest)) :
    bs = bytesOfWord w ++ rest := by
  unfold takeWord at h
  split at h
  · simp only [Option.some.injEq, Prod.mk.injEq] at h
    obtain ⟨rfl, rfl⟩ := h
    rw [bytesOfWord_wordOfBytes]; rfl
  · cases h

/-- What taking a header can answer: the bytes it came from (R55). -/
theorem takeHeader_some {bs : Bytes} {h : Header} {rest : Bytes} (hh : takeHeader bs = some (h, rest)) :
    bs = h.bytes ++ rest := by
  simp only [takeHeader, Option.bind_eq_bind, Option.bind_eq_some_iff, Option.pure_def,
    Option.some.injEq, Prod.mk.injEq] at hh
  obtain ⟨⟨w0, r0⟩, h0, ⟨w1, r1⟩, h1, ⟨w2, r2⟩, h2, ⟨w3, r3⟩, h3, ⟨w4, r4⟩, h4, rfl, rfl⟩ := hh
  have e1 := takeWord_some h1
  have e2 := takeWord_some h2
  have e3 := takeWord_some h3
  have e4 := takeWord_some h4
  simp only at e1 e2 e3 e4
  rw [takeWord_some h0, e1, e2, e3, e4]
  simp [Header.bytes]

/-- What taking a packet can answer: the stream is that packet and the rest (R64, R67). -/
theorem takePacket_some {bs : Bytes} {h : Header} {p rest : Bytes}
    (hh : takePacket bs = some (h, p, rest)) : bs = h.bytes ++ p ++ rest ∧ p.length = h.plen := by
  unfold takePacket at hh
  split at hh
  · cases hh
  · rename_i h' r hr
    split at hh
    · cases hh
    · rename_i hlen
      simp only [Option.some.injEq, Prod.mk.injEq] at hh
      obtain ⟨rfl, rfl, rfl⟩ := hh
      rw [takeHeader_some hr]
      simp only [List.append_assoc, List.take_append_drop, List.length_take, true_and]
      omega

/-- What decoding can answer: the packet, the command it selects, and the bytes after it. -/
theorem decode_ok {bs : Bytes} {i : Instr} {rest : Bytes} (h : decode bs = .ok (i, rest)) :
    ∃ hd p, bs = hd.bytes ++ p ++ rest ∧ p.length = hd.plen ∧ decodePacket hd p = .ok i := by
  unfold decode at h
  split at h
  · cases h
  · rename_i hd p r hp
    split at h
    · rename_i i' hi
      simp only [Except.ok.injEq, Prod.mk.injEq] at h
      obtain ⟨rfl, rfl⟩ := h
      exact ⟨hd, p, (takePacket_some hp).1, (takePacket_some hp).2, hi⟩
    · cases h

/-! ## The fields of `packW0` (R56) -/

section
variable (opc : Byte) (sg al rv : Bool) (dst : BitVec 2) (pad chunk : Byte) (w1 w2 w3 w4 : Word)

/-- Bit `i` of `W0`, field by field (R56). -/
theorem packW0_getLsbD (i : Nat) : (packW0 opc sg al rv dst pad chunk).getLsbD i =
    if i < 8 then opc.getLsbD i
    else if i = 8 then sg
    else if i = 9 then al
    else if i = 10 then rv
    else if i < 13 then dst.getLsbD (i - 11)
    else if i < 16 then false
    else if i < 24 then pad.getLsbD (i - 16)
    else chunk.getLsbD (i - 24) := by
  have hb (b : Bool) (j : Nat) (hj : j = 0) : (BitVec.ofBool b).getLsbD j = b := by
    subst hj; cases b <;> rfl
  simp only [packW0, BitVec.getLsbD_append]
  by_cases h1 : i < 8
  · simp [h1]
  by_cases h2 : i = 8
  · subst h2; simp
  by_cases h3 : i = 9
  · subst h3; simp
  by_cases h4 : i = 10
  · subst h4; simp
  have a1 : ¬ i - 8 < 1 := by omega
  have a2 : ¬ i - 8 - 1 < 1 := by omega
  have a3 : ¬ i - 8 - 1 - 1 < 1 := by omega
  by_cases h5 : i < 13
  · have b1 : i - 8 - 1 - 1 - 1 < 2 := by omega
    simp only [h1, h2, h3, h4, h5, a1, a2, a3, b1, if_true, if_false]
    congr 1
  have a4 : ¬ i - 8 - 1 - 1 - 1 < 2 := by omega
  by_cases h6 : i < 16
  · have b1 : i - 8 - 1 - 1 - 1 - 2 < 3 := by omega
    simp only [h1, h2, h3, h4, h5, h6, a1, a2, a3, a4, b1, if_true, if_false]
    simp
  have a5 : ¬ i - 8 - 1 - 1 - 1 - 2 < 3 := by omega
  by_cases h7 : i < 24
  · have b1 : i - 8 - 1 - 1 - 1 - 2 - 3 < 8 := by omega
    simp only [h1, h2, h3, h4, h5, h6, h7, a1, a2, a3, a4, a5, b1, if_true, if_false]
    congr 1
  · have b1 : ¬ i - 8 - 1 - 1 - 1 - 2 - 3 < 8 := by omega
    simp only [h1, h2, h3, h4, h5, h6, h7, a1, a2, a3, a4, a5, b1, if_false]
    congr 1

@[simp] theorem packW0_opc : (Header.mk (packW0 opc sg al rv dst pad chunk) w1 w2 w3 w4).opc = opc := by
  apply BitVec.eq_of_getLsbD_eq
  intro j hj
  simp [Header.opc, packW0_getLsbD, hj]

@[simp] theorem packW0_sg : (Header.mk (packW0 opc sg al rv dst pad chunk) w1 w2 w3 w4).sg = sg := by
  simp only [Header.sg, packW0_getLsbD]; rfl

@[simp] theorem packW0_al (a : Align) :
    (Header.mk (packW0 opc sg a.code rv dst pad chunk) w1 w2 w3 w4).al = a := by
  cases a <;> simp only [Header.al, packW0_getLsbD, Align.code] <;> rfl

@[simp] theorem packW0_rv : (Header.mk (packW0 opc sg al rv dst pad chunk) w1 w2 w3 w4).rv = rv := by
  simp only [Header.rv, packW0_getLsbD]; rfl

@[simp] theorem packW0_dst (d : Dst) :
    (Header.mk (packW0 opc sg al rv d.code pad chunk) w1 w2 w3 w4).dst = d := by
  cases d <;> simp only [Header.dst, packW0_getLsbD, Dst.code] <;> rfl

@[simp] theorem packW0_rsv : (Header.mk (packW0 opc sg al rv dst pad chunk) w1 w2 w3 w4).rsv = 0 := by
  apply BitVec.eq_of_getLsbD_eq
  intro j hj
  have h1 : ¬ 13 + j < 8 := by omega
  have h2 : ¬ 13 + j = 8 := by omega
  have h3 : ¬ 13 + j = 9 := by omega
  have h4 : ¬ 13 + j = 10 := by omega
  have h5 : ¬ 13 + j < 13 := by omega
  have h6 : 13 + j < 16 := by omega
  simp only [Header.rsv, BitVec.getLsbD_extractLsb', packW0_getLsbD, h1, h2, h3, h4, h5, h6, if_false, if_true]
  simp

@[simp] theorem packW0_pad : (Header.mk (packW0 opc sg al rv dst pad chunk) w1 w2 w3 w4).pad = pad := by
  apply BitVec.eq_of_getLsbD_eq
  intro j hj
  have h1 : ¬ 16 + j < 8 := by omega
  have h2 : ¬ 16 + j = 8 := by omega
  have h3 : ¬ 16 + j = 9 := by omega
  have h4 : ¬ 16 + j = 10 := by omega
  have h5 : ¬ 16 + j < 13 := by omega
  have h6 : ¬ 16 + j < 16 := by omega
  have h7 : 16 + j < 24 := by omega
  simp only [Header.pad, BitVec.getLsbD_extractLsb', packW0_getLsbD, h1, h2, h3, h4, h5, h6, h7, if_false, if_true]
  simp [hj]

@[simp] theorem packW0_chunk :
    (Header.mk (packW0 opc sg al rv dst pad chunk) w1 w2 w3 w4).chunk = chunk := by
  apply BitVec.eq_of_getLsbD_eq
  intro j hj
  have h1 : ¬ 24 + j < 8 := by omega
  have h2 : ¬ 24 + j = 8 := by omega
  have h3 : ¬ 24 + j = 9 := by omega
  have h4 : ¬ 24 + j = 10 := by omega
  have h5 : ¬ 24 + j < 13 := by omega
  have h6 : ¬ 24 + j < 16 := by omega
  have h7 : ¬ 24 + j < 24 := by omega
  simp only [Header.chunk, BitVec.getLsbD_extractLsb', packW0_getLsbD, h1, h2, h3, h4, h5, h6, h7, if_false]
  simp [hj]

end

end Sys2Proof
end

