-- ==== Sys2Proof/Laws/Port.lean ====
section
/-!
SUPPORT. What the port holds before a reset, what `fetch` can answer, and what a step does with each answer.
-/

namespace Sys2Proof.Machine

theorem bytesBeforeReset_bytes (bs : Bytes) (tail : List PortEvent) :
    bytesBeforeReset (bs.map .byte ++ tail) =
      (bs ++ (bytesBeforeReset tail).1, (bytesBeforeReset tail).2) := by
  induction bs with
  | nil => simp
  | cons b bs ih => simp [bytesBeforeReset, ih]

theorem bytesBeforeReset_noReset (bs : Bytes) :
    bytesBeforeReset (bs.map PortEvent.byte) = (bs, none) := by
  have h := bytesBeforeReset_bytes bs []
  simpa [bytesBeforeReset] using h

theorem bytesBeforeReset_reset (bs : Bytes) (busy : Bool) (rest : List PortEvent) :
    bytesBeforeReset (bs.map .byte ++ .reset busy :: rest) = (bs, some rest) := by
  simpa [bytesBeforeReset] using bytesBeforeReset_bytes bs (.reset busy :: rest)

theorem fetch_whole (h : Header) (p : Bytes) (tail : List PortEvent) (hp : p.length = h.plen) :
    fetch ((h.bytes ++ p).map .byte ++ tail) = fetchPacket h p tail := by
  rw [fetch, bytesBeforeReset_bytes, takePacket_packet h p _ hp]
  have hl : 20 + p.length = ((h.bytes ++ p).map PortEvent.byte).length := by simp
  simp only [hl, List.drop_left]

theorem fetchPacket_packet (h : Header) (p : Bytes) {tail : List PortEvent}
    (ht : tail.head? ≠ some (.reset true)) : fetchPacket h p tail = .packet h p tail := by
  unfold fetchPacket
  split
  · simp at ht
  · rfl

/-- A whole packet at the front of the port is fetched whole, whatever follows it, unless a reset abandons the command
(R64, R175). -/
theorem fetch_packet (h : Header) (p : Bytes) (tail : List PortEvent) (hp : p.length = h.plen)
    (ht : tail.head? ≠ some (.reset true)) : fetch ((h.bytes ++ p).map .byte ++ tail) = .packet h p tail := by
  rw [fetch_whole h p tail hp, fetchPacket_packet h p ht]

/-- A reset while the command of a whole packet is in progress abandons it (R175). -/
theorem fetch_abandoned (h : Header) (p : Bytes) (tail : List PortEvent) (hp : p.length = h.plen) :
    fetch ((h.bytes ++ p).map .byte ++ .reset true :: tail) = .reset tail :=
  fetch_whole h p _ hp

/-- Where no whole packet and no reset has arrived, the block waits (R170). -/
theorem fetch_waiting (bs : Bytes) (h : takePacket bs = none) :
    fetch (bs.map .byte) = .waiting := by
  rw [fetch, bytesBeforeReset_noReset, h]

/-- A reset that comes before the packet is whole abandons its bytes (R175). -/
theorem fetch_reset (bs : Bytes) (busy : Bool) (rest : List PortEvent) (h : takePacket bs = none) :
    fetch (bs.map .byte ++ .reset busy :: rest) = .reset rest := by
  rw [fetch, bytesBeforeReset_reset, h]

/-- What a step can do with a whole packet at the front of the port. -/
theorem step_packet (s : State) (h : Header) (p : Bytes) (tail : List PortEvent) (hp : p.length = h.plen)
    (ht : tail.head? ≠ some (.reset true)) (hs : s.port = (h.bytes ++ p).map .byte ++ tail) :
    step s = runPacket h p { s with port := tail } := by
  rw [step, hs, fetch_packet h p tail hp ht]

theorem runPacket_ok {h : Header} {p : Bytes} {i : Instr} (hi : decodePacket h p = .ok i) (s : State) :
    runPacket h p s = exec i s := by
  rw [runPacket, hi]

theorem runPacket_error {h : Header} {p : Bytes} {e : DecodeError} (he : decodePacket h p = .error e)
    (s : State) : runPacket h p s = .next (s.failed .illegalCommand) := by
  rw [runPacket, he]; rfl

end Sys2Proof.Machine
end

