-- ==== Sys2Proof/Laws/Meanings.lean ====
section
/-!
SUPPORT. What the operations that several commands share can answer: SignWindow inside the encoders and decoders, the
two encoder shapes and the two decoder shapes.
-/

namespace Sys2Proof.Machine

/-- `toWindow` fails only on a negative value under `S = 0` (R80, R156). -/
theorem toWindow_eq (v : Int) (n : Nat) (sg : Bool) :
    toWindow v n sg = if v < 0 ∧ sg = false then none else some (foldedValue v n) := by
  by_cases hv : v < 0 <;> cases sg <;> simp [toWindow, foldedValue, hv]

theorem chunkInt_eq (v : Int) (n : Nat) (sg : Bool) :
    chunkInt v n sg = if v < 0 ∧ sg = false then none else some (toBytesLE (foldedValue v n) (bc n)) := by
  rw [chunkInt, toWindow_eq]
  split <;> rfl

/-- Folding a value changes it by a multiple of `2^n` (R80, R85). -/
theorem foldedValue_emod (v : Int) (n : Nat) :
    foldedValue v n % ((2 ^ n : Nat) : Int) = v % ((2 ^ n : Nat) : Int) := by
  unfold foldedValue
  split
  · exact Int.add_emod_right _ _
  · rfl

/-- The bits that a number written as `bc(n)` little-endian bytes puts into an `n`-bit field (R106, R108). -/
theorem fieldBits_toBytesLE (x : Int) (n : Nat) :
    fieldBits (uLE (toBytesLE x (bc n))) n = fieldBits (x % ((2 ^ n : Nat) : Int)).toNat n := by
  have hn := le_bc n
  have hd : ((2 ^ n : Nat) : Int) ∣ ((2 ^ (8 * bc n) : Nat) : Int) := by
    exact_mod_cast Nat.pow_dvd_pow 2 hn
  have hp : (0 : Int) < ((2 ^ (8 * bc n) : Nat) : Int) := by exact_mod_cast Nat.two_pow_pos _
  have e : (x % ((2 ^ n : Nat) : Int)).toNat = (x % ((2 ^ (8 * bc n) : Nat) : Int)).toNat % 2 ^ n := by
    rw [← Int.emod_emod_of_dvd x hd]
    obtain ⟨a, ha⟩ := Int.eq_ofNat_of_zero_le (Int.emod_nonneg x hp.ne')
    rw [ha]
    norm_cast
  rw [uLE_toBytesLE, e, fieldBits_mod _ _ _ le_rfl]

/-- What the integer encoders can answer (R108, R121). -/
theorem encodeInteger_eq (lengthOk sg : Bool) (dst : Dst) (bits bitOff : Word) (p : Bytes) (s : State) :
    encodeInteger lengthOk sg dst bits bitOff p s =
      if Instr.encoderLegal dst bits p = true ∧ lengthOk = true then
        if sLE p < 0 ∧ sg = false then .next (s.failed .invalidArgument)
        else finish dst (toBytesLE (foldedValue (sLE p) bits.toNat) (bc bits.toNat)) bits.toNat bitOff.toNat s
      else .next (s.failed .illegalCommand) := by
  simp only [encodeInteger, encoderOk_eq, Bool.and_eq_true, chunkInt_eq, raise_eq]
  by_cases h : sLE p < 0 ∧ sg = false
  · rw [if_pos h, if_pos h]
  · rw [if_neg h, if_neg h]

/-- What the pattern encoders can answer (R115, R116, R121). -/
theorem encodePattern_eq (lengthOk : Bool) (dst : Dst) (bits bitOff : Word) (p : Bytes) (s : State) :
    encodePattern lengthOk dst bits bitOff p s =
      if Instr.encoderLegal dst bits p = true ∧ lengthOk = true then
        finish dst (toBytesLE (uLE p) (bc bits.toNat)) bits.toNat bitOff.toNat s
      else .next (s.failed .illegalCommand) := by
  simp only [encodePattern, encoderOk_eq, Bool.and_eq_true, raise_eq]

/-- What the decoders' common head can answer (R137, R149). -/
theorem window_eq (native : Option Nat) (bits bitOff byteOff : Word) (p : Bytes) :
    window native bits bitOff byteOff p =
      if Instr.fieldLegal bits p = true ∧ withinNative native bits.toNat = true then
        if windowStart bitOff byteOff + bits.toNat ≤ 8 * p.length then
          .ok (windowAt p (windowStart bitOff byteOff) bits.toNat)
        else .error .outOfBounds
      else .error .illegalCommand := by
  rw [window, extract_eq]
  split
  · split
    · rename_i h; simp only [Except.map, uLE_decodeBits _ _ _ h]
    · rfl
  · rfl

/-- Only bit `n−1` decides the sign of a window within `n` bits (R82). -/
theorem fromWindow_eq (W n : Nat) (sg : Bool) (h : W < 2 ^ n) : fromWindow W n sg = signedValue W n sg := by
  have e : W.testBit (n - 1) = decide (2 ^ (n - 1) ≤ W) := by
    by_cases h1 : 2 ^ (n - 1) ≤ W
    · rcases n with _ | n
      · have : W = 0 := by simpa using h
        subst this; simp at h1
      · have hd : W / 2 ^ n = 1 := by
          rw [Nat.pow_succ] at h
          simp only [Nat.add_sub_cancel] at h1
          apply Nat.div_eq_of_lt_le <;> omega
        simpa [Nat.testBit_eq_decide_div_mod_eq, hd] using h1
    · simp [Nat.testBit_lt_two_pow (Nat.lt_of_not_le h1), h1]
  cases sg <;> simp [fromWindow, signedValue, e]

/-- What the fixed-width integer decoders can answer (R138 to R141, R149). -/
theorem decodeInteger_eq (native : Nat) (sg : Bool) (bits bitOff byteOff : Word) (p : Bytes) (s : State) :
    decodeInteger native sg bits bitOff byteOff p s =
      if Instr.fieldLegal bits p = true ∧ bits.toNat ≤ 8 * native then
        if windowStart bitOff byteOff + bits.toNat ≤ 8 * p.length then
          .next (s.answered s.bb .ok bits.toNat
            (toBytesLE (signedValue (windowAt p (windowStart bitOff byteOff) bits.toNat) bits.toNat sg) native))
        else .next (s.failed .outOfBounds)
      else .next (s.failed .illegalCommand) := by
  rw [decodeInteger, window_eq]
  simp only [withinNative, Option.all_some, decide_eq_true_eq]
  by_cases h1 : Instr.fieldLegal bits p = true ∧ bits.toNat ≤ 8 * native
  · rw [if_pos h1, if_pos h1]
    by_cases h2 : windowStart bitOff byteOff + bits.toNat ≤ 8 * p.length
    · rw [if_pos h2, if_pos h2]
      simp only [respond_eq, fromWindow_eq _ _ _ (windowAt_lt _ _ _)]
    · rw [if_neg h2, if_neg h2]; rfl
  · rw [if_neg h1, if_neg h1]; rfl

/-- What the pattern decoders can answer (R143, R144, R149). -/
theorem decodePattern_eq (native : Nat) (bits bitOff byteOff : Word) (p : Bytes) (s : State) :
    decodePattern native bits bitOff byteOff p s =
      if Instr.fieldLegal bits p = true ∧ bits.toNat ≤ 8 * native then
        if windowStart bitOff byteOff + bits.toNat ≤ 8 * p.length then
          .next (s.answered s.bb .ok bits.toNat
            (toBytesLE (windowAt p (windowStart bitOff byteOff) bits.toNat : Nat) native))
        else .next (s.failed .outOfBounds)
      else .next (s.failed .illegalCommand) := by
  rw [decodePattern, window_eq]
  simp only [withinNative, Option.all_some, decide_eq_true_eq]
  by_cases h1 : Instr.fieldLegal bits p = true ∧ bits.toNat ≤ 8 * native
  · rw [if_pos h1, if_pos h1]
    by_cases h2 : windowStart bitOff byteOff + bits.toNat ≤ 8 * p.length
    · rw [if_pos h2, if_pos h2]; rfl
    · rw [if_neg h2, if_neg h2]; rfl
  · rw [if_neg h1, if_neg h1]; rfl

end Sys2Proof.Machine
end

