-- ==== Sys2Proof/Laws/PerInstr.lean ====
section
/-!
SUPPORT. A family of facts about every command as a term: the header an encoded command carries selects it by
`W0 AND 0x0000E0FF = OPC` (30_encoding.md R63), carries its payload length, and reads back the fields of its format.
-/

namespace Sys2Proof.Laws.Selects

/-- The header of an encoded command has `RSV = 0`, the command's opcode, and its payload length modulo 2^32; and the
opcode selects the command again. -/
def Statement (i : Instr) : Prop :=
  i.header.rsv = 0 ∧ i.header.opc = i.opcode ∧ i.header.w4 = BitVec.ofNat 32 i.payload.length ∧
    selectCommand i.header i.payload = .ok i

/-- The row that an opcode finds makes the command. -/
theorem selectCommand_of_lookup {h : Header} {p : Bytes} {opc : Byte} {make : Header → Bytes → Instr} {i : Instr}
    (ho : h.opc = opc) (hl : commandTable.lookup opc = some make) (hi : make h p = i) :
    selectCommand h p = .ok i := by
  rw [selectCommand, ho, hl]
  exact congrArg Except.ok hi

section
variable (opc : Byte) (sg rv : Bool) (al : Align) (dst : Dst) (pad chunk : Byte) (bits bitOff byteOff : Word)
variable (p : Bytes)

/-! The fields of each format's header (R56, R57, R62). -/

theorem headerBare_opc : (headerBare opc p).opc = opc := packW0_opc ..
theorem headerV_opc : (headerV opc sg bits p).opc = opc := packW0_opc ..
theorem headerV_sg : (headerV opc sg bits p).sg = sg := packW0_sg ..
theorem headerV_bits : (headerV opc sg bits p).bits = bits := rfl
theorem headerP_opc : (headerP opc rv chunk bits p).opc = opc := packW0_opc ..
theorem headerP_rv : (headerP opc rv chunk bits p).rv = rv := packW0_rv ..
theorem headerP_chunk : (headerP opc rv chunk bits p).chunk = chunk := packW0_chunk ..
theorem headerP_bits : (headerP opc rv chunk bits p).bits = bits := rfl
theorem headerW_opc : (headerW opc pad bits bitOff p).opc = opc := packW0_opc ..
theorem headerW_pad : (headerW opc pad bits bitOff p).pad = pad := packW0_pad ..
theorem headerW_bits : (headerW opc pad bits bitOff p).bits = bits := rfl
theorem headerW_bitOff : (headerW opc pad bits bitOff p).bitOff = bitOff := rfl
theorem headerE_opc : (headerE opc sg al dst pad bits bitOff p).opc = opc := packW0_opc ..
theorem headerE_sg : (headerE opc sg al dst pad bits bitOff p).sg = sg := packW0_sg ..
theorem headerE_al : (headerE opc sg al dst pad bits bitOff p).al = al := packW0_al ..
theorem headerE_dst : (headerE opc sg al dst pad bits bitOff p).dst = dst := packW0_dst ..
theorem headerE_pad : (headerE opc sg al dst pad bits bitOff p).pad = pad := packW0_pad ..
theorem headerE_bits : (headerE opc sg al dst pad bits bitOff p).bits = bits := rfl
theorem headerE_bitOff : (headerE opc sg al dst pad bits bitOff p).bitOff = bitOff := rfl
theorem headerD_opc : (headerD opc sg bits bitOff byteOff p).opc = opc := packW0_opc ..
theorem headerD_sg : (headerD opc sg bits bitOff byteOff p).sg = sg := packW0_sg ..
theorem headerD_bits : (headerD opc sg bits bitOff byteOff p).bits = bits := rfl
theorem headerD_bitOff : (headerD opc sg bits bitOff byteOff p).bitOff = bitOff := rfl
theorem headerD_byteOff : (headerD opc sg bits bitOff byteOff p).byteOff = byteOff := rfl

/-! One lemma per command. -/

theorem nop : Statement (.nop p) :=
  ⟨packW0_rsv .., headerBare_opc .., rfl,
    selectCommand_of_lookup (h := headerBare 0x00 p) (headerBare_opc ..) rfl
      rfl⟩

theorem swTowin : Statement (.swTowin sg bits p) :=
  ⟨packW0_rsv .., headerV_opc .., rfl,
    selectCommand_of_lookup (h := headerV 0x01 sg bits p) (headerV_opc ..) rfl
      (by rw [headerV_sg, headerV_bits]; rfl)⟩

theorem swFromwin : Statement (.swFromwin sg bits p) :=
  ⟨packW0_rsv .., headerV_opc .., rfl,
    selectCommand_of_lookup (h := headerV 0x02 sg bits p) (headerV_opc ..) rfl
      (by rw [headerV_sg, headerV_bits]; rfl)⟩

theorem brRbits : Statement (.brRbits p) :=
  ⟨packW0_rsv .., headerBare_opc .., rfl,
    selectCommand_of_lookup (h := headerBare 0x04 p) (headerBare_opc ..) rfl
      rfl⟩

theorem brRbytes : Statement (.brRbytes p) :=
  ⟨packW0_rsv .., headerBare_opc .., rfl,
    selectCommand_of_lookup (h := headerBare 0x05 p) (headerBare_opc ..) rfl
      rfl⟩

theorem ptPart : Statement (.ptPart chunk bits p) :=
  ⟨packW0_rsv .., headerP_opc .., rfl,
    selectCommand_of_lookup (h := headerP 0x08 false chunk bits p) (headerP_opc ..) rfl
      (by rw [headerP_chunk, headerP_bits]; rfl)⟩

theorem ptFlat : Statement (.ptFlat chunk bits p) :=
  ⟨packW0_rsv .., headerP_opc .., rfl,
    selectCommand_of_lookup (h := headerP 0x09 false chunk bits p) (headerP_opc ..) rfl
      (by rw [headerP_chunk, headerP_bits]; rfl)⟩

theorem ptPack : Statement (.ptPack rv chunk bits p) :=
  ⟨packW0_rsv .., headerP_opc .., rfl,
    selectCommand_of_lookup (h := headerP 0x0A rv chunk bits p) (headerP_opc ..) rfl
      (by rw [headerP_rv, headerP_chunk, headerP_bits]; rfl)⟩

theorem beEncode : Statement (.beEncode pad bits p) :=
  ⟨packW0_rsv .., headerW_opc .., rfl,
    selectCommand_of_lookup (h := headerW 0x0C pad bits 0 p) (headerW_opc ..) rfl
      (by rw [headerW_pad, headerW_bits]; rfl)⟩

theorem encByte : Statement (.encByte sg dst pad bits bitOff p) :=
  ⟨packW0_rsv .., headerE_opc .., rfl,
    selectCommand_of_lookup (h := headerE 0x10 sg .left dst pad bits bitOff p) (headerE_opc ..) rfl
      (by rw [headerE_sg, headerE_dst, headerE_pad, headerE_bits, headerE_bitOff]; rfl)⟩

theorem encShort : Statement (.encShort sg dst pad bits bitOff p) :=
  ⟨packW0_rsv .., headerE_opc .., rfl,
    selectCommand_of_lookup (h := headerE 0x11 sg .left dst pad bits bitOff p) (headerE_opc ..) rfl
      (by rw [headerE_sg, headerE_dst, headerE_pad, headerE_bits, headerE_bitOff]; rfl)⟩

theorem encInt : Statement (.encInt sg dst pad bits bitOff p) :=
  ⟨packW0_rsv .., headerE_opc .., rfl,
    selectCommand_of_lookup (h := headerE 0x12 sg .left dst pad bits bitOff p) (headerE_opc ..) rfl
      (by rw [headerE_sg, headerE_dst, headerE_pad, headerE_bits, headerE_bitOff]; rfl)⟩

theorem encLong : Statement (.encLong sg dst pad bits bitOff p) :=
  ⟨packW0_rsv .., headerE_opc .., rfl,
    selectCommand_of_lookup (h := headerE 0x13 sg .left dst pad bits bitOff p) (headerE_opc ..) rfl
      (by rw [headerE_sg, headerE_dst, headerE_pad, headerE_bits, headerE_bitOff]; rfl)⟩

theorem encBigint : Statement (.encBigint sg dst pad bits bitOff p) :=
  ⟨packW0_rsv .., headerE_opc .., rfl,
    selectCommand_of_lookup (h := headerE 0x14 sg .left dst pad bits bitOff p) (headerE_opc ..) rfl
      (by rw [headerE_sg, headerE_dst, headerE_pad, headerE_bits, headerE_bitOff]; rfl)⟩

theorem encFloat : Statement (.encFloat sg dst pad bits bitOff p) :=
  ⟨packW0_rsv .., headerE_opc .., rfl,
    selectCommand_of_lookup (h := headerE 0x15 sg .left dst pad bits bitOff p) (headerE_opc ..) rfl
      (by rw [headerE_sg, headerE_dst, headerE_pad, headerE_bits, headerE_bitOff]; rfl)⟩

theorem encDouble : Statement (.encDouble sg dst pad bits bitOff p) :=
  ⟨packW0_rsv .., headerE_opc .., rfl,
    selectCommand_of_lookup (h := headerE 0x16 sg .left dst pad bits bitOff p) (headerE_opc ..) rfl
      (by rw [headerE_sg, headerE_dst, headerE_pad, headerE_bits, headerE_bitOff]; rfl)⟩

theorem encBytes : Statement (.encBytes sg al dst pad bits bitOff p) :=
  ⟨packW0_rsv .., headerE_opc .., rfl,
    selectCommand_of_lookup (h := headerE 0x17 sg al dst pad bits bitOff p) (headerE_opc ..) rfl
      (by rw [headerE_sg, headerE_al, headerE_dst, headerE_pad, headerE_bits, headerE_bitOff]; rfl)⟩

theorem encBcd : Statement (.encBcd sg al dst pad bits bitOff p) :=
  ⟨packW0_rsv .., headerE_opc .., rfl,
    selectCommand_of_lookup (h := headerE 0x18 sg al dst pad bits bitOff p) (headerE_opc ..) rfl
      (by rw [headerE_sg, headerE_al, headerE_dst, headerE_pad, headerE_bits, headerE_bitOff]; rfl)⟩

theorem decByte : Statement (.decByte sg bits bitOff byteOff p) :=
  ⟨packW0_rsv .., headerD_opc .., rfl,
    selectCommand_of_lookup (h := headerD 0x20 sg bits bitOff byteOff p) (headerD_opc ..) rfl
      (by rw [headerD_sg, headerD_bits, headerD_bitOff, headerD_byteOff]; rfl)⟩

theorem decShort : Statement (.decShort sg bits bitOff byteOff p) :=
  ⟨packW0_rsv .., headerD_opc .., rfl,
    selectCommand_of_lookup (h := headerD 0x21 sg bits bitOff byteOff p) (headerD_opc ..) rfl
      (by rw [headerD_sg, headerD_bits, headerD_bitOff, headerD_byteOff]; rfl)⟩

theorem decInt : Statement (.decInt sg bits bitOff byteOff p) :=
  ⟨packW0_rsv .., headerD_opc .., rfl,
    selectCommand_of_lookup (h := headerD 0x22 sg bits bitOff byteOff p) (headerD_opc ..) rfl
      (by rw [headerD_sg, headerD_bits, headerD_bitOff, headerD_byteOff]; rfl)⟩

theorem decLong : Statement (.decLong sg bits bitOff byteOff p) :=
  ⟨packW0_rsv .., headerD_opc .., rfl,
    selectCommand_of_lookup (h := headerD 0x23 sg bits bitOff byteOff p) (headerD_opc ..) rfl
      (by rw [headerD_sg, headerD_bits, headerD_bitOff, headerD_byteOff]; rfl)⟩

theorem decBigint : Statement (.decBigint sg bits bitOff byteOff p) :=
  ⟨packW0_rsv .., headerD_opc .., rfl,
    selectCommand_of_lookup (h := headerD 0x24 sg bits bitOff byteOff p) (headerD_opc ..) rfl
      (by rw [headerD_sg, headerD_bits, headerD_bitOff, headerD_byteOff]; rfl)⟩

theorem decFloat : Statement (.decFloat sg bits bitOff byteOff p) :=
  ⟨packW0_rsv .., headerD_opc .., rfl,
    selectCommand_of_lookup (h := headerD 0x25 sg bits bitOff byteOff p) (headerD_opc ..) rfl
      (by rw [headerD_sg, headerD_bits, headerD_bitOff, headerD_byteOff]; rfl)⟩

theorem decDouble : Statement (.decDouble sg bits bitOff byteOff p) :=
  ⟨packW0_rsv .., headerD_opc .., rfl,
    selectCommand_of_lookup (h := headerD 0x26 sg bits bitOff byteOff p) (headerD_opc ..) rfl
      (by rw [headerD_sg, headerD_bits, headerD_bitOff, headerD_byteOff]; rfl)⟩

theorem decBytes : Statement (.decBytes sg bits bitOff byteOff p) :=
  ⟨packW0_rsv .., headerD_opc .., rfl,
    selectCommand_of_lookup (h := headerD 0x27 sg bits bitOff byteOff p) (headerD_opc ..) rfl
      (by rw [headerD_sg, headerD_bits, headerD_bitOff, headerD_byteOff]; rfl)⟩

theorem decBcd : Statement (.decBcd sg bits bitOff byteOff p) :=
  ⟨packW0_rsv .., headerD_opc .., rfl,
    selectCommand_of_lookup (h := headerD 0x28 sg bits bitOff byteOff p) (headerD_opc ..) rfl
      (by rw [headerD_sg, headerD_bits, headerD_bitOff, headerD_byteOff]; rfl)⟩

theorem decBits : Statement (.decBits sg bits bitOff byteOff p) :=
  ⟨packW0_rsv .., headerD_opc .., rfl,
    selectCommand_of_lookup (h := headerD 0x2F sg bits bitOff byteOff p) (headerD_opc ..) rfl
      (by rw [headerD_sg, headerD_bits, headerD_bitOff, headerD_byteOff]; rfl)⟩

theorem bbAppend : Statement (.bbAppend pad bits p) :=
  ⟨packW0_rsv .., headerW_opc .., rfl,
    selectCommand_of_lookup (h := headerW 0x30 pad bits 0 p) (headerW_opc ..) rfl
      (by rw [headerW_pad, headerW_bits]; rfl)⟩

theorem bbWrite : Statement (.bbWrite pad bits bitOff p) :=
  ⟨packW0_rsv .., headerW_opc .., rfl,
    selectCommand_of_lookup (h := headerW 0x31 pad bits bitOff p) (headerW_opc ..) rfl
      (by rw [headerW_pad, headerW_bits, headerW_bitOff]; rfl)⟩

theorem bbTobytes : Statement (.bbTobytes p) :=
  ⟨packW0_rsv .., headerBare_opc .., rfl,
    selectCommand_of_lookup (h := headerBare 0x32 p) (headerBare_opc ..) rfl
      rfl⟩

theorem bbClear : Statement (.bbClear p) :=
  ⟨packW0_rsv .., headerBare_opc .., rfl,
    selectCommand_of_lookup (h := headerBare 0x33 p) (headerBare_opc ..) rfl
      rfl⟩

end

end Sys2Proof.Laws.Selects
end

