-- ==== Sys2Proof/Tests/Slice0.lean ====
section
/-!
SUPPORT. Tests. Every expected result of a meaning is a vector of 95_test_vectors.md; every packet word is written out from
30_encoding.md R55 to R57 and R63. The last part shows, for each statement with hypotheses, a state and operands that meet
them together.
-/

namespace Sys2Proof.Tests

open Sys2Proof.Machine

/-- A state with the given buffer, first bit first. -/
def bufferOf (bits : List Nat) : State := { bb := bits.map (decide <| · = 1), port := [], responses := [] }

/-- The response of a command: status, `RBITS`, payload. -/
def answer (i : Instr) (s : State) : Option (Status × Nat × Bytes) :=
  match exec i s with
  | .next t => t.responses.getLast?.map fun r => (r.status, r.rbits, r.payload)
  | .fault _ | .refused _ => none

/-- The buffer after a command. -/
def bufferAfter (i : Instr) (s : State) : Option Bits :=
  match exec i s with
  | .next t => some t.bb
  | .fault _ | .refused _ => none

/-! ## Well-formedness: an ill-formed term for each check -/

theorem test_wellFormed_refuses_payload_of_2_32_bytes :
    (Instr.brRbytes (List.replicate (2 ^ 32) 0)).wellFormed = false := by
  show decide ((List.replicate (2 ^ 32) (0 : Byte)).length < 2 ^ 32) = false
  rw [List.length_replicate]
  rfl

theorem test_legal_refuses_payload_over_maxIn {m : Nat} (h : Config.maxIn = some m) :
    (Instr.brRbytes (List.replicate (m + 1) 0)).legal = false := by
  show Config.admits Config.maxIn (List.replicate (m + 1) (0 : Byte)).length = false
  rw [h, List.length_replicate, admits_some, decide_eq_false_iff_not]
  omega

theorem test_legal_refuses_bits_zero : (Instr.beEncode 0 0 [9]).legal = false := by
  show (Instr.payloadLegal _ && false && _) = false
  rw [Bool.and_false, Bool.false_and]

theorem test_legal_refuses_bits_over_maxBits {m : Nat} (h : Config.maxBits = some m) (hm : m + 1 < 2 ^ 32) :
    (Instr.decBits false (BitVec.ofNat 32 (m + 1)) 0 0 []).legal = false := by
  show (_ && Config.admits Config.maxBits (BitVec.ofNat 32 (m + 1)).toNat) = false
  rw [h, BitVec.toNat_ofNat, Nat.mod_eq_of_lt hm, admits_some,
    decide_eq_false (show ¬ m + 1 ≤ m by omega), Bool.and_false]

theorem test_legal_refuses_sequence_over_8_maxIn {m : Nat} (h : Config.maxIn = some m) (hm : 8 * m + 1 < 2 ^ 32) :
    Instr.sequenceLegal 1 (BitVec.ofNat 32 (8 * m + 1)) [] = false := by
  show (_ && Config.admits (Config.maxIn.map (8 * ·)) (BitVec.ofNat 32 (8 * m + 1)).toNat) = false
  rw [h, BitVec.toNat_ofNat, Nat.mod_eq_of_lt hm, Option.map_some, admits_some,
    decide_eq_false (show ¬ 8 * m + 1 ≤ 8 * m by omega), Bool.and_false]

theorem test_legal_refuses_dst_reserved : Instr.encoderLegal .reserved 4 [7, 0, 0, 0] = false := Bool.and_false _

theorem test_legal_refuses_chunk_zero : Instr.sequenceLegal 0 8 [0xED] = false := by
  show (Instr.payloadLegal _ && false && _) = false
  rw [Bool.and_false, Bool.false_and]

theorem test_legal_refuses_chunk_of_9_in_pack : (Instr.ptPack false 9 9 [0xFF, 1]).legal = false := by
  show (_ && false && _) = false
  rw [Bool.and_false, Bool.false_and]

theorem test_legal_refuses_payload_length :
    (Instr.nop [0]).legal = false ∧ (Instr.bbTobytes [0]).legal = false ∧ (Instr.bbClear [0]).legal = false ∧
    (Instr.swTowin true 4 []).legal = false ∧ (Instr.swFromwin true 4 []).legal = false ∧
    (Instr.brRbits []).legal = false ∧ (Instr.brRbits [1, 2]).legal = false ∧
    (Instr.ptPart 3 8 [0xED, 0]).legal = false ∧ (Instr.ptFlat 3 8 [5, 5]).legal = false ∧
    (Instr.ptPack false 3 8 [5, 5]).legal = false :=
  ⟨rfl, rfl, rfl, Bool.and_false _, Bool.and_false _, rfl, rfl, Bool.and_false _, Bool.and_false _, Bool.and_false _⟩

theorem test_legal_refuses_value_length :
    (Instr.encByte false .none 0 8 0 [1, 0]).legal = false ∧ (Instr.encShort false .none 0 8 0 [1]).legal = false ∧
    (Instr.encInt false .none 0 4 0 [7, 0]).legal = false ∧ (Instr.encLong false .none 0 4 0 [7]).legal = false ∧
    (Instr.encBigint false .none 0 4 0 []).legal = false ∧ (Instr.encFloat false .none 0 32 0 [0]).legal = false ∧
    (Instr.encDouble false .none 0 64 0 [0]).legal = false ∧
    (Instr.encBcd false .left .none 0 3 0 [0x31]).legal = false :=
  ⟨Bool.and_false _, Bool.and_false _, Bool.and_false _, Bool.and_false _, Bool.and_false _, Bool.and_false _,
    Bool.and_false _, Bool.and_false _⟩

theorem test_legal_refuses_native_width :
    (Instr.decByte false 9 0 0 [0xF0, 0]).legal = false ∧ (Instr.decShort false 17 0 0 [0, 0, 0]).legal = false ∧
    (Instr.decInt false 33 0 0 []).legal = false ∧ (Instr.decLong false 65 0 0 []).legal = false ∧
    (Instr.decFloat false 33 0 0 [0x3F, 0x80, 0, 0, 0]).legal = false ∧
    (Instr.decDouble false 65 0 0 []).legal = false :=
  ⟨Bool.and_false _, Bool.and_false _, Bool.and_false _, Bool.and_false _, Bool.and_false _, Bool.and_false _⟩

/-! ## Decoding, from words written out -/

/-- Formats N, B, V, P, C and W: `W0` holds `OPC` in 7:0, `S` in 8, `RV` in 10, `PAD` in 23:16, `CHUNK` in 31:24. -/
theorem test_decode_plain :
    decodeTableWord 32 0x00000000 = some (.nop []) ∧ decodeTableWord 32 0x00000101 = some (.swTowin true 0 []) ∧
    decodeTableWord 32 0x00000102 = some (.swFromwin true 0 []) ∧ decodeTableWord 32 0x00000004 = some (.brRbits []) ∧
    decodeTableWord 32 0x00000005 = some (.brRbytes []) ∧ decodeTableWord 32 0x0C000008 = some (.ptPart 12 0 []) ∧
    decodeTableWord 32 0xFF000009 = some (.ptFlat 255 0 []) ∧ decodeTableWord 32 0x0300040A = some (.ptPack true 3 0 []) ∧
    decodeTableWord 32 0x0081000C = some (.beEncode 0x81 0 []) ∧ decodeTableWord 32 0x00180030 = some (.bbAppend 0x18 0 []) ∧
    decodeTableWord 32 0x00420031 = some (.bbWrite 0x42 0 0 []) ∧ decodeTableWord 32 0x00000032 = some (.bbTobytes []) ∧
    decodeTableWord 32 0x00000033 = some (.bbClear []) := by decide

/-- Format E: also `A` in 9 and `DST` in 12:11. -/
theorem test_decode_encoders :
    decodeTableWord 32 0x00FF0910 = some (.encByte true .append 0xFF 0 0 []) ∧
    decodeTableWord 32 0x00011011 = some (.encShort false .write 1 0 0 []) ∧
    decodeTableWord 32 0x00000912 = some (.encInt true .append 0 0 0 []) ∧
    decodeTableWord 32 0x00001913 = some (.encLong true .reserved 0 0 0 []) ∧
    decodeTableWord 32 0x00800014 = some (.encBigint false .none 0x80 0 0 []) ∧
    decodeTableWord 32 0x00000815 = some (.encFloat false .append 0 0 0 []) ∧
    decodeTableWord 32 0x00001116 = some (.encDouble true .write 0 0 0 []) ∧
    decodeTableWord 32 0x00EE0A17 = some (.encBytes false .right .append 0xEE 0 0 []) ∧
    decodeTableWord 32 0x000F0118 = some (.encBcd true .left .none 0x0F 0 0 []) := by decide

/-- Format D, and `W1` to `W3`: `BITSIZE` in bits 63:32 of the table's numbering, `BITOFF` in 95:64, `BYTEOFF` in 127:96. -/
theorem test_decode_decoders :
    decodeTableWord 128 0x00000001000000020000000300000120 = some (.decByte true 3 2 1 []) ∧
    decodeTableWord 128 0x00000004000000050000000600000021 = some (.decShort false 6 5 4 []) ∧
    decodeTableWord 128 0x00000000000000050000000B00000122 = some (.decInt true 11 5 0 []) ∧
    decodeTableWord 128 0x00000007000000030000002500000123 = some (.decLong true 37 3 7 []) ∧
    decodeTableWord 32 0x00000124 = some (.decBigint true 0 0 0 []) ∧ decodeTableWord 32 0x00000025 = some (.decFloat false 0 0 0 []) ∧
    decodeTableWord 32 0x00000026 = some (.decDouble false 0 0 0 []) ∧ decodeTableWord 32 0x00000127 = some (.decBytes true 0 0 0 []) ∧
    decodeTableWord 32 0x00000128 = some (.decBcd true 0 0 0 []) ∧ decodeTableWord 32 0x0000002F = some (.decBits false 0 0 0 []) := by
  decide

/-- A payload: `PLEN` in bits 159:128, then the payload (the packet of R70). -/
theorem test_decode_payload :
    decodeTableWord 192 0xFFFFFFFD0000000400000000000000000000000500000912 =
      some (.encInt true .append 0 5 0 [0xFD, 0xFF, 0xFF, 0xFF]) := by decide

/-- Reserved encodings are rejected by name, and so is a packet that is not whole (R66). -/
theorem test_decode_rejects :
    decodePacket ⟨0x00002012, 0, 0, 0, 0⟩ [] = .error .reservedBits ∧
    decodePacket ⟨0x00000003, 0, 0, 0, 0⟩ [] = .error (.reservedOpcode 0x03) ∧
    decodePacket ⟨0x000000FF, 0, 0, 0, 0⟩ [] = .error (.reservedOpcode 0xFF) ∧
    decode (List.replicate 19 0) = .error .incomplete := by decide

/-- The encoder writes the packet of R70. -/
theorem test_encode_packet : encode (.encInt true .append 0 5 0 [0xFD, 0xFF, 0xFF, 0xFF]) =
    [0x12, 0x09, 0, 0, 5, 0, 0, 0, 0, 0, 0, 0, 0, 0, 0, 0, 4, 0, 0, 0, 0xFD, 0xFF, 0xFF, 0xFF] := by decide

/-- The table's numbering places a packet where the next step fetches it. -/
theorem test_withFetchWord_runs : step (State.reset.withFetchWord 32 0x00000033) = .next (State.reset.answered [] .ok 0 []) := rfl

/-! ## The meanings -/

theorem test_nop : answer (.nop []) (bufferOf [1, 0]) = some (.ok, 0, []) ∧ bufferAfter (.nop []) (bufferOf [1, 0]) = some [true, false] := by
  decide
theorem test_nop_payload : answer (.nop [0]) State.reset = some (.illegalCommand, 0, []) := by decide

/-- 2.1. -/
theorem test_swTowin : answer (.swTowin true 4 [0x38, 0xFF]) State.reset = some (.ok, 4, [0x48, 0xFF, 0xFF]) := by decide
theorem test_swTowin_negative : answer (.swTowin false 4 [0xFF]) State.reset = some (.invalidArgument, 0, []) := by decide
theorem test_swFromwin : answer (.swFromwin true 12 [0, 8]) State.reset = some (.ok, 12, [0, 0xF8, 0xFF]) := by decide
theorem test_swFromwin_unmasked : answer (.swFromwin true 4 [0x1F]) State.reset = some (.ok, 4, [0x0F, 0]) := by decide

/-- 2.2. -/
theorem test_brRbits : answer (.brRbits [0xEC]) State.reset = some (.ok, 8, [0x37]) := by decide
theorem test_brRbytes : answer (.brRbytes [0xAB, 0xCD, 0xEF]) State.reset = some (.ok, 24, [0xEF, 0xCD, 0xAB]) := by decide

/-- 2.3. -/
theorem test_ptPart : answer (.ptPart 12 20 [0x37, 0x4B, 9]) State.reset = some (.ok, 20, [0x37, 0x0B, 0x94, 0]) := by decide
theorem test_ptFlat : answer (.ptFlat 3 8 [5, 5, 3]) State.reset = some (.ok, 8, [0xED]) := by decide
theorem test_ptPack : answer (.ptPack true 8 20 [0x37, 0x4B, 9]) State.reset = some (.ok, 20, [0xEC, 0xD2, 0x90]) := by decide
theorem test_ptPack_filler : answer (.ptPack false 8 20 [0x37, 0x4B, 0xF9]) State.reset = some (.ok, 20, [0x37, 0x4B, 9]) := by decide

/-- 2.4. -/
theorem test_beEncode : answer (.beEncode 0 11 [0xD2, 4]) State.reset = some (.ok, 11, [0x59, 2]) := by decide
theorem test_beEncode_extends : answer (.beEncode 0xFF 12 [1]) State.reset = some (.ok, 12, [0, 8]) := by decide

/-- 2.5. -/
theorem test_encByte : answer (.encByte true .none 0 20 0 [0xFF]) State.reset = some (.ok, 20, [0xFF, 0xFF, 0x0F]) := by decide
theorem test_encByte_negative : answer (.encByte false .append 0 8 0 [0xFF]) State.reset = some (.invalidArgument, 0, []) := by decide
theorem test_encShort : answer (.encShort true .none 0 12 0 [0xFE, 0xFF]) State.reset = some (.ok, 12, [0xFE, 0x0F]) := by decide
theorem test_encInt : bufferAfter (.encInt true .append 0 4 0 [0x38, 0xFF, 0xFF, 0xFF]) State.reset = some [true, false, false, false] := by
  decide
theorem test_encInt_write :
    bufferAfter (.encInt false .write 0 11 5 [0xD2, 4, 0, 0]) (bufferOf [0,0,0,0,0,0,0,0,0,0,0,0,0,0,0,0,1,0,0,1]) =
      some (bufferOf [0,0,0,0,0,1,0,0,1,1,0,1,0,0,1,0,1,0,0,1]).bb := by decide
theorem test_encLong : answer (.encLong true .none 0 37 0 [0xFF, 0xFF, 0xFF, 0xFF, 0xFF, 0xFF, 0xFF, 0xFF]) State.reset =
    some (.ok, 37, [0xFF, 0xFF, 0xFF, 0xFF, 0x1F]) := by decide
theorem test_encBigint : answer (.encBigint true .none 0 8 0 [0xFF, 0xFF, 0xFF]) State.reset = some (.ok, 8, [0xFF]) := by decide
theorem test_encFloat : answer (.encFloat true .none 0 40 0 [0, 0, 0x80, 0x3F]) State.reset = some (.ok, 40, [0, 0, 0x80, 0x3F, 0]) := by decide
theorem test_encDouble : answer (.encDouble true .none 0 64 0 [0, 0, 0, 0, 0, 0, 0, 0x80]) State.reset =
    some (.ok, 64, [0, 0, 0, 0, 0, 0, 0, 0x80]) := by decide
theorem test_encBytes_right : answer (.encBytes false .right .none 0x11 20 0 [0xAB]) State.reset = some (.ok, 20, [0xAB, 0x11, 0x11]) := by
  decide
theorem test_encBytes_long : bufferAfter (.encBytes false .left .append 0 12 0 [0xAB, 0xCD]) State.reset =
    some (bufferOf [1,0,1,1,1,1,0,0,1,1,0,1]).bb := by decide
theorem test_encBcd_right : answer (.encBcd false .right .none 0xAB 16 0 [0x31, 0x32, 0x33]) State.reset = some (.ok, 16, [0x23, 0xB1]) := by
  decide
theorem test_encBcd_signed : answer (.encBcd true .left .none 0 4 0 [0x2F]) State.reset = some (.ok, 4, [0x0F]) := by decide

/-- 2.6 and R133. -/
theorem test_bbAppend : bufferAfter (.bbAppend 0 3 [0xFF, 0xFF]) (bufferOf [0, 1]) = some (bufferOf [0, 1, 1, 1, 1]).bb := by decide
theorem test_bbWrite_gap : bufferAfter (.bbWrite 0 4 10 [9]) State.reset = some (bufferOf [0,0,0,0,0,0,0,0,0,0,1,0,0,1]).bb := by decide
theorem test_bbWrite_inside : bufferAfter (.bbWrite 0 3 2 [5]) (bufferOf [0,0,0,0,0,0,0,0,0,0,1,0,0,1]) =
    some (bufferOf [0,0,1,0,1,0,0,0,0,0,1,0,0,1]).bb := by decide
theorem test_bbTobytes : answer (.bbTobytes []) (bufferOf [1,1,1,0,1]) = some (.ok, 5, [0xE8]) := by decide
theorem test_bbClear : bufferAfter (.bbClear []) (bufferOf [1,1,1]) = some [] ∧ bufferAfter (.bbClear [0]) (bufferOf [1]) = some [true] := by
  decide

/-- 2.7. -/
theorem test_decByte : answer (.decByte true 4 0 0 [0xF0]) State.reset = some (.ok, 4, [0xFF]) := by decide
theorem test_decShort : answer (.decShort true 12 0 0 [0xFF, 0xE0]) State.reset = some (.ok, 12, [0xFE, 0xFF]) := by decide
theorem test_decInt : answer (.decInt true 11 5 0 [0xEC, 0xD2, 0x90]) State.reset = some (.ok, 11, [0xD2, 0xFC, 0xFF, 0xFF]) := by decide
theorem test_decInt_wide : answer (.decInt false 33 0 0 [0xEC, 0xD2, 0x90, 0, 0]) State.reset = some (.illegalCommand, 0, []) := by decide
theorem test_decLong : answer (.decLong false 37 0 0 [0xFF, 0xFF, 0xFF, 0xFF, 0xF8]) State.reset =
    some (.ok, 37, [0xFF, 0xFF, 0xFF, 0xFF, 0x1F, 0, 0, 0]) := by decide
theorem test_decBigint : answer (.decBigint false 8 0 0 [0xFF]) State.reset = some (.ok, 8, [0xFF, 0]) := by decide
theorem test_decFloat : answer (.decFloat true 32 3 0 [0x07, 0xF0, 0, 0, 0]) State.reset = some (.ok, 32, [0, 0, 0x80, 0x3F]) := by decide
theorem test_decDouble : answer (.decDouble false 64 0 0 [0x40, 0x09, 0x21, 0xFB, 0x54, 0x44, 0x2D, 0x18]) State.reset =
    some (.ok, 64, [0x18, 0x2D, 0x44, 0x54, 0xFB, 0x21, 0x09, 0x40]) := by decide
theorem test_decBytes : answer (.decBytes false 12 0 0 [0xBC, 0xD0]) State.reset = some (.ok, 12, [0x0B, 0xCD]) := by decide
theorem test_decBits : answer (.decBits false 7 1 1 [0xEC, 0xD2, 0x90]) State.reset = some (.ok, 7, [0x52]) := by decide
theorem test_decBits_outside : answer (.decBits false 5 20 0 [0xEC, 0xD2, 0x90]) State.reset = some (.outOfBounds, 0, []) := by decide
theorem test_decBcd_truncated : answer (.decBcd false 16 2 0 [0x12, 0x3F]) State.reset = some (.truncated, 12, [0x34, 0x38, 0x3F]) := by
  decide
theorem test_decBcd_signed : answer (.decBcd true 8 0 0 [0x98]) State.reset = some (.ok, 8, [0x29, 0x28]) := by decide

/-- R68: a response in text. -/
theorem test_responseText : responseText ⟨.truncated, 8, [0x33, 0x3F], 16⟩ = "-> TRUNCATED rbits=8 bblen=16 : x\"33 3F\"".toList := by decide

/-! ## Witnesses: states and operands that meet a statement's hypotheses -/

/-- The packet of R70 and its parts. -/
def packet : Bytes := [0x12, 0x09, 0, 0, 5, 0, 0, 0, 0, 0, 0, 0, 0, 0, 0, 0, 4, 0, 0, 0, 0xFD, 0xFF, 0xFF, 0xFF]
def command : Instr := .encInt true .append 0 5 0 [0xFD, 0xFF, 0xFF, 0xFF]
def clearPacket : Bytes := [0x33, 0, 0, 0, 0, 0, 0, 0, 0, 0, 0, 0, 0, 0, 0, 0, 0, 0, 0, 0]

theorem fieldLegal_of_ok {bits : Word} {p : Bytes} (h : fieldOk bits p = true) : Instr.fieldLegal bits p = true := by
  rw [← fieldOk_eq]; exact h
theorem encoderLegal_of_ok {dst : Dst} {bits : Word} {p : Bytes} (h : encoderOk dst bits p = true) :
    Instr.encoderLegal dst bits p = true := by
  rw [← encoderOk_eq]; exact h
theorem sequenceLegal_of_ok {c : Byte} {bits : Word} {p : Bytes} (h : sequenceOk c bits p = true) :
    Instr.sequenceLegal c bits p = true := by
  rw [← sequenceOk_eq]; exact h
theorem and_of {a b : Bool} (ha : a = true) (hb : b = true) : (a && b) = true := by rw [ha, hb]; rfl

theorem test_witness_DecodeEncodeRoundTrip : command.wellFormed = true ∧ (Instr.nop []).wellFormed = true := by decide

/-- The packet of R70, and headers whose unused fields are not 0: `CHUNK`, `RV`, `A` and `BYTEOFF` in `ENC.INT`, all in `NOP`. -/
theorem test_witness_HeaderSelectsCommand :
    ([0xFD, 0xFF, 0xFF, 0xFF] : Bytes).length = (Header.mk 0x00000912 5 0 0 4).plen ∧
    decode ((Header.mk 0x00000912 5 0 0 4).bytes ++ [0xFD, 0xFF, 0xFF, 0xFF] ++ clearPacket) = .ok (command, clearPacket) ∧
    (Header.mk 0x00000912 5 0 0 4).w0 &&& 0x0000E0FF#32 = command.opcode.setWidth 32 ∧
    headerCarries (Header.mk 0xFF000F12 5 0 9 4) command ∧
    decode ((Header.mk 0xFF000F12 5 0 9 4).bytes ++ [0xFD, 0xFF, 0xFF, 0xFF] ++ []) = .ok (command, []) ∧
    decode ((Header.mk 0xFFFF1F00 1 2 3 0).bytes ++ [] ++ []) = .ok (.nop [], []) := by
  refine ⟨rfl, rfl, rfl, ?_, rfl, rfl⟩
  unfold headerCarries command; decide

theorem test_witness_StepRunsDecodedCommand :
    (present (packet ++ clearPacket) State.reset).port = packet.map .byte ++ clearPacket.map .byte ∧
    decode packet = .ok (command, []) ∧ (clearPacket.map PortEvent.byte).head? ≠ some (.reset true) := by
  refine ⟨rfl, rfl, by decide⟩

theorem test_witness_CommandsRunInOrder :
    command.wellFormed = true ∧ (Instr.bbClear []).wellFormed = true ∧
    (present (packet ++ clearPacket) State.reset).port = (encode command ++ encode (.bbClear [])).map .byte ++ [] ∧
    ([] : List PortEvent).head? ≠ some (.reset true) := ⟨rfl, rfl, rfl, by decide⟩

/-- Both clauses: `RSV = 1`, and the first and last opcode of every reserved range. -/
theorem test_witness_ReservedEncodingsAreIllegal :
    (present ((Header.mk 0x00002012 0 0 0 0).bytes ++ []) State.reset).port =
      ((Header.mk 0x00002012 0 0 0 0).bytes ++ []).map .byte ++ [] ∧
    ([] : Bytes).length = (Header.mk 0x00002012 0 0 0 0).plen ∧ (Header.mk 0x00002012 0 0 0 0).rsv ≠ 0 ∧
    ∀ o ∈ [0x03, 0x06, 0x07, 0x0B, 0x0D, 0x0F, 0x19, 0x1F, 0x29, 0x2E, 0x34, 0xFF],
      reservedOpcode (Header.mk (BitVec.ofNat 32 o) 0 0 0 0).opc.toNat :=
  ⟨rfl, rfl, by decide, by unfold reservedOpcode; decide⟩

/-- Both clauses: no byte, 19 bytes, and a header whose payload is missing. -/
theorem test_witness_IncompletePacketWaits :
    State.reset.port = ([] : Bytes).map .byte ∧ ([] : Bytes).length < 20 ∧ (packet.take 19).length < 20 ∧
    takeHeader (packet.take 20) = some (⟨0x00000912, 5, 0, 0, 4⟩, []) ∧ ([] : Bytes).length < (Header.mk 0x00000912 5 0 0 4).plen :=
  ⟨rfl, by decide, by decide, rfl, by decide⟩

/-- The three clauses: inside a header, inside a payload, and during a command. -/
theorem test_witness_ResetEmptiesBuffer :
    (assertReset true (present (packet.take 19) State.reset)).port = (packet.take 19).map .byte ++ .reset true :: [] ∧
    (assertReset false (present (packet.take 23) State.reset)).port =
      ((Header.mk 0x00000912 5 0 0 4).bytes ++ [0xFD, 0xFF, 0xFF]).map .byte ++ .reset false :: [] ∧
    ([0xFD, 0xFF, 0xFF] : Bytes).length < (Header.mk 0x00000912 5 0 0 4).plen ∧
    (assertReset true (present packet State.reset)).port =
      ((Header.mk 0x00000912 5 0 0 4).bytes ++ [0xFD, 0xFF, 0xFF, 0xFF]).map .byte ++ .reset true :: [] ∧
    ([0xFD, 0xFF, 0xFF, 0xFF] : Bytes).length = (Header.mk 0x00000912 5 0 0 4).plen := ⟨rfl, rfl, by decide, rfl, rfl⟩

theorem test_witness_ResponseLayout :
    responseBytes ⟨.truncated, 8, [0x33, 0x3F], 16⟩ = some [2, 0, 0, 0, 8, 0, 0, 0, 2, 0, 0, 0, 16, 0, 0, 0, 0x33, 0x3F] ∧
    responseBytes ⟨.ok, 2 ^ 32, [], 0⟩ = none := by decide

theorem test_witness_StepKeepsInvariant : (bufferOf [1, 0, 1]).inv = true :=
  and_of (admits_bbCap_of_le (by decide)) rfl

/-- The four fatal statuses; `CAPACITY` in every configuration that can have it, on a full buffer. -/
theorem test_witness_FatalStatusLeavesNoTrace :
    exec (.encInt false .append 0 4 0 [0xFF, 0xFF, 0xFF, 0xFF]) (bufferOf [1]) = .next ((bufferOf [1]).failed .invalidArgument) ∧
    exec (.decInt false 4 5 0 [0xF8]) (bufferOf [1]) = .next ((bufferOf [1]).failed .outOfBounds) ∧
    exec (.nop [0]) (bufferOf [1]) = .next ((bufferOf [1]).failed .illegalCommand) ∧
    ((bufferOf [1]).failed .illegalCommand).lastStatus = some .illegalCommand := ⟨rfl, rfl, rfl, rfl⟩

/-- A full buffer, and no room on it (also for the clauses of the storing commands that answer `CAPACITY`). -/
theorem test_witness_capacity {c : Nat} (h : Config.bbCap = some c) :
    Config.admits Config.bbCap ((List.replicate c true).length + 1) = false ∧
    Config.admits Config.bbCap (max (List.replicate c true).length (c + 1)) = false ∧
    roomFor .append (List.replicate c true) 0 1 = false ∧ roomFor .write (List.replicate c true) c 1 = false := by
  simp [roomFor, h]

theorem test_witness_ResponseDependsOnBufferAndCommandOnly : (bufferOf [1]).bb = [true] := by decide

theorem test_witness_FailureDoesNotAffectLaterCommand :
    exec (.nop [0]) (bufferOf [1]) = .next ((bufferOf [1]).failed .illegalCommand) ∧
    ((bufferOf [1]).failed .illegalCommand).lastStatus = some .illegalCommand ∧ isFatal .illegalCommand = true := ⟨rfl, rfl, rfl⟩

theorem test_witness_StatusesAreAsTabled :
    exec (.decBcd false 8 0 5 [0x12]) State.reset = .next (State.reset.answered [] .truncated 0 []) ∧
    (State.reset.answered [] .truncated 0 []).lastStatus = some .truncated := ⟨rfl, rfl⟩

theorem test_witness_IllegalExactlyWhereUndefined : (Instr.nop [0]).legal = false ∧ command.legal = true ∧
    exec command State.reset = .next (State.reset.answered [true, true, true, false, true] .ok 5 [0x1D]) :=
  ⟨rfl, and_of (encoderLegal_of_ok rfl) rfl, rfl⟩

theorem test_witness_PureCommandsIgnoreBuffer :
    writesBuffer (.encInt true .none 0 5 0 [0xFD, 0xFF, 0xFF, 0xFF]) = false ∧ writesBuffer (.decInt false 4 0 0 [0xF8]) = false ∧
    writesBuffer (.bbTobytes []) = false ∧ ∀ p, Instr.decInt false 4 0 0 [0xF8] ≠ .bbTobytes p :=
  ⟨rfl, rfl, rfl, fun _ h => by cases h⟩

theorem test_witness_BufferChangesOnlyInStoredRange :
    Instr.bbWrite 0 2 3 [3] ≠ .bbClear [] ∧ storedRange (.bbWrite 0 2 3 [3]) (bufferOf [1]) = some (3, 2) ∧
    exec (.bbWrite 0 2 3 [3]) (bufferOf [1]) = .next ((bufferOf [1]).answered [true, false, false, true, true] .ok 2 []) :=
  ⟨(fun h => by cases h), rfl, rfl⟩

/-- `BITSIZE` at 1 and at 64, the largest that every configuration admits; the other clause is `test_witness_capacity`. -/
theorem test_witness_AppendStoresField :
    Instr.fieldLegal 1 [] = true ∧ Instr.fieldLegal 64 [1, 2] = true ∧
    Config.admits Config.bbCap ((bufferOf [1]).bbLen + (1 : Word).toNat) = true ∧
    Config.admits Config.bbCap (State.reset.bbLen + (64 : Word).toNat) = true :=
  ⟨fieldLegal_of_ok rfl, fieldLegal_of_ok rfl, admits_bbCap_of_le (by decide), admits_bbCap_of_le (by decide)⟩

theorem test_witness_WriteStoresField :
    Instr.fieldLegal 4 [9] = true ∧ Config.admits Config.bbCap (max State.reset.bbLen ((60 : Word).toNat + (4 : Word).toNat)) = true :=
  ⟨fieldLegal_of_ok rfl, admits_bbCap_of_le (by decide)⟩

/-- A position below the field that existed, one in the gap, and one above the field that existed. -/
theorem test_witness_WriteFrame :
    exec (.bbWrite 0 2 3 [3]) (bufferOf [1]) = .next ((bufferOf [1]).answered [true, false, false, true, true] .ok 2 []) ∧
    ((bufferOf [1]).answered [true, false, false, true, true] .ok 2 []).lastStatus = some .ok ∧
    (0 < (3 : Word).toNat ∧ 0 < (bufferOf [1]).bbLen) ∧ (2 < (3 : Word).toNat ∧ (bufferOf [1]).bbLen ≤ 2) ∧
    exec (.bbWrite 0 1 0 [0]) (bufferOf [1, 1]) = .next ((bufferOf [1, 1]).answered [false, true] .ok 1 []) ∧
    ((0 : Word).toNat + (1 : Word).toNat ≤ 1 ∧ 1 < (bufferOf [1, 1]).bbLen) :=
  ⟨rfl, rfl, by decide, by decide, rfl, by decide⟩

theorem test_witness_AppendIsWriteAtEnd : (2 : Word).toNat = (bufferOf [1, 0]).bbLen := rfl

theorem test_witness_DisjointWritesCommute : 3 + 2 ≤ 5 := by decide

/-- A negative value, and the least non-negative one. -/
theorem test_witness_ToWindowReturnsWindow :
    Instr.fieldLegal 4 [0x38, 0xFF] = true ∧ 1 ≤ ([0x38, 0xFF] : Bytes).length ∧ sLE [0x38, 0xFF] < 0 ∧
    Instr.fieldLegal 1 [0] = true ∧ 0 ≤ sLE [0] := ⟨fieldLegal_of_ok rfl, by decide, by decide, fieldLegal_of_ok rfl, by decide⟩

theorem test_witness_FromWindowReturnsValue : Instr.fieldLegal 4 [0x1F] = true ∧ 1 ≤ ([0x1F] : Bytes).length :=
  ⟨fieldLegal_of_ok rfl, by decide⟩

/-- Both ends of the representable range, and the largest window. -/
theorem test_witness_WindowConversionsAreInverse :
    representable (-8) 4 true ∧ representable 7 4 true ∧ representable 0 4 false ∧ representable 15 4 false ∧ 15 < 2 ^ 4 := by
  unfold representable; decide

theorem test_witness_NegativeUnsignedIsInvalid :
    (Instr.swTowin false 4 [0xFF]).legal = true ∧ sLE [0xFF] < 0 ∧
    (Instr.encByte false .append 0 8 0 [0xFF]).legal = true ∧
    (Instr.encBcd false .left .none 0 4 0 [0x2F]).legal = true ∧ ∃ c ∈ ([0x2F] : Bytes), c.toNat < 0x30 :=
  ⟨and_of (fieldLegal_of_ok rfl) rfl, by decide, and_of (encoderLegal_of_ok rfl) rfl, and_of (encoderLegal_of_ok rfl) rfl,
    0x2F, by simp, by decide⟩

theorem test_witness_ReverseBytesReversesOrder : Instr.payloadLegal [0xAB, 0xCD] = true ∧ Instr.payloadLegal [] = true :=
  ⟨admits_maxIn_of_le (by decide), admits_maxIn_of_le (by decide)⟩

/-- Chunk sizes 1 and 255, a short last chunk, and the empty sequence. -/
theorem test_witness_PartitionSplitsSequence :
    (Instr.ptPart 1 3 [5]).legal = true ∧ (Instr.ptPart 255 8 [0xED]).legal = true ∧ (Instr.ptPart 3 8 [0xED]).legal = true ∧
    (Instr.ptPart 5 0 []).legal = true :=
  ⟨and_of (sequenceLegal_of_ok rfl) rfl, and_of (sequenceLegal_of_ok rfl) rfl, and_of (sequenceLegal_of_ok rfl) rfl,
    and_of (sequenceLegal_of_ok rfl) rfl⟩

theorem test_witness_FlattenJoinsChunks : (Instr.ptFlat 3 8 [5, 5, 3]).legal = true ∧ (Instr.ptFlat 12 20 [0x37, 0x0B, 0x94, 0]).legal = true :=
  ⟨and_of (sequenceLegal_of_ok rfl) rfl, and_of (sequenceLegal_of_ok rfl) rfl⟩

theorem test_witness_PackPlacesChunkBits : (Instr.ptPack true 8 20 [0x37, 0x4B, 9]).legal = true ∧ (Instr.ptPack false 1 2 [1, 0]).legal = true :=
  ⟨and_of (and_of (sequenceLegal_of_ok rfl) rfl) rfl, and_of (and_of (sequenceLegal_of_ok rfl) rfl) rfl⟩

theorem test_witness_PartitionFlattenInverse :
    (∀ x ∈ [[true, false, true]], x.length = 3) ∧ 1 ≤ [true].length ∧ [true].length ≤ 3 := by decide

theorem test_witness_MismatchedPackingsReverseBytes : 8 * 0 + 8 ≤ ([true, true, true, false, true, true, false, false] : Bits).length := by
  decide

theorem test_witness_BitEncodeReversesWindow : Instr.fieldLegal 12 [1] = true ∧ Instr.fieldLegal 3 [0xFF, 0xFF] = true :=
  ⟨fieldLegal_of_ok rfl, fieldLegal_of_ok rfl⟩

theorem test_witness_EncodersStoreExactlyTheField :
    exec command State.reset = .next (State.reset.answered [true, true, true, false, true] .ok 5 [0x1D]) ∧
    (State.reset.answered [true, true, true, false, true] .ok 5 [0x1D]).lastStatus = some .ok ∧
    exec (.encBcd false .left .write 0 3 1 []) State.reset = .next (State.reset.answered [false] .ok 0 []) ∧
    exec (.encInt false .write 0 2 1 [3, 0, 0, 0]) (bufferOf [0, 0, 0, 0]) =
      .next ((bufferOf [0, 0, 0, 0]).answered [false, true, true, false] .ok 2 [3]) ∧
    5 = fieldSize command := ⟨rfl, rfl, rfl, rfl, rfl⟩

/-- A representable value, one that is not, and the room for each destination. -/
theorem test_witness_IntegerEncodersStoreValue :
    (Instr.encByte true .write 0 20 5 [0xFF]).legal = true ∧ (Instr.encInt false .none 0 8 0 [0x2C, 1, 0, 0]).legal = true ∧
    0 ≤ sLE [0x2C, 1, 0, 0] ∧ roomFor .none [] 0 8 = true ∧ roomFor .append [] 0 64 = true ∧ roomFor .write [] 44 20 = true :=
  ⟨and_of (encoderLegal_of_ok rfl) rfl, and_of (encoderLegal_of_ok rfl) rfl, by decide, rfl, admits_bbCap_of_le (by decide),
    admits_bbCap_of_le (by decide)⟩

theorem test_witness_PatternEncodersCarryPattern :
    (Instr.encFloat true .append 0 32 0 [0, 0, 0x20, 0xC0]).legal = true ∧
    (Instr.encDouble false .append 0 64 0 [0, 0, 0, 0, 0, 0, 0, 0x80]).legal = true :=
  ⟨and_of (encoderLegal_of_ok rfl) rfl, and_of (encoderLegal_of_ok rfl) rfl⟩

theorem test_witness_BytesEncoderStoresWireImage : (Instr.encBytes false .right .append 0x11 20 0 [0xAB]).legal = true :=
  encoderLegal_of_ok rfl

theorem test_witness_BcdEncoderStoresSlots :
    (Instr.encBcd false .right .append 7 8 0 [0x3A]).legal = true ∧ (∀ c ∈ ([0x3A] : Bytes), 0x30 ≤ c.toNat) ∧
    (Instr.encBcd true .left .write 0 3 9 []).legal = true :=
  ⟨and_of (encoderLegal_of_ok rfl) rfl, by decide, and_of (encoderLegal_of_ok rfl) rfl⟩

theorem test_witness_EncodeAndStoreEqualsTwoCommands :
    exec (.encInt true .none 0 5 0 [0xFD, 0xFF, 0xFF, 0xFF]) State.reset = .next (State.reset.answered [] .ok (5 : Word).toNat [0x1D]) ∧
    1 ≤ (5 : Word).toNat ∧ Instr.payloadLegal [0x1D] = true := ⟨rfl, by decide, admits_maxIn_of_le (by decide)⟩

theorem test_witness_IgnoredEncoderFields : Instr.encByte ∈ typedEncoders .left ∧ Dst.append ≠ .write :=
  ⟨.head _, by decide⟩

/-- The widest window of each type, ending exactly at the end of the payload, and an unaligned one. -/
theorem test_witness_IntegerDecodersReturnValue :
    Instr.fieldLegal 8 [0x80] = true ∧ Instr.fieldLegal 64 [0, 0, 0, 0, 0, 0, 0, 0] = true ∧ Instr.fieldLegal 11 [0xEC, 0xD2, 0x90] = true ∧
    (64 : Word).toNat ≤ 8 * 8 ∧ 8 * (0 : Word).toNat + (5 : Word).toNat + (11 : Word).toNat ≤ 8 * ([0xEC, 0xD2, 0x90] : Bytes).length :=
  ⟨fieldLegal_of_ok rfl, fieldLegal_of_ok rfl, fieldLegal_of_ok rfl, by decide, by decide⟩

theorem test_witness_BigintDecoderReturnsValue :
    Instr.fieldLegal 8 [0xFF] = true ∧ 8 * (0 : Word).toNat + (0 : Word).toNat + (8 : Word).toNat ≤ 8 * ([0xFF] : Bytes).length :=
  ⟨fieldLegal_of_ok rfl, by decide⟩

theorem test_witness_PatternDecodersReturnPattern :
    Instr.fieldLegal 32 [7, 0xF0, 0, 0, 0] = true ∧ (32 : Word).toNat ≤ 8 * 4 ∧
    8 * (0 : Word).toNat + (3 : Word).toNat + (32 : Word).toNat ≤ 8 * ([7, 0xF0, 0, 0, 0] : Bytes).length :=
  ⟨fieldLegal_of_ok rfl, by decide, by decide⟩

theorem test_witness_WindowDecodersReturnWindow :
    Instr.fieldLegal 12 [0xBC, 0xD0] = true ∧
    8 * (0 : Word).toNat + (4 : Word).toNat + (12 : Word).toNat ≤ 8 * ([0xBC, 0xD0] : Bytes).length := ⟨fieldLegal_of_ok rfl, by decide⟩

theorem test_witness_BcdDecoderReturnsDigits : Instr.fieldLegal 16 [0x12, 0x3F] = true ∧ 3 = wholeNibbles [0x12, 0x3F] 2 4 :=
  ⟨fieldLegal_of_ok rfl, rfl⟩

/-- One bit too many, and exactly enough. -/
theorem test_witness_WindowOutsidePayloadIsOutOfBounds :
    (Instr.decInt false 5 20 0 [0xEC, 0xD2, 0x90]).legal = true ∧
    8 * ([0xEC, 0xD2, 0x90] : Bytes).length < 8 * (0 : Word).toNat + (20 : Word).toNat + (5 : Word).toNat ∧
    8 * (0 : Word).toNat + (19 : Word).toNat + (5 : Word).toNat ≤ 8 * ([0xEC, 0xD2, 0x90] : Bytes).length :=
  ⟨and_of (fieldLegal_of_ok rfl) rfl, by decide, by decide⟩

theorem test_witness_DecodersReadOnlyTheWindow :
    ([0xEC, 0xD2] : Bytes).length = ([0xFC, 0xD3] : Bytes).length ∧
    ∀ k, 8 * (0 : Word).toNat + (5 : Word).toNat ≤ k → k < 8 * (0 : Word).toNat + (5 : Word).toNat + (10 : Word).toNat →
      wireBit [0xEC, 0xD2] k = wireBit [0xFC, 0xD3] k := by
  refine ⟨rfl, fun k h1 h2 => ?_⟩
  have h : ∀ j < 10, wireBit [0xEC, 0xD2] (5 + j) = wireBit [0xFC, 0xD3] (5 + j) := by decide
  have h1' : 5 ≤ k := h1
  have h2' : k < 15 := h2
  simpa [show 5 + (k - 5) = k by omega] using h (k - 5) (by omega)

/-- The three clauses; in the last two, a position of 2^32, which a sum cut to 32 bits would take for 0. -/
theorem test_witness_SamePositionSameResponse :
    8 * (2 : Word).toNat + (0 : Word).toNat = 8 * (0 : Word).toNat + (16 : Word).toNat ∧
    (Instr.decInt false 5 0 0x20000000 [0xEC]).legal = true ∧ (Instr.decBcd false 8 0 0x20000000 [0xEC]).legal = true ∧
    8 * ([0xEC] : Bytes).length < 8 * (0x20000000 : Word).toNat + (0 : Word).toNat + (5 : Word).toNat ∧
    8 * ([0xEC] : Bytes).length < 8 * (0x20000000 : Word).toNat + (0 : Word).toNat + 4 :=
  ⟨rfl, and_of (fieldLegal_of_ok rfl) rfl, fieldLegal_of_ok rfl, by decide, by decide⟩

/-- The state after one field on an empty buffer. -/
def afterField (bb : Bits) (q : Bytes) : State := State.reset.answered bb .ok bb.length q

theorem test_witness_IntegerRoundTrip :
    carriesField (.encInt true .append 0 5 0 [0xFD, 0xFF, 0xFF, 0xFF]) (8 * (0 : Word).toNat + (0 : Word).toNat) (5 : Word).toNat [0xE8] ∧
    representable (sLE [0xFD, 0xFF, 0xFF, 0xFF]) 5 true ∧ Instr.payloadLegal [0xE8] = true ∧
    (∀ N, some 4 = some N → (5 : Word).toNat ≤ 8 * N) := by
  refine ⟨⟨State.reset, afterField [true, true, true, false, true] [0x1D], afterField [true, true, true, false, true] [0x1D],
    rfl, rfl, rfl, fun _ _ => rfl, rfl⟩, ?_, admits_maxIn_of_le (by decide), ?_⟩
  · unfold representable; decide
  · intro N h; cases h; decide

/-- The four clauses. -/
theorem test_witness_VerbatimRoundTrip :
    carriesField (.encFloat false .append 0 32 0 [0, 0, 0x80, 0x3F]) 0 32 [0x3F, 0x80, 0, 0] ∧
    carriesField (.encDouble false .append 0 64 0 [0, 0, 0, 0, 0, 0, 0, 0x80]) 0 64 [0x80, 0, 0, 0, 0, 0, 0, 0] ∧
    carriesField (.encBytes false .left .append 0 16 0 [0xAB, 0xCD]) 0 16 [0xAB, 0xCD] ∧
    carriesField (.encBcd false .left .append 0 10 0 [0x31, 0x37]) 0 8 [0x17] ∧
    ∀ c ∈ ([0x31, 0x37] : Bytes), 0x30 ≤ c.toNat ∧ c.toNat ≤ 0x37 := by
  refine ⟨⟨State.reset, afterField (fieldBits 0x3F800000 32) [0, 0, 0x80, 0x3F], afterField (fieldBits 0x3F800000 32) [0, 0, 0x80, 0x3F],
      rfl, rfl, rfl, fun _ _ => rfl, rfl⟩,
    ⟨State.reset, afterField (fieldBits 0x8000000000000000 64) [0, 0, 0, 0, 0, 0, 0, 0x80],
      afterField (fieldBits 0x8000000000000000 64) [0, 0, 0, 0, 0, 0, 0, 0x80], rfl, rfl, rfl, fun _ _ => rfl, rfl⟩,
    ⟨State.reset, afterField (fieldBits 0xABCD 16) [0xCD, 0xAB], afterField (fieldBits 0xABCD 16) [0xCD, 0xAB],
      rfl, rfl, rfl, fun _ _ => rfl, rfl⟩,
    ⟨State.reset, afterField (fieldBits 0x17 8) [0x17], afterField (fieldBits 0x17 8) [0x17], rfl, rfl, rfl, fun _ _ => rfl, rfl⟩,
    by decide⟩

end Sys2Proof.Tests
end

section
/-!
PROOFS. The statements about the state (10_state.md). Every command comes down to one of four actions on the buffer, and
which one it is does not depend on the state (`exec_isAction`); what an action can do to a buffer is then said once.
-/

namespace Sys2Proof.Machine

/-! ## The actions -/

/-- What a command leaves in the buffer, and its response but for the length of that buffer (R32, R60). -/
structure Effect where
  bb : Bits
  status : Status
  rbits : Nat
  payload : Bytes

/-- What is left of a command when everything that the command alone decides has been decided. `reply`: one fixed answer.
`store`: the bits `E` go to position `off`, or to the end of the buffer where `off` is `none`. `clear` and `deliver`:
`BB.CLEAR` and `BB.TOBYTES` without a payload. -/
inductive Action
  | reply (st : Status) (n : Nat) (q : Bytes)
  | store (off : Option Nat) (E : Bits) (q : Bytes)
  | clear
  | deliver

/-- What an action makes of a buffer: a store needs room (R126, R127, R131, R132, R159). -/
def Action.effect (a : Action) (bb : Bits) : Effect :=
  match a with
  | .reply st n q => ⟨bb, st, n, q⟩
  | .store off E q =>
    if Config.admits Config.bbCap (max bb.length (off.getD bb.length + E.length)) then
      ⟨overlay bb (off.getD bb.length) E, .ok, E.length, q⟩
    else ⟨bb, .capacity, 0, []⟩
  | .clear => ⟨[], .ok, 0, []⟩
  | .deliver => ⟨bb, .ok, bb.length, pack (partition 8 bb) true⟩

/-- The action is one that the command may be: a fatal answer carries nothing (R61), a store goes to the command's range
(R134), and only `BB.CLEAR` clears and only `BB.TOBYTES` delivers (R24). -/
def Action.suits (a : Action) (i : Instr) : Prop :=
  match a with
  | .reply st n q => isFatal st = true → n = 0 ∧ q = []
  | .store off E _ => ∀ s, storedRange i s = some (off.getD s.bbLen, E.length)
  | .clear => i = .bbClear []
  | .deliver => i = .bbTobytes []

/-- The state after a command with the given effect. -/
def State.after (s : State) (e : Effect) : State := s.answered e.bb e.status e.rbits e.payload

/-- A meaning `f` is, at every state, one and the same action, and one that the command `i` may be. -/
def IsAction (i : Instr) (f : State → Host.Outcome State Fault Refusal) : Prop :=
  ∃ a : Action, a.suits i ∧ ∀ s, f s = .next (s.after (a.effect s.bb))

@[simp] theorem after_bb (s : State) (e : Effect) : (s.after e).bb = e.bb := rfl

@[simp] theorem after_lastStatus (s : State) (e : Effect) : (s.after e).lastStatus = some e.status := by
  simp [State.after, State.lastStatus]

/-! ## The shared operations are actions -/

section
variable {i : Instr} {f g : State → Host.Outcome State Fault Refusal}

theorem isAction_raise (st : Status) : IsAction i (raise st) :=
  ⟨.reply st 0 [], fun _ => ⟨rfl, rfl⟩, fun _ => rfl⟩

theorem isAction_respond {st : Status} (n : Nat) (q : Bytes) (h : isFatal st = false := by rfl) :
    IsAction i (respond st n q) :=
  ⟨.reply st n q, fun hf => absurd hf (by simp [h]), fun _ => rfl⟩

/-- A check that does not look at the state chooses between two actions. -/
theorem isAction_ite {c : Prop} [Decidable c] (hf : IsAction i f) (hg : IsAction i g) :
    IsAction i fun s => if c then f s else g s := by
  by_cases h : c
  · simpa only [if_pos h] using hf
  · simpa only [if_neg h] using hg

/-- An append is an overlay at the end of the buffer (R128). -/
theorem overlay_at_end (bb E : Bits) : overlay bb bb.length E = bb ++ E := by
  apply eq_of_getD (by simp)
  intro k hk
  rw [length_overlay] at hk
  rw [overlay_getD]
  rcases Nat.lt_or_ge k bb.length with h | h
  · rw [if_neg (by omega), List.getD_append _ _ _ _ h]
  · rw [if_pos (by omega), List.getD_append_right _ _ _ _ h]

theorem isAction_storeAppend (chunk : Bytes) (n : Nat) (q : Bytes)
    (hi : ∀ s, storedRange i s = some (s.bbLen, n)) : IsAction i (storeAppend chunk n q) := by
  refine ⟨.store none (fieldBits (uLE chunk) n) q, fun s => by simp [hi], fun s => ?_⟩
  rw [storeAppend_eq]
  simp only [Action.effect, Option.getD_none, length_fieldBits, overlay_at_end,
    Nat.max_eq_right (Nat.le_add_right _ _)]
  split <;> rfl

theorem isAction_storeWrite (chunk : Bytes) (off n : Nat) (q : Bytes)
    (hi : ∀ s, storedRange i s = some (off, n)) : IsAction i (storeWrite chunk off n q) := by
  refine ⟨.store (some off) (fieldBits (uLE chunk) n) q, fun s => by simp [hi], fun s => ?_⟩
  rw [storeWrite_eq]
  simp only [Action.effect, Option.getD_some, length_fieldBits]
  split <;> rfl

/-- The command stores, where its destination is the buffer, `eff` bits at the end or at `off` (R109, R134). -/
structure StoresTo (i : Instr) (dst : Dst) (eff off : Nat) : Prop where
  append : dst = .append → ∀ s, storedRange i s = some (s.bbLen, eff) := by rintro rfl _; rfl
  write : dst = .write → ∀ s, storedRange i s = some (off, eff) := by rintro rfl _; rfl

theorem isAction_finish {dst : Dst} {eff off : Nat} (chunk : Bytes) (hi : StoresTo i dst eff off) :
    IsAction i (finish dst chunk eff off) := by
  cases dst with
  | none => exact isAction_respond eff chunk
  | append => exact isAction_storeAppend chunk eff chunk (hi.append rfl)
  | write => exact isAction_storeWrite chunk off eff chunk (hi.write rfl)
  | reserved => exact isAction_raise .illegalCommand

theorem isAction_encodeInteger {dst : Dst} {bits bitOff : Word} (lengthOk sg : Bool) (p : Bytes)
    (hi : StoresTo i dst bits.toNat bitOff.toNat) :
    IsAction i (encodeInteger lengthOk sg dst bits bitOff p) := by
  unfold encodeInteger
  cases chunkInt (sLE p) bits.toNat sg with
  | none => exact isAction_ite (isAction_raise _) (isAction_raise _)
  | some chunk => exact isAction_ite (isAction_finish chunk hi) (isAction_raise _)

theorem isAction_encodePattern {dst : Dst} {bits bitOff : Word} (lengthOk : Bool) (p : Bytes)
    (hi : StoresTo i dst bits.toNat bitOff.toNat) :
    IsAction i (encodePattern lengthOk dst bits bitOff p) :=
  isAction_ite (isAction_finish _ hi) (isAction_raise _)

theorem isAction_decodeInteger (native : Nat) (sg : Bool) (bits bitOff byteOff : Word) (p : Bytes) :
    IsAction i (decodeInteger native sg bits bitOff byteOff p) := by
  unfold decodeInteger
  cases window (some native) bits bitOff byteOff p with
  | error st => exact isAction_raise st
  | ok W => exact isAction_respond _ _

theorem isAction_decodePattern (native : Nat) (bits bitOff byteOff : Word) (p : Bytes) :
    IsAction i (decodePattern native bits bitOff byteOff p) := by
  unfold decodePattern
  cases window (some native) bits bitOff byteOff p with
  | error st => exact isAction_raise st
  | ok W => exact isAction_respond _ _

end

/-! ## Every command is an action -/

theorem isAction_execBrRbits (i : Instr) (p : Bytes) : IsAction i (execBrRbits p) := by
  rcases p with _ | ⟨b, _ | ⟨c, p⟩⟩
  · exact isAction_raise _
  · exact isAction_respond _ _
  · exact isAction_raise _

theorem isAction_execSwTowin (i : Instr) (sg : Bool) (bits : Word) (p : Bytes) :
    IsAction i (execSwTowin sg bits p) := by
  unfold execSwTowin
  cases toWindow (sLE p) bits.toNat sg with
  | none => exact isAction_ite (isAction_raise _) (isAction_raise _)
  | some W => exact isAction_ite (isAction_respond _ _) (isAction_raise _)

theorem isAction_execDecBigint (i : Instr) (sg : Bool) (bits bitOff byteOff : Word) (p : Bytes) :
    IsAction i (execDecBigint sg bits bitOff byteOff p) := by
  unfold execDecBigint
  cases window none bits bitOff byteOff p with
  | error st => exact isAction_raise st
  | ok W => exact isAction_respond _ _

theorem isAction_execDecBytes (i : Instr) (sg : Bool) (bits bitOff byteOff : Word) (p : Bytes) :
    IsAction i (execDecBytes sg bits bitOff byteOff p) := by
  unfold execDecBytes
  cases extract none bits bitOff byteOff p with
  | error st => exact isAction_raise st
  | ok B => exact isAction_respond _ _

theorem isAction_execDecBits (i : Instr) (sg : Bool) (bits bitOff byteOff : Word) (p : Bytes) :
    IsAction i (execDecBits sg bits bitOff byteOff p) := by
  unfold execDecBits
  cases extract none bits bitOff byteOff p with
  | error st => exact isAction_raise st
  | ok B => exact isAction_respond _ _

/-- `TRUNCATED` is not fatal, so its answer may carry the digits before the end (R146, R157). -/
theorem isAction_execDecBcd (i : Instr) (sg : Bool) (bits bitOff byteOff : Word) (p : Bytes) :
    IsAction i (execDecBcd sg bits bitOff byteOff p) :=
  isAction_ite (isAction_respond _ _ (by split <;> rfl)) (isAction_raise _)

theorem isAction_execEncBcd {i : Instr} {dst : Dst} {bits bitOff : Word} (sg : Bool) (al : Align) (pad : Byte)
    (p : Bytes) (hi : StoresTo i dst (4 * (bits.toNat / 4)) bitOff.toNat) :
    IsAction i (execEncBcd sg al dst pad bits bitOff p) := by
  unfold execEncBcd
  cases bcdWindow p (bits.toNat / 4) sg al pad with
  | none => exact isAction_ite (isAction_raise _) (isAction_raise _)
  | some W => exact isAction_ite (isAction_finish _ hi) (isAction_raise _)

theorem isAction_execBbTobytes (p : Bytes) : IsAction (.bbTobytes p) (execBbTobytes p) := by
  cases p with
  | nil => exact ⟨.deliver, rfl, fun _ => rfl⟩
  | cons b p => exact isAction_raise .illegalCommand

theorem isAction_execBbClear (p : Bytes) : IsAction (.bbClear p) (execBbClear p) := by
  cases p with
  | nil => exact ⟨.clear, rfl, fun _ => rfl⟩
  | cons b p => exact isAction_raise .illegalCommand

/-- What a command can do, said once: the same action at every state. -/
theorem exec_isAction (i : Instr) : IsAction i (exec i) := by
  cases i with
  | nop p => exact isAction_ite (isAction_raise _) (isAction_respond _ _)
  | swTowin sg bits p => exact isAction_execSwTowin _ sg bits p
  | swFromwin sg bits p => exact isAction_ite (isAction_respond _ _) (isAction_raise _)
  | brRbits p => exact isAction_execBrRbits _ p
  | brRbytes p => exact isAction_ite (isAction_respond _ _) (isAction_raise _)
  | ptPart chunk bits p => exact isAction_ite (isAction_respond _ _) (isAction_raise _)
  | ptFlat chunk bits p => exact isAction_ite (isAction_respond _ _) (isAction_raise _)
  | ptPack rv chunk bits p => exact isAction_ite (isAction_respond _ _) (isAction_raise _)
  | beEncode pad bits p => exact isAction_ite (isAction_respond _ _) (isAction_raise _)
  | encByte sg dst pad bits bitOff p =>
    exact isAction_encodeInteger _ sg p {}
  | encShort sg dst pad bits bitOff p =>
    exact isAction_encodeInteger _ sg p {}
  | encInt sg dst pad bits bitOff p =>
    exact isAction_encodeInteger _ sg p {}
  | encLong sg dst pad bits bitOff p =>
    exact isAction_encodeInteger _ sg p {}
  | encBigint sg dst pad bits bitOff p =>
    exact isAction_encodeInteger _ sg p {}
  | encFloat sg dst pad bits bitOff p =>
    exact isAction_encodePattern _ p {}
  | encDouble sg dst pad bits bitOff p =>
    exact isAction_encodePattern _ p {}
  | encBytes sg al dst pad bits bitOff p =>
    exact isAction_ite (isAction_finish _ {}) (isAction_raise _)
  | encBcd sg al dst pad bits bitOff p =>
    exact isAction_execEncBcd sg al pad p {}
  | decByte sg bits bitOff byteOff p => exact isAction_decodeInteger 1 sg bits bitOff byteOff p
  | decShort sg bits bitOff byteOff p => exact isAction_decodeInteger 2 sg bits bitOff byteOff p
  | decInt sg bits bitOff byteOff p => exact isAction_decodeInteger 4 sg bits bitOff byteOff p
  | decLong sg bits bitOff byteOff p => exact isAction_decodeInteger 8 sg bits bitOff byteOff p
  | decBigint sg bits bitOff byteOff p => exact isAction_execDecBigint _ sg bits bitOff byteOff p
  | decFloat sg bits bitOff byteOff p => exact isAction_decodePattern 4 bits bitOff byteOff p
  | decDouble sg bits bitOff byteOff p => exact isAction_decodePattern 8 bits bitOff byteOff p
  | decBytes sg bits bitOff byteOff p => exact isAction_execDecBytes _ sg bits bitOff byteOff p
  | decBcd sg bits bitOff byteOff p => exact isAction_execDecBcd _ sg bits bitOff byteOff p
  | decBits sg bits bitOff byteOff p => exact isAction_execDecBits _ sg bits bitOff byteOff p
  | bbAppend pad bits p =>
    exact isAction_ite (isAction_storeAppend _ _ _ fun _ => rfl) (isAction_raise _)
  | bbWrite pad bits bitOff p =>
    exact isAction_ite (isAction_storeWrite _ _ _ _ fun _ => rfl) (isAction_raise _)
  | bbTobytes p => exact isAction_execBbTobytes p
  | bbClear p => exact isAction_execBbClear p

/-! ## What an action can do to a buffer -/

/-- A store overlays its bits, or there is no room and it changes nothing (R127, R159). -/
theorem effect_store_cases (off : Option Nat) (E : Bits) (q : Bytes) (bb : Bits) :
    (Config.admits Config.bbCap (max bb.length (off.getD bb.length + E.length)) = true ∧
        (Action.store off E q).effect bb = ⟨overlay bb (off.getD bb.length) E, .ok, E.length, q⟩) ∨
      (Action.store off E q).effect bb = ⟨bb, .capacity, 0, []⟩ := by
  by_cases hroom : Config.admits Config.bbCap (max bb.length (off.getD bb.length + E.length)) = true
  · exact .inl ⟨hroom, if_pos hroom⟩
  · exact .inr (if_neg hroom)

/-- An action keeps the buffer within its capacity (R130). -/
theorem effect_bb_admits (a : Action) {bb : Bits} (h : Config.admits Config.bbCap bb.length = true) :
    Config.admits Config.bbCap (a.effect bb).bb.length = true := by
  cases a with
  | reply st n q => exact h
  | store off E q =>
    rcases effect_store_cases off E q bb with ⟨hroom, he⟩ | he <;> rw [he]
    · rwa [length_overlay]
    · exact h
  | clear => exact admits_bbCap_of_le (Nat.zero_le _)
  | deliver => exact h

/-- A fatal status leaves the buffer alone and carries nothing (R61, R160). -/
theorem effect_of_fatal {a : Action} {i : Instr} (ha : a.suits i) {bb : Bits}
    (hf : isFatal (a.effect bb).status = true) :
    (a.effect bb).bb = bb ∧ (a.effect bb).rbits = 0 ∧ (a.effect bb).payload = [] := by
  cases a with
  | reply st n q => exact ⟨rfl, ha hf⟩
  | store off E q =>
    rcases effect_store_cases off E q bb with ⟨-, he⟩ | he
    · rw [he] at hf; cases hf
    · rw [he]; exact ⟨rfl, rfl, rfl⟩
  | clear | deliver => cases hf

/-- A command that does not write the buffer has no range to store to (R24, R134). -/
theorem storedRange_eq_none {i : Instr} (h : writesBuffer i = false) (s : State) : storedRange i s = none := by
  cases i
  case bbAppend | bbWrite => cases h
  case encByte dst _ _ _ _ | encShort dst _ _ _ _ | encInt dst _ _ _ _ | encLong dst _ _ _ _
      | encBigint dst _ _ _ _ | encFloat dst _ _ _ _ | encDouble dst _ _ _ _ | encBytes dst _ _ _ _
      | encBcd dst _ _ _ _ =>
    cases dst with
    | none | reserved => rfl
    | append | write => cases h
  all_goals rfl

/-- A command that does not write the buffer gives a fixed answer or delivers the message (R24). -/
theorem action_of_not_writesBuffer {a : Action} {i : Instr} (ha : a.suits i) (hw : writesBuffer i = false) :
    (∃ st n q, a = .reply st n q) ∨ (a = .deliver ∧ i = .bbTobytes []) := by
  cases a with
  | reply st n q => exact .inl ⟨st, n, q, rfl⟩
  | store off E q =>
    have hrange := ha State.reset
    rw [storedRange_eq_none hw] at hrange
    cases hrange
  | clear => cases ha; cases hw
  | deliver => exact .inr ⟨rfl, ha⟩

theorem getElem?_eq_some_getD {bb : Bits} {k : Nat} (h : k < bb.length) : bb[k]? = some (bb.getD k false) := by
  simp [List.getD_eq_getElem?_getD, h]

/-- Outside the bits written, an overlay keeps what existed and is 0 where nothing did (R127, R129). -/
theorem overlay_outside (bb E : Bits) (off k : Nat) (hk : k < off ∨ off + E.length ≤ k) :
    (k < bb.length → (overlay bb off E)[k]? = bb[k]?) ∧
      (bb.length ≤ k → k < (overlay bb off E).length → (overlay bb off E)[k]? = some false) := by
  have hget : (overlay bb off E).getD k false = bb.getD k false := by rw [overlay_getD, if_neg (by omega)]
  constructor
  · intro hold
    have hnew : k < (overlay bb off E).length := by rw [length_overlay]; omega
    rw [getElem?_eq_some_getD hnew, getElem?_eq_some_getD hold, hget]
  · intro hold hnew
    rw [getElem?_eq_some_getD hnew, hget, List.getD_eq_default _ _ hold]

/-! ## The invariant -/

theorem inv_iff (s : State) :
    s.inv = true ↔ Config.admits Config.bbCap s.bb.length = true ∧ ∀ r ∈ s.responses, r.wf = true := by
  simp [State.inv, State.bufferFits]

theorem response_wf_iff (r : Response) :
    r.wf = true ↔ (isFatal r.status = true → r.rbits = 0 ∧ r.payload = []) ∧
      Config.admits Config.bbCap r.bbLen = true := by
  cases h : isFatal r.status <;> simp [Response.wf, h]

/-- An answer keeps the invariant where its buffer fits and a fatal status carries nothing (R61, R130). -/
theorem answered_inv {s : State} (hs : s.inv = true) {bb : Bits} {st : Status} {n : Nat} {q : Bytes}
    (hfits : Config.admits Config.bbCap bb.length = true) (hfatal : isFatal st = true → n = 0 ∧ q = []) :
    (s.answered bb st n q).inv = true := by
  refine (inv_iff _).mpr ⟨hfits, fun r hr => ?_⟩
  rcases List.mem_append.mp hr with hold | hnew
  · exact ((inv_iff s).mp hs).2 r hold
  · rw [List.mem_singleton.mp hnew]
    exact (response_wf_iff _).mpr ⟨hfatal, hfits⟩

theorem failed_inv {s : State} (hs : s.inv = true) (st : Status) : (s.failed st).inv = true :=
  answered_inv hs ((inv_iff s).mp hs).1 fun _ => ⟨rfl, rfl⟩

theorem exec_keeps_inv (i : Instr) {s : State} (hs : s.inv = true) :
    ∃ t, exec i s = .next t ∧ t.inv = true := by
  obtain ⟨a, ha, hrun⟩ := exec_isAction i
  exact ⟨_, hrun s, answered_inv hs (effect_bb_admits a ((inv_iff s).mp hs).1) fun hf => (effect_of_fatal ha hf).2⟩

theorem runPacket_keeps_inv (h : Header) (p : Bytes) {s : State} (hs : s.inv = true) :
    ∃ t, runPacket h p s = .next t ∧ t.inv = true := by
  cases hd : decodePacket h p with
  | ok i => rw [runPacket_ok hd]; exact exec_keeps_inv i hs
  | error e => exact ⟨_, runPacket_error hd s, failed_inv hs .illegalCommand⟩

theorem takeReset_inv (rest : List PortEvent) {s : State} (hs : s.inv = true) :
    (takeReset rest s).inv = true :=
  (inv_iff _).mpr ⟨clear_bufferFits s, ((inv_iff s).mp hs).2⟩

/-! ## The statements -/

/-- Settles O13: a step waits, takes a reset or runs a packet, and each keeps the invariant. -/
theorem stepKeepsInvariant : Obligations.StepKeepsInvariant := by
  intro s hs
  unfold step
  cases fetch s.port with
  | waiting => exact ⟨s, rfl, hs⟩
  | reset rest => exact ⟨_, rfl, takeReset_inv rest hs⟩
  | packet h p rest => exact runPacket_keeps_inv h p (s := { s with port := rest }) hs

/-- Settles O15: the action is fixed by the command, and its effect by the buffer. -/
theorem responseDependsOnBufferAndCommandOnly : Obligations.ResponseDependsOnBufferAndCommandOnly := by
  intro i bb
  obtain ⟨a, -, hrun⟩ := exec_isAction i
  refine ⟨(a.effect bb).bb, (a.effect bb).status, (a.effect bb).rbits, (a.effect bb).payload, ?_⟩
  rintro s rfl
  exact hrun s

/-- Settles O17: a failed command leaves the buffer as it was, and the later command sees nothing else. -/
theorem failureDoesNotAffectLaterCommand : Obligations.FailureDoesNotAffectLaterCommand := by
  intro i j s t st hexec hstatus hfatal
  obtain ⟨a, ha, hrun⟩ := exec_isAction i
  rw [hrun s] at hexec
  cases hexec
  rw [after_lastStatus] at hstatus
  cases hstatus
  have hbb : (s.after (a.effect s.bb)).bb = s.bb := (effect_of_fatal ha hfatal).1
  obtain ⟨bb', st', n, q, hj⟩ := responseDependsOnBufferAndCommandOnly j s.bb
  exact ⟨bb', st', n, q, hj s rfl, hj _ hbb⟩

/-- Settles O20: a command that does not write the buffer gives a fixed answer, but for `BB.TOBYTES`. -/
theorem pureCommandsIgnoreBuffer : Obligations.PureCommandsIgnoreBuffer := by
  intro i hw
  obtain ⟨a, ha, hrun⟩ := exec_isAction i
  rcases action_of_not_writesBuffer ha hw with ⟨st, n, q, rfl⟩ | ⟨rfl, hi⟩
  · exact ⟨fun s => ⟨st, n, q, hrun s⟩, fun _ => ⟨st, n, q, hrun⟩⟩
  · exact ⟨fun s => ⟨_, _, _, hrun s⟩, fun hne => absurd hi (hne [])⟩

/-- Settles O21: only a store changes the buffer, and it overlays bits on the command's range. -/
theorem bufferChangesOnlyInStoredRange : Obligations.BufferChangesOnlyInStoredRange := by
  intro i s t hne hexec
  obtain ⟨a, ha, hrun⟩ := exec_isAction i
  rw [hrun s] at hexec
  cases hexec
  cases a with
  | store off E q =>
    rw [ha s]
    rcases effect_store_cases off E q s.bb with ⟨-, he⟩ | he <;> rw [he]
    · exact .inr ⟨length_overlay .., fun k hk => overlay_outside s.bb E _ k hk⟩
    · exact .inl rfl
  | clear => exact absurd ha hne
  | reply | deliver =>
    split
    · rfl
    · exact .inl rfl

/-- Settles O9: there is nothing in the buffer after reset, and `BB.CLEAR` leaves the same. -/
theorem resetBufferIsEmpty : Obligations.ResetBufferIsEmpty :=
  ⟨reset_bb, rfl, fun k => by rw [State.bit, reset_bb, List.getElem?_nil], fun s => ⟨s.answered [] .ok 0 [], rfl, rfl⟩⟩

/-- Settles O14: the empty buffer fits every capacity, and no response has been produced. -/
theorem resetHasInvariant : Obligations.ResetHasInvariant :=
  (inv_iff _).mpr ⟨reset_bufferFits, by simp⟩

end Sys2Proof.Machine
end

section
/-!
PROOFS. The statements about the memory (20_memory.md): the order of commands, the two readings of the buffer, and the
positions of the decoders. A packet of an encoded command runs that command (`step_encoded`); a completed `BB.WRITE` is an
overlay (`exec_bbWrite_cases`); and every strict decoder answers with a function of the window that `extract` cuts out
(`isStrictDecoder`).
-/

namespace Sys2Proof.Machine

/-! ## The packet of an encoded command -/

/-- The header of every encoded command selects the command again (R63). -/
theorem selects (i : Instr) : Laws.Selects.Statement i := by
  cases i with
  | nop p => exact Laws.Selects.nop p
  | swTowin sg bits p => exact Laws.Selects.swTowin sg bits p
  | swFromwin sg bits p => exact Laws.Selects.swFromwin sg bits p
  | brRbits p => exact Laws.Selects.brRbits p
  | brRbytes p => exact Laws.Selects.brRbytes p
  | ptPart chunk bits p => exact Laws.Selects.ptPart chunk bits p
  | ptFlat chunk bits p => exact Laws.Selects.ptFlat chunk bits p
  | ptPack rv chunk bits p => exact Laws.Selects.ptPack rv chunk bits p
  | beEncode pad bits p => exact Laws.Selects.beEncode pad bits p
  | encByte sg dst pad bits bitOff p => exact Laws.Selects.encByte sg dst pad bits bitOff p
  | encShort sg dst pad bits bitOff p => exact Laws.Selects.encShort sg dst pad bits bitOff p
  | encInt sg dst pad bits bitOff p => exact Laws.Selects.encInt sg dst pad bits bitOff p
  | encLong sg dst pad bits bitOff p => exact Laws.Selects.encLong sg dst pad bits bitOff p
  | encBigint sg dst pad bits bitOff p => exact Laws.Selects.encBigint sg dst pad bits bitOff p
  | encFloat sg dst pad bits bitOff p => exact Laws.Selects.encFloat sg dst pad bits bitOff p
  | encDouble sg dst pad bits bitOff p => exact Laws.Selects.encDouble sg dst pad bits bitOff p
  | encBytes sg al dst pad bits bitOff p => exact Laws.Selects.encBytes sg al dst pad bits bitOff p
  | encBcd sg al dst pad bits bitOff p => exact Laws.Selects.encBcd sg al dst pad bits bitOff p
  | decByte sg bits bitOff byteOff p => exact Laws.Selects.decByte sg bits bitOff byteOff p
  | decShort sg bits bitOff byteOff p => exact Laws.Selects.decShort sg bits bitOff byteOff p
  | decInt sg bits bitOff byteOff p => exact Laws.Selects.decInt sg bits bitOff byteOff p
  | decLong sg bits bitOff byteOff p => exact Laws.Selects.decLong sg bits bitOff byteOff p
  | decBigint sg bits bitOff byteOff p => exact Laws.Selects.decBigint sg bits bitOff byteOff p
  | decFloat sg bits bitOff byteOff p => exact Laws.Selects.decFloat sg bits bitOff byteOff p
  | decDouble sg bits bitOff byteOff p => exact Laws.Selects.decDouble sg bits bitOff byteOff p
  | decBytes sg bits bitOff byteOff p => exact Laws.Selects.decBytes sg bits bitOff byteOff p
  | decBcd sg bits bitOff byteOff p => exact Laws.Selects.decBcd sg bits bitOff byteOff p
  | decBits sg bits bitOff byteOff p => exact Laws.Selects.decBits sg bits bitOff byteOff p
  | bbAppend pad bits p => exact Laws.Selects.bbAppend pad bits p
  | bbWrite pad bits bitOff p => exact Laws.Selects.bbWrite pad bits bitOff p
  | bbTobytes p => exact Laws.Selects.bbTobytes p
  | bbClear p => exact Laws.Selects.bbClear p

theorem decodePacket_header (i : Instr) : decodePacket i.header i.payload = .ok i := by
  obtain ⟨hrsv, -, -, hselect⟩ := selects i
  rw [decodePacket, if_pos hrsv, hselect]

/-- `PLEN` holds the payload length where that fits 32 bits (R57). -/
theorem header_plen {i : Instr} (hi : i.wellFormed = true) : i.payload.length = i.header.plen := by
  obtain ⟨-, -, hplen, -⟩ := selects i
  have hlt : i.payload.length < 2 ^ 32 := of_decide_eq_true hi
  rw [Header.plen, hplen, BitVec.toNat_ofNat, Nat.mod_eq_of_lt hlt]

/-- An encoded command at the front of the port runs, and the port moves past it (R49, R64). -/
theorem step_encoded {s : State} {i : Instr} {tail : List PortEvent} (hi : i.wellFormed = true)
    (hs : s.port = (encode i).map .byte ++ tail) (ht : tail.head? ≠ some (.reset true)) :
    step s = exec i { s with port := tail } := by
  rw [step_packet s i.header i.payload tail (header_plen hi) ht hs, runPacket_ok (decodePacket_header i)]

/-- A packet starts with a byte, so no reset abandons the command before it. -/
theorem head?_encode_append (j : Instr) (tail : List PortEvent) :
    ((encode j).map PortEvent.byte ++ tail).head? ≠ some (.reset true) := by
  simp [encode, Header.bytes, bytesOfWord]

/-- Every command answers, and leaves the port to the step that fetched it (R60). -/
theorem exec_keeps_port (i : Instr) (s : State) : ∃ t, exec i s = .next t ∧ t.port = s.port := by
  obtain ⟨a, -, hrun⟩ := exec_isAction i
  exact ⟨_, hrun s, rfl⟩

/-! ## What `BB.WRITE` stores -/

/-- `BB.WRITE` overlays the field bits, or it is refused and changes nothing (R127, R159). -/
theorem exec_bbWrite_cases (pad : Byte) (bits bitOff : Word) (p : Bytes) (s : State) :
    exec (.bbWrite pad bits bitOff p) s =
        .next (s.answered (overlay s.bb bitOff.toNat (fieldBits (uLE p) bits.toNat)) .ok bits.toNat []) ∨
      ∃ st, isFatal st = true ∧ exec (.bbWrite pad bits bitOff p) s = .next (s.failed st) := by
  have hexec : exec (.bbWrite pad bits bitOff p) s =
      if fieldOk bits p then storeWrite p bitOff.toNat bits.toNat [] s else raise .illegalCommand s := rfl
  rw [hexec, storeWrite_eq]
  split
  · split
    · exact .inl rfl
    · exact .inr ⟨.capacity, rfl, rfl⟩
  · exact .inr ⟨.illegalCommand, rfl, rfl⟩

@[simp] theorem answered_lastStatus (s : State) (bb : Bits) (st : Status) (n : Nat) (q : Bytes) :
    (s.answered bb st n q).lastStatus = some st := by
  simp [State.lastStatus]

theorem failed_lastStatus (s : State) (st : Status) : (s.failed st).lastStatus = some st :=
  answered_lastStatus ..

/-- Inside the bits written, an overlay holds them (R127). -/
theorem overlay_inside (bb E : Bits) (off : Nat) {j : Nat} (hj : j < E.length) :
    (overlay bb off E)[off + j]? = some (E.getD j false) := by
  have hlt : off + j < (overlay bb off E).length := by rw [length_overlay]; omega
  rw [getElem?_eq_some_getD hlt, overlay_getD, if_pos (by omega), Nat.add_sub_cancel_left]

/-! ## The strict decoders -/

/-- What a strict decoder does: it cuts out its window and answers with `f` of the extracted bytes, or with the status of
the check that failed (R136, R137, R149). -/
def windowReply (native : Option Nat) (bits bitOff byteOff : Word) (p : Bytes) (f : Bytes → Bytes) (s : State) :
    Host.Outcome State Fault Refusal :=
  match extract native bits bitOff byteOff p with
  | .ok B => respond .ok bits.toNat (f B) s
  | .error st => raise st s

/-- `d` is a decoder that reads one window, whole or not at all: its result and its legality depend on `S`, `BITSIZE` and
the native width of its type, and the offsets only place the window (R46, R137). -/
def IsStrictDecoder (d : Bool → Word → Word → Word → Bytes → Instr) : Prop :=
  ∀ (sg : Bool) (bits : Word), ∃ (native : Option Nat) (f : Bytes → Bytes), ∀ (bitOff byteOff : Word) (p : Bytes),
    (∀ s, exec (d sg bits bitOff byteOff p) s = windowReply native bits bitOff byteOff p f s) ∧
      (d sg bits bitOff byteOff p).legal = (Instr.fieldLegal bits p && withinNative native bits.toNat)

/-- The decoders but `DEC.BCD`, which reads nibble by nibble (R146, R162). -/
def strictDecoders : List (Bool → Word → Word → Word → Bytes → Instr) :=
  [.decByte, .decShort, .decInt, .decLong, .decBigint, .decFloat, .decDouble, .decBytes, .decBits]

theorem eq_decBcd_or_mem_strictDecoders {d : Bool → Word → Word → Word → Bytes → Instr}
    (hd : d ∈ typedDecoders) : d = .decBcd ∨ d ∈ strictDecoders := by
  simp only [typedDecoders, strictDecoders, List.mem_cons] at hd ⊢
  tauto

section
variable (native : Nat) (sg : Bool) (bits bitOff byteOff : Word) (p : Bytes) (s : State)

theorem decodeInteger_eq_windowReply :
    decodeInteger native sg bits bitOff byteOff p s =
      windowReply (some native) bits bitOff byteOff p
        (fun B => toBytesLE (fromWindow (uLE B) bits.toNat sg) native) s := by
  unfold decodeInteger windowReply window
  cases extract (some native) bits bitOff byteOff p <;> rfl

theorem decodePattern_eq_windowReply :
    decodePattern native bits bitOff byteOff p s =
      windowReply (some native) bits bitOff byteOff p (fun B => toBytesLE (uLE B) native) s := by
  unfold decodePattern windowReply window
  cases extract (some native) bits bitOff byteOff p <;> rfl

theorem execDecBigint_eq_windowReply :
    execDecBigint sg bits bitOff byteOff p s =
      windowReply none bits bitOff byteOff p
        (fun B => toBytesLE (fromWindow (uLE B) bits.toNat sg) (bits.toNat / 8 + 1)) s := by
  unfold execDecBigint windowReply window
  cases extract none bits bitOff byteOff p <;> rfl

end

theorem isStrictDecoder {d : Bool → Word → Word → Word → Bytes → Instr} (hd : d ∈ strictDecoders) :
    IsStrictDecoder d := by
  intro sg bits
  simp only [strictDecoders, List.mem_cons, List.not_mem_nil, or_false] at hd
  rcases hd with rfl | rfl | rfl | rfl | rfl | rfl | rfl | rfl | rfl
  · exact ⟨some 1, _, fun _ _ _ => ⟨decodeInteger_eq_windowReply 1 sg bits _ _ _, rfl⟩⟩
  · exact ⟨some 2, _, fun _ _ _ => ⟨decodeInteger_eq_windowReply 2 sg bits _ _ _, rfl⟩⟩
  · exact ⟨some 4, _, fun _ _ _ => ⟨decodeInteger_eq_windowReply 4 sg bits _ _ _, rfl⟩⟩
  · exact ⟨some 8, _, fun _ _ _ => ⟨decodeInteger_eq_windowReply 8 sg bits _ _ _, rfl⟩⟩
  · exact ⟨none, _, fun _ _ _ => ⟨execDecBigint_eq_windowReply sg bits _ _ _, (Bool.and_true _).symm⟩⟩
  · exact ⟨some 4, _, fun _ _ _ => ⟨decodePattern_eq_windowReply 4 bits _ _ _, rfl⟩⟩
  · exact ⟨some 8, _, fun _ _ _ => ⟨decodePattern_eq_windowReply 8 bits _ _ _, rfl⟩⟩
  · exact ⟨none, reverseBytes, fun _ _ _ => ⟨fun _ => rfl, (Bool.and_true _).symm⟩⟩
  · exact ⟨none, id, fun _ _ _ => ⟨fun _ => rfl, (Bool.and_true _).symm⟩⟩

/-- Only the start of the window matters, as a number, not the two offsets that give it (R46). -/
theorem windowReply_congr {bitOff byteOff bitOff' byteOff' : Word}
    (h : windowStart bitOff byteOff = windowStart bitOff' byteOff') (native : Option Nat) (bits : Word) (p : Bytes)
    (f : Bytes → Bytes) (s : State) :
    windowReply native bits bitOff byteOff p f s = windowReply native bits bitOff' byteOff' p f s := by
  rw [windowReply, windowReply, extract, extract, h]

/-- A window that ends past the payload is refused, once the header is legal (R149, R162). -/
theorem windowReply_outOfBounds {native : Option Nat} {bits bitOff byteOff : Word} {p : Bytes}
    (hlegal : (Instr.fieldLegal bits p && withinNative native bits.toNat) = true)
    (hpast : 8 * p.length < windowStart bitOff byteOff + bits.toNat) (f : Bytes → Bytes) (s : State) :
    windowReply native bits bitOff byteOff p f s = .next (s.failed .outOfBounds) := by
  rw [windowReply, extract_eq, if_pos (by simpa using hlegal), if_neg (Nat.not_le.mpr hpast)]
  rfl

/-! ## `DEC.BCD` -/

/-- No digit is read where not even the first nibble lies inside the stream (R146). -/
theorem bcdDigits_of_past_end {s : Bits} {start : Nat} (h : s.length < start + 4) (sg : Bool) (slots : Nat) :
    bcdDigits s sg slots start = [] := by
  cases slots with
  | zero => rfl
  | succ slots => rw [bcdDigits, if_pos h]

/-- `DEC.BCD` without a single digit: `OK` where it asked for none, else `TRUNCATED` (R146, R157). -/
theorem execDecBcd_of_past_end {bits bitOff byteOff : Word} {p : Bytes} (hlegal : Instr.fieldLegal bits p = true)
    (hpast : 8 * p.length < windowStart bitOff byteOff + 4) (sg : Bool) (s : State) :
    execDecBcd sg bits bitOff byteOff p s =
      .next (s.answered s.bb (if bits.toNat < 4 then .ok else .truncated) 0 []) := by
  have hslots : 0 < bits.toNat / 4 ↔ ¬ bits.toNat < 4 := by omega
  rw [execDecBcd, fieldOk_eq, if_pos hlegal, bcdDigits_of_past_end (by rwa [length_wire])]
  simp only [List.length_nil, hslots, ite_not, respond_eq]

/-! ## The statements -/

/-- Settles O5: the first packet runs its command and leaves the second at the front of the port. -/
theorem commandsRunInOrder : Obligations.CommandsRunInOrder := by
  intro s i j tail hi hj hport htail
  obtain ⟨t, hexec, htport⟩ := exec_keeps_port i { s with port := (encode j).map .byte ++ tail }
  have hfirst : step s = exec i { s with port := (encode j).map .byte ++ tail } :=
    step_encoded hi (by rw [hport, List.map_append, List.append_assoc]) (head?_encode_append j tail)
  exact ⟨t, hfirst.trans hexec, hexec, step_encoded hj htport htail⟩

/-- Settles O24: packing by eights puts bit `i` at wire position `i`. -/
theorem messageIsBufferInWireOrder : Obligations.MessageIsBufferInWireOrder := by
  intro s
  refine ⟨pack (partition 8 s.bb) true, rfl, length_message s.bb, fun k _ => ?_⟩
  rw [pack_wireBit, State.bit, List.getD_eq_getElem?_getD]

/-- Settles O27: a completed write is an overlay of the field bits. -/
theorem writeFrame : Obligations.WriteFrame := by
  intro pad bits bitOff p s t hexec hok
  rcases exec_bbWrite_cases pad bits bitOff p s with hdone | ⟨st, hfatal, hfail⟩
  · rw [hdone] at hexec
    cases hexec
    have houtside := overlay_outside s.bb (fieldBits (uLE p) bits.toNat) bitOff.toNat
    simp only [length_overlay, length_fieldBits] at houtside
    refine ⟨by simp, fun k hk hold => (houtside k hk).1 hold, fun k hk hnew => ?_, fun j hj => ?_⟩
    · exact (houtside k (.inl hk)).2 hnew (by omega)
    · rw [State.bit, answered_bb, overlay_inside _ _ _ (by simpa using hj), fieldBits_getD, decide_eq_true hj,
        Bool.true_and]
  · rw [hfail] at hexec
    cases hexec
    rw [failed_lastStatus] at hok
    cases hok
    cases hfatal

/-- Settles O57: a decoder looks at its offsets only through the start of its window, a number without wrap. -/
theorem samePositionSameResponse : Obligations.SamePositionSameResponse := by
  refine ⟨fun d hd sg bits bitOff byteOff bitOff' byteOff' p s hstart => ?_,
    fun d hd sg bits bitOff byteOff p s hlegal hpast => ?_,
    fun sg bits bitOff byteOff p s hlegal hpast => execDecBcd_of_past_end hlegal hpast sg s⟩
  · have hwindow : windowStart bitOff byteOff = windowStart bitOff' byteOff' := hstart
    rcases eq_decBcd_or_mem_strictDecoders hd with rfl | hstrict
    · simp only [exec, execDecBcd, hwindow]
    · obtain ⟨native, f, hrun⟩ := isStrictDecoder hstrict sg bits
      rw [(hrun bitOff byteOff p).1, (hrun bitOff' byteOff' p).1, windowReply_congr hwindow]
  · obtain ⟨native, f, hrun⟩ := isStrictDecoder hd sg bits
    obtain ⟨hexec, hlegal_eq⟩ := hrun bitOff byteOff p
    rw [hexec, windowReply_outOfBounds (hlegal_eq ▸ hlegal) hpast]

end Sys2Proof.Machine
end

section
/-!
PROOFS. The statements about the encoding (30_encoding.md). A whole packet decodes to the command its header selects
(`decode_packet_ok_iff`), and the row of an opcode makes a command exactly from the headers that carry the fields of its
format (`exists_row`); a response's bytes are four words and the payload (`responseBytes_eq_some_iff`); and every meaning
checks first what the spec lists as illegal (`exec_illegalUnless_legal`).
-/

namespace Sys2Proof.Machine

/-! ## Whole packets -/

/-- Decoding a whole packet: the command its header selects, and the bytes after it (R64, R67). -/
theorem decode_packet (h : Header) (p rest : Bytes) (hp : p.length = h.plen) :
    decode (h.bytes ++ p ++ rest) = (decodePacket h p).map (·, rest) := by
  rw [decode, takePacket_packet h p rest hp]
  cases hd : decodePacket h p <;> simp [hd, Except.map]

theorem decode_packet_ok_iff {h : Header} {p rest : Bytes} (hp : p.length = h.plen) (i : Instr) (r : Bytes) :
    decode (h.bytes ++ p ++ rest) = .ok (i, r) ↔ r = rest ∧ decodePacket h p = .ok i := by
  rw [decode_packet h p rest hp]
  cases decodePacket h p with
  | error e => simp [Except.map]
  | ok j => simp [Except.map, and_comm, eq_comm]

/-! ## The opcode map -/

/-- The bits that `W0 AND 0x0000E0FF` keeps: `OPC` and `RSV` (R56, R63). -/
theorem opcodeMask_getLsbD {i : Nat} (hi : i < 32) :
    (0x0000E0FF#32).getLsbD i = decide (i < 8 ∨ 13 ≤ i ∧ i < 16) := by
  have hall : ∀ k : Fin 32, (0x0000E0FF#32).getLsbD k = decide (k.val < 8 ∨ 13 ≤ k.val ∧ k.val < 16) := by decide
  exact hall ⟨i, hi⟩

/-- Comparing the masked `W0` with an opcode tests `RSV` and `OPC` at once (R63). -/
theorem maskedW0_eq_iff (h : Header) (o : Byte) :
    h.w0 &&& 0x0000E0FF#32 = o.setWidth 32 ↔ h.rsv = 0 ∧ h.opc = o := by
  constructor
  · intro heq
    have hbit (i : Nat) (hi : i < 32) (hm : i < 8 ∨ 13 ≤ i ∧ i < 16) : h.w0.getLsbD i = o.getLsbD i := by
      have h1 := congrArg (·.getLsbD i) heq
      simpa only [BitVec.getLsbD_and, opcodeMask_getLsbD hi, decide_eq_true hm, Bool.and_true,
        BitVec.getLsbD_setWidth, decide_eq_true hi, Bool.true_and] using h1
    constructor <;> apply BitVec.eq_of_getLsbD_eq <;> intro j hj
    · rw [Header.rsv, BitVec.getLsbD_extractLsb', hbit (13 + j) (by omega) (by omega),
        BitVec.getLsbD_of_ge o (13 + j) (by omega)]
      simp
    · rw [Header.opc, BitVec.getLsbD_extractLsb', hbit (0 + j) (by omega) (by omega)]
      simp [hj]
  · rintro ⟨hrsv, rfl⟩
    apply BitVec.eq_of_getLsbD_eq
    intro i hi
    rw [BitVec.getLsbD_and, opcodeMask_getLsbD hi, BitVec.getLsbD_setWidth, Header.opc, BitVec.getLsbD_extractLsb']
    by_cases hlow : i < 8
    · simp [hlow, hi]
    by_cases hmid : 13 ≤ i ∧ i < 16
    · have hzero := congrArg (·.getLsbD (i - 13)) hrsv
      simp only [Header.rsv, BitVec.getLsbD_extractLsb', Nat.add_sub_cancel' hmid.1] at hzero
      have hin : i - 13 < 3 := by omega
      simpa [hlow, hmid.1, hmid.2, hin] using hzero
    · simp [hlow, hmid]

theorem al_eq_iff (h : Header) (a : Align) : h.al = a ↔ h.w0.getLsbD 9 = a.code := by
  cases a <;> simp [Header.al, Align.code]

/-- `DST` as a two-bit number (R56). -/
theorem dst_eq_iff (h : Header) (d : Dst) : h.dst = d ↔ h.w0.extractLsb' 11 2 = d.code := by
  have hbits : h.w0.extractLsb' 11 2 = BitVec.ofBool (h.w0.getLsbD 12) ++ BitVec.ofBool (h.w0.getLsbD 11) := by
    apply BitVec.eq_of_getLsbD_eq
    intro j hj
    have hcases : j = 0 ∨ j = 1 := by omega
    rw [BitVec.getLsbD_extractLsb', BitVec.getLsbD_append]
    rcases hcases with rfl | rfl <;> simp
  rw [hbits, Header.dst]
  cases h.w0.getLsbD 12 <;> cases h.w0.getLsbD 11 <;> cases d <;> decide

/-- A row makes a command of its own opcode (R63). -/
theorem opcode_of_mem_commandTable (h : Header) (p : Bytes) :
    ∀ row ∈ commandTable, (row.2 h p).opcode = row.1 := by
  simp [commandTable, pureRows, encoderRows, decoderRows, systemRows, Instr.opcode]

/-- The row of a command's opcode makes the command exactly from the headers that carry its fields (R58, R62, R63). -/
theorem exists_row (i : Instr) : ∃ make, commandTable.lookup i.opcode = some make ∧
    ∀ h p, make h p = i ↔ headerCarries h i ∧ p = i.payload := by
  cases i with
  | nop q | brRbits q | brRbytes q | bbTobytes q | bbClear q =>
    exact ⟨_, rfl, fun h p => by simp [Instr.payload, headerCarries]⟩
  | swTowin sg bits q | swFromwin sg bits q =>
    exact ⟨_, rfl, fun h p => by simp [Instr.payload, headerCarries, and_assoc, Header.sg, Header.bits]⟩
  | ptPart chunk bits q | ptFlat chunk bits q =>
    exact ⟨_, rfl, fun h p => by simp [Instr.payload, headerCarries, and_assoc, Header.chunk, Header.bits]⟩
  | ptPack rv chunk bits q =>
    exact ⟨_, rfl, fun h p => by simp [Instr.payload, headerCarries, and_assoc, Header.rv, Header.chunk, Header.bits]⟩
  | beEncode pad bits q | bbAppend pad bits q =>
    exact ⟨_, rfl, fun h p => by simp [Instr.payload, headerCarries, and_assoc, Header.pad, Header.bits]⟩
  | bbWrite pad bits bitOff q =>
    exact ⟨_, rfl, fun h p => by
      simp [Instr.payload, headerCarries, and_assoc, Header.pad, Header.bits, Header.bitOff]⟩
  | encByte sg dst pad bits bitOff q | encShort sg dst pad bits bitOff q | encInt sg dst pad bits bitOff q
  | encLong sg dst pad bits bitOff q | encBigint sg dst pad bits bitOff q | encFloat sg dst pad bits bitOff q
  | encDouble sg dst pad bits bitOff q =>
    exact ⟨_, rfl, fun h p => by
      simp [Instr.payload, headerCarries, and_assoc, Header.sg, dst_eq_iff, Header.pad, Header.bits, Header.bitOff]⟩
  | encBytes sg al dst pad bits bitOff q | encBcd sg al dst pad bits bitOff q =>
    exact ⟨_, rfl, fun h p => by
      simp [Instr.payload, headerCarries, and_assoc, Header.sg, al_eq_iff, dst_eq_iff, Header.pad, Header.bits,
        Header.bitOff]⟩
  | decByte sg bits bitOff byteOff q | decShort sg bits bitOff byteOff q | decInt sg bits bitOff byteOff q
  | decLong sg bits bitOff byteOff q | decBigint sg bits bitOff byteOff q | decFloat sg bits bitOff byteOff q
  | decDouble sg bits bitOff byteOff q | decBytes sg bits bitOff byteOff q | decBcd sg bits bitOff byteOff q
  | decBits sg bits bitOff byteOff q =>
    exact ⟨_, rfl, fun h p => by
      simp [Instr.payload, headerCarries, and_assoc, Header.sg, Header.bits, Header.bitOff, Header.byteOff]⟩

/-- What selecting a command can answer (R58, R62, R63). -/
theorem selectCommand_ok_iff {h : Header} {p : Bytes} {i : Instr} :
    selectCommand h p = .ok i ↔ h.opc = i.opcode ∧ headerCarries h i ∧ p = i.payload := by
  obtain ⟨make, hrow, hmake⟩ := exists_row i
  constructor
  · intro hsel
    have hopc : h.opc = i.opcode := by
      unfold selectCommand at hsel
      split at hsel
      · rename_i make' hfound
        cases hsel
        obtain ⟨_, _, htable, -⟩ := List.lookup_eq_some_iff.mp hfound
        exact (opcode_of_mem_commandTable h p (h.opc, make') (by simp [htable])).symm
      · cases hsel
    rw [selectCommand, hopc, hrow] at hsel
    exact ⟨hopc, (hmake h p).mp (Except.ok.inj hsel)⟩
  · rintro ⟨hopc, hfields⟩
    rw [selectCommand, hopc, hrow]
    exact congrArg Except.ok ((hmake h p).mpr hfields)

theorem decodePacket_ok_iff {h : Header} {p : Bytes} {i : Instr} :
    decodePacket h p = .ok i ↔ h.rsv = 0 ∧ h.opc = i.opcode ∧ headerCarries h i ∧ p = i.payload := by
  rw [decodePacket, ← selectCommand_ok_iff]
  by_cases hrsv : h.rsv = 0
  · rw [if_pos hrsv, and_iff_right hrsv]
  · rw [if_neg hrsv]
    exact iff_of_false nofun fun hboth => hrsv hboth.1

/-- Every opcode of the map decodes, whatever the other fields hold (R58, R63). -/
theorem decodePacket_of_opcode {h : Header} {j : Instr} (hrsv : h.rsv = 0) (hopc : h.opc = j.opcode) (p : Bytes) :
    ∃ i, decodePacket h p = .ok i ∧ i.opcode = j.opcode := by
  obtain ⟨make, hrow, -⟩ := exists_row j
  have hdec : decodePacket h p = .ok (make h p) := by rw [decodePacket, if_pos hrsv, selectCommand, hopc, hrow]
  obtain ⟨-, hmade, -⟩ := decodePacket_ok_iff.mp hdec
  exact ⟨make h p, hdec, hmade.symm.trans hopc⟩

/-- The reserved opcodes have no row (R66 (a)). -/
theorem lookup_of_reservedOpcode {o : Byte} (ho : reservedOpcode o.toNat) : commandTable.lookup o = none := by
  have hassigned : ∀ opc ∈ commandTable.map Prod.fst, ¬ reservedOpcode opc.toNat := by
    unfold reservedOpcode; decide
  rw [List.lookup_eq_none_iff]
  rintro ⟨opc, make⟩ hrow
  simp only [bne_iff_ne]
  rintro rfl
  exact hassigned o (List.mem_map_of_mem (f := Prod.fst) hrow) ho

theorem decodePacket_reserved {h : Header} (hres : h.rsv ≠ 0 ∨ reservedOpcode h.opc.toNat) (p : Bytes) :
    ∃ e, decodePacket h p = .error e := by
  rw [decodePacket]
  split
  · rename_i hrsv
    exact ⟨_, by rw [selectCommand, lookup_of_reservedOpcode (hres.resolve_left (not_not.mpr hrsv))]⟩
  · exact ⟨_, rfl⟩

/-! ## The bytes of a response -/

theorem uLE_bytesOfWord (w : Word) : uLE (bytesOfWord w) = w.toNat := by
  simp only [bytesOfWord, uLE, BitVec.extractLsb'_toNat, Nat.shiftRight_eq_div_pow]
  omega

theorem length_bytesOfWord (w : Word) : (bytesOfWord w).length = 4 := rfl

/-- A header word of a response exists where its value fits, and reads back as it (R60). -/
theorem responseWord_eq_some_iff {v : Nat} {w : Bytes} :
    responseWord v = some w ↔ v < 2 ^ 32 ∧ w = bytesOfWord (BitVec.ofNat 32 v) := by
  unfold responseWord
  by_cases hv : v < 2 ^ 32
  · rw [if_pos hv, and_iff_right hv, Option.some.injEq, eq_comm]
  · rw [if_neg hv]
    exact iff_of_false nofun fun h => hv h.1

/-- What the byte form of a response can be (R60). -/
theorem responseBytes_eq_some_iff {r : Response} {B : Bytes} :
    responseBytes r = some B ↔ (r.rbits < 2 ^ 32 ∧ r.payload.length < 2 ^ 32 ∧ r.bbLen < 2 ^ 32) ∧
      B = bytesOfWord ((statusCode r.status).setWidth 32) ++ bytesOfWord (BitVec.ofNat 32 r.rbits) ++
        bytesOfWord (BitVec.ofNat 32 r.payload.length) ++ bytesOfWord (BitVec.ofNat 32 r.bbLen) ++ r.payload := by
  simp only [responseBytes, Option.bind_eq_bind, Option.bind_eq_some_iff, responseWord_eq_some_iff, Option.pure_def,
    Option.some.injEq]
  constructor
  · rintro ⟨_, ⟨h1, rfl⟩, _, ⟨h2, rfl⟩, _, ⟨h3, rfl⟩, rfl⟩
    exact ⟨⟨h1, h2, h3⟩, rfl⟩
  · rintro ⟨⟨h1, h2, h3⟩, rfl⟩
    exact ⟨_, ⟨h1, rfl⟩, _, ⟨h2, rfl⟩, _, ⟨h3, rfl⟩, rfl⟩

/-- Four words and what follows them, cut apart again (R55, R60). -/
theorem fourWords_parts {w0 w1 w2 w3 : Word} {q B : Bytes}
    (hB : B = bytesOfWord w0 ++ bytesOfWord w1 ++ bytesOfWord w2 ++ bytesOfWord w3 ++ q) :
    B.take 4 = bytesOfWord w0 ∧ (B.drop 4).take 4 = bytesOfWord w1 ∧ (B.drop 8).take 4 = bytesOfWord w2 ∧
      (B.drop 12).take 4 = bytesOfWord w3 ∧ B.drop 16 = q ∧ B.length = 16 + q.length := by
  subst hB
  refine ⟨rfl, rfl, rfl, rfl, rfl, ?_⟩
  simp only [List.length_append, length_bytesOfWord]

theorem uLE_bytesOfWord_ofNat {v : Nat} (hv : v < 2 ^ 32) : uLE (bytesOfWord (BitVec.ofNat 32 v)) = v := by
  rw [uLE_bytesOfWord, BitVec.toNat_ofNat, Nat.mod_eq_of_lt hv]

/-! ## Legal commands -/

/-- An outcome that is not answered `ILLEGAL_COMMAND`. -/
def NotIllegal (o : Host.Outcome State Fault Refusal) : Prop :=
  ∀ t, o = .next t → t.lastStatus ≠ some .illegalCommand

/-- At `s` the outcome `o` is the failure `ILLEGAL_COMMAND` exactly where `legal` is false (R66, R158). -/
def IllegalUnless (legal : Bool) (s : State) (o : Host.Outcome State Fault Refusal) : Prop :=
  (legal = false → o = .next (s.failed .illegalCommand)) ∧ (legal = true → NotIllegal o)

section
variable {s : State} {bb : Bits} {st : Status} {n : Nat} {q : Bytes}

theorem notIllegal_answered (hst : st ≠ .illegalCommand) : NotIllegal (.next (s.answered bb st n q)) := by
  rintro t ht
  cases ht
  simpa using hst

theorem notIllegal_failed (hst : st ≠ .illegalCommand) : NotIllegal (.next (s.failed st)) :=
  notIllegal_answered hst

theorem notIllegal_respond_ok : NotIllegal (respond .ok n q s) :=
  notIllegal_answered (by decide)

end

/-- An encoder whose `DST` is not the reserved one gets past its legality checks (R66 (c), R109). -/
theorem notIllegal_finish {dst : Dst} (hdst : dst ≠ .reserved) (chunk : Bytes) (eff off : Nat) (s : State) :
    NotIllegal (finish dst chunk eff off s) := by
  rw [finish_eq, if_neg hdst]
  split
  · exact notIllegal_answered (by decide)
  · exact notIllegal_failed (by decide)

theorem dst_ne_reserved {dst : Dst} {bits : Word} {p : Bytes} (h : Instr.encoderLegal dst bits p = true) :
    dst ≠ .reserved := by
  obtain ⟨-, hdst⟩ := (Bool.and_eq_true _ _).mp h
  exact of_decide_eq_true hdst

section
variable {s : State} {legal : Bool} {o : Host.Outcome State Fault Refusal}

/-- The legality check comes first, and nothing behind it answers `ILLEGAL_COMMAND` again (R161). -/
theorem illegalUnless_ite {c : Prop} [Decidable c] (hc : c ↔ legal = true) (ho : legal = true → NotIllegal o) :
    IllegalUnless legal s (if c then o else raise .illegalCommand s) :=
  ⟨fun hl => if_neg fun h => Bool.false_ne_true (hl.symm.trans (hc.mp h)),
    fun hl => by rw [if_pos (hc.mpr hl)]; exact ho hl⟩

theorem illegalUnless_of_legal (hl : legal = true) (ho : NotIllegal o) : IllegalUnless legal s o :=
  ⟨fun hf => absurd hl (by simp [hf]), fun _ => ho⟩

theorem illegalUnless_raise (hl : legal = false) : IllegalUnless legal s (raise .illegalCommand s) :=
  ⟨fun _ => rfl, fun ht => absurd ht (by simp [hl])⟩

end

section
variable (s : State) (sg : Bool) (dst : Dst) (al : Align) (pad : Byte) (bits bitOff byteOff : Word) (p : Bytes)

theorem illegalUnless_encodeInteger (lengthOk : Bool) :
    IllegalUnless (Instr.encoderLegal dst bits p && lengthOk) s (encodeInteger lengthOk sg dst bits bitOff p s) := by
  rw [encodeInteger_eq]
  refine illegalUnless_ite (Bool.and_eq_true _ _).symm.to_iff fun hlegal => ?_
  obtain ⟨henc, -⟩ := (Bool.and_eq_true _ _).mp hlegal
  split
  · exact notIllegal_failed (by decide)
  · exact notIllegal_finish (dst_ne_reserved henc) _ _ _ s

theorem illegalUnless_encodePattern (lengthOk : Bool) :
    IllegalUnless (Instr.encoderLegal dst bits p && lengthOk) s (encodePattern lengthOk dst bits bitOff p s) := by
  rw [encodePattern_eq]
  refine illegalUnless_ite (Bool.and_eq_true _ _).symm.to_iff fun hlegal => ?_
  obtain ⟨henc, -⟩ := (Bool.and_eq_true _ _).mp hlegal
  exact notIllegal_finish (dst_ne_reserved henc) _ _ _ s

theorem illegalUnless_execEncBytes :
    IllegalUnless (Instr.encoderLegal dst bits p) s (execEncBytes sg al dst pad bits bitOff p s) := by
  rw [execEncBytes, encoderOk_eq]
  exact illegalUnless_ite Iff.rfl fun henc => notIllegal_finish (dst_ne_reserved henc) _ _ _ s

theorem illegalUnless_execEncBcd :
    IllegalUnless (Instr.encoderLegal dst bits p && decide (p.length ≤ bits.toNat / 4)) s
      (execEncBcd sg al dst pad bits bitOff p s) := by
  rw [execEncBcd, encoderOk_eq]
  refine illegalUnless_ite Iff.rfl fun hlegal => ?_
  obtain ⟨henc, -⟩ := (Bool.and_eq_true _ _).mp hlegal
  cases bcdWindow p (bits.toNat / 4) sg al pad with
  | none => exact notIllegal_failed (by decide)
  | some W => exact notIllegal_finish (dst_ne_reserved henc) _ _ _ s

theorem illegalUnless_execSwTowin :
    IllegalUnless (Instr.fieldLegal bits p && decide (1 ≤ p.length)) s (execSwTowin sg bits p s) := by
  rw [execSwTowin, fieldOk_eq]
  refine illegalUnless_ite (by simp [Nat.one_le_iff_ne_zero]) fun _ => ?_
  cases toWindow (sLE p) bits.toNat sg with
  | none => exact notIllegal_failed (by decide)
  | some W => exact notIllegal_answered (by decide)

theorem illegalUnless_execDecBcd :
    IllegalUnless (Instr.fieldLegal bits p) s (execDecBcd sg bits bitOff byteOff p s) := by
  rw [execDecBcd, fieldOk_eq]
  exact illegalUnless_ite Iff.rfl fun _ => notIllegal_answered (by split <;> decide)

theorem illegalUnless_windowReply (native : Option Nat) (f : Bytes → Bytes) :
    IllegalUnless (Instr.fieldLegal bits p && withinNative native bits.toNat) s
      (windowReply native bits bitOff byteOff p f s) := by
  rw [windowReply, extract_eq]
  by_cases hlegal : (Instr.fieldLegal bits p && withinNative native bits.toNat) = true
  · rw [if_pos ((Bool.and_eq_true _ _).mp hlegal)]
    refine illegalUnless_of_legal hlegal ?_
    by_cases hin : windowStart bitOff byteOff + bits.toNat ≤ 8 * p.length
    · rw [if_pos hin]; exact notIllegal_respond_ok
    · rw [if_neg hin]; exact notIllegal_failed (by decide)
  · rw [if_neg fun h => hlegal ((Bool.and_eq_true _ _).mpr h)]
    exact illegalUnless_raise (Bool.eq_false_of_not_eq_true hlegal)

theorem illegalUnless_strictDecoder {d : Bool → Word → Word → Word → Bytes → Instr} (hd : d ∈ strictDecoders) :
    IllegalUnless (d sg bits bitOff byteOff p).legal s (exec (d sg bits bitOff byteOff p) s) := by
  obtain ⟨native, f, hrun⟩ := isStrictDecoder hd sg bits
  obtain ⟨hexec, hlegal⟩ := hrun bitOff byteOff p
  rw [hexec, hlegal]
  exact illegalUnless_windowReply s bits bitOff byteOff p native f

/-- The three commands that take no payload (R125, R131, R132). -/
theorem illegalUnless_noPayload {f : Bytes → State → Host.Outcome State Fault Refusal}
    (hnil : NotIllegal (f [] s)) (hcons : ∀ b q, f (b :: q) s = raise .illegalCommand s) :
    IllegalUnless (decide (p = [])) s (f p s) := by
  cases p with
  | nil => exact illegalUnless_of_legal rfl hnil
  | cons b q => rw [hcons]; exact illegalUnless_raise rfl

theorem illegalUnless_execBrRbits : IllegalUnless (decide (p.length = 1)) s (execBrRbits p s) := by
  rcases p with _ | ⟨b, _ | ⟨c, p⟩⟩
  · exact illegalUnless_raise rfl
  · exact illegalUnless_of_legal rfl notIllegal_respond_ok
  · exact illegalUnless_raise (by simp)

theorem illegalUnless_execBbAppend : IllegalUnless (Instr.fieldLegal bits p) s (execBbAppend pad bits p s) := by
  rw [execBbAppend, fieldOk_eq, storeAppend_eq]
  refine illegalUnless_ite Iff.rfl fun _ => ?_
  split
  · exact notIllegal_answered (by decide)
  · exact notIllegal_failed (by decide)

theorem illegalUnless_execBbWrite :
    IllegalUnless (Instr.fieldLegal bits p) s (execBbWrite pad bits bitOff p s) := by
  rw [execBbWrite, fieldOk_eq, storeWrite_eq]
  refine illegalUnless_ite Iff.rfl fun _ => ?_
  split
  · exact notIllegal_answered (by decide)
  · exact notIllegal_failed (by decide)

end

/-- What the meanings check is what the spec lists as illegal (R58, R66). -/
theorem exec_illegalUnless_legal (i : Instr) (s : State) : IllegalUnless i.legal s (exec i s) := by
  cases i with
  | nop p => exact illegalUnless_noPayload s p (f := execNop) notIllegal_respond_ok fun _ _ => rfl
  | swTowin sg bits p => exact illegalUnless_execSwTowin s sg bits p
  | swFromwin sg bits p =>
    exact illegalUnless_ite (by simp [Instr.legal, fieldOk_eq, Nat.one_le_iff_ne_zero])
      fun _ => notIllegal_respond_ok
  | brRbits p => exact illegalUnless_execBrRbits s p
  | brRbytes p => exact illegalUnless_ite (by rw [fitsMaxIn_eq]; rfl) fun _ => notIllegal_respond_ok
  | ptPart chunk bits p => exact illegalUnless_ite (by rw [sequenceOk_eq]; rfl) fun _ => notIllegal_respond_ok
  | ptFlat chunk bits p => exact illegalUnless_ite (by rw [sequenceOk_eq]; rfl) fun _ => notIllegal_respond_ok
  | ptPack rv chunk bits p => exact illegalUnless_ite (by rw [sequenceOk_eq]; rfl) fun _ => notIllegal_respond_ok
  | beEncode pad bits p => exact illegalUnless_ite (by rw [fieldOk_eq]; rfl) fun _ => notIllegal_respond_ok
  | encByte sg dst pad bits bitOff p => exact illegalUnless_encodeInteger s sg dst bits bitOff p _
  | encShort sg dst pad bits bitOff p => exact illegalUnless_encodeInteger s sg dst bits bitOff p _
  | encInt sg dst pad bits bitOff p => exact illegalUnless_encodeInteger s sg dst bits bitOff p _
  | encLong sg dst pad bits bitOff p => exact illegalUnless_encodeInteger s sg dst bits bitOff p _
  | encBigint sg dst pad bits bitOff p => exact illegalUnless_encodeInteger s sg dst bits bitOff p _
  | encFloat sg dst pad bits bitOff p => exact illegalUnless_encodePattern s dst bits bitOff p _
  | encDouble sg dst pad bits bitOff p => exact illegalUnless_encodePattern s dst bits bitOff p _
  | encBytes sg al dst pad bits bitOff p => exact illegalUnless_execEncBytes s sg dst al pad bits bitOff p
  | encBcd sg al dst pad bits bitOff p => exact illegalUnless_execEncBcd s sg dst al pad bits bitOff p
  | decByte sg bits bitOff byteOff p | decShort sg bits bitOff byteOff p | decInt sg bits bitOff byteOff p
  | decLong sg bits bitOff byteOff p | decBigint sg bits bitOff byteOff p | decFloat sg bits bitOff byteOff p
  | decDouble sg bits bitOff byteOff p | decBytes sg bits bitOff byteOff p | decBits sg bits bitOff byteOff p =>
    exact illegalUnless_strictDecoder s sg bits bitOff byteOff p (by simp [strictDecoders])
  | decBcd sg bits bitOff byteOff p => exact illegalUnless_execDecBcd s sg bits bitOff byteOff p
  | bbAppend pad bits p => exact illegalUnless_execBbAppend s pad bits p
  | bbWrite pad bits bitOff p => exact illegalUnless_execBbWrite s pad bits bitOff p
  | bbTobytes p => exact illegalUnless_noPayload s p (f := execBbTobytes) notIllegal_respond_ok fun _ _ => rfl
  | bbClear p => exact illegalUnless_noPayload s p (f := execBbClear) notIllegal_respond_ok fun _ _ => rfl

/-! ## Fields that an encoder ignores -/

/-- `BITOFF` is looked at only by `DST = write` (R109). -/
theorem finish_off_irrelevant {dst : Dst} (hdst : dst ≠ .write) (chunk : Bytes) (eff off off' : Nat) (s : State) :
    finish dst chunk eff off s = finish dst chunk eff off' s := by
  cases dst with
  | write => exact absurd rfl hdst
  | none | append | reserved => rfl

theorem encodeInteger_bitOff_irrelevant {dst : Dst} (hdst : dst ≠ .write) (lengthOk sg : Bool)
    (bits bitOff bitOff' : Word) (p : Bytes) (s : State) :
    encodeInteger lengthOk sg dst bits bitOff p s = encodeInteger lengthOk sg dst bits bitOff' p s := by
  simp only [encodeInteger_eq, finish_off_irrelevant hdst _ _ bitOff.toNat bitOff'.toNat]

theorem encodePattern_bitOff_irrelevant {dst : Dst} (hdst : dst ≠ .write) (lengthOk : Bool)
    (bits bitOff bitOff' : Word) (p : Bytes) (s : State) :
    encodePattern lengthOk dst bits bitOff p s = encodePattern lengthOk dst bits bitOff' p s := by
  simp only [encodePattern_eq, finish_off_irrelevant hdst _ _ bitOff.toNat bitOff'.toNat]

theorem execEncBytes_bitOff_irrelevant {dst : Dst} (hdst : dst ≠ .write) (sg : Bool) (al : Align) (pad : Byte)
    (bits bitOff bitOff' : Word) (p : Bytes) (s : State) :
    execEncBytes sg al dst pad bits bitOff p s = execEncBytes sg al dst pad bits bitOff' p s := by
  rw [execEncBytes, execEncBytes, finish_off_irrelevant hdst _ _ bitOff.toNat bitOff'.toNat]

theorem execEncBcd_bitOff_irrelevant {dst : Dst} (hdst : dst ≠ .write) (sg : Bool) (al : Align) (pad : Byte)
    (bits bitOff bitOff' : Word) (p : Bytes) (s : State) :
    execEncBcd sg al dst pad bits bitOff p s = execEncBcd sg al dst pad bits bitOff' p s := by
  simp only [execEncBcd, finish_off_irrelevant hdst _ _ bitOff.toNat bitOff'.toNat]

theorem exec_encoder_bitOff_irrelevant {al : Align} {e : Bool → Dst → Byte → Word → Word → Bytes → Instr}
    (he : e ∈ typedEncoders al) (sg : Bool) {dst : Dst} (hdst : dst ≠ .write) (pad : Byte)
    (bits bitOff bitOff' : Word) (p : Bytes) (s : State) :
    exec (e sg dst pad bits bitOff p) s = exec (e sg dst pad bits bitOff' p) s := by
  simp only [typedEncoders, List.mem_cons, List.not_mem_nil, or_false] at he
  rcases he with rfl | rfl | rfl | rfl | rfl | rfl | rfl | rfl | rfl
  iterate 5 exact encodeInteger_bitOff_irrelevant hdst _ sg bits bitOff bitOff' p s
  iterate 2 exact encodePattern_bitOff_irrelevant hdst _ bits bitOff bitOff' p s
  · exact execEncBytes_bitOff_irrelevant hdst sg al pad bits bitOff bitOff' p s
  · exact execEncBcd_bitOff_irrelevant hdst sg al pad bits bitOff bitOff' p s

/-! ## The statements -/

/-- Settles O1: the header of an encoded command selects the command, and its packet is taken off the stream whole. -/
theorem decodeEncodeRoundTrip : Obligations.DecodeEncodeRoundTrip := by
  intro i rest hi
  exact ⟨(decode_packet_ok_iff (header_plen hi) i rest).mpr ⟨rfl, decodePacket_header i⟩, by simp [encode]⟩

/-- Settles O3: the mask keeps `OPC` and `RSV`, and the row of an opcode reads exactly the fields of its format. -/
theorem headerSelectsCommand : Obligations.HeaderSelectsCommand := by
  intro h p rest hp
  refine ⟨fun i r => ?_, fun j hmask => ?_⟩
  · rw [decode_packet_ok_iff hp, decodePacket_ok_iff, maskedW0_eq_iff, eq_comm (a := i.payload)]
    tauto
  · obtain ⟨hrsv, hopc⟩ := (maskedW0_eq_iff h j.opcode).mp hmask
    obtain ⟨i, hdec, hi⟩ := decodePacket_of_opcode hrsv hopc p
    exact ⟨i, (decode_packet_ok_iff hp i rest).mpr ⟨rfl, hdec⟩, hi⟩

/-- Settles O6: such a packet decodes to no command, and a step answers that with `ILLEGAL_COMMAND`. -/
theorem reservedEncodingsAreIllegal : Obligations.ReservedEncodingsAreIllegal := by
  intro s h p tail hp hport htail hres
  obtain ⟨e, herror⟩ := decodePacket_reserved hres p
  rw [step_packet s h p tail hp htail hport, runPacket_error herror]

/-- Settles O12: the byte form is four words and the payload, and each word reads back as its number. -/
theorem responseLayout : Obligations.ResponseLayout := by
  intro r
  constructor
  · simp only [Option.isSome_iff_exists, responseBytes_eq_some_iff, exists_and_left, exists_eq, and_true]
  · intro B hB
    obtain ⟨⟨hrbits, hrlen, hbbLen⟩, hwords⟩ := responseBytes_eq_some_iff.mp hB
    obtain ⟨h0, h1, h2, h3, hq, hlen⟩ := fourWords_parts hwords
    rw [h0, h1, h2, h3, uLE_bytesOfWord_ofNat hrbits, uLE_bytesOfWord_ofNat hrlen, uLE_bytesOfWord_ofNat hbbLen]
    have hstatus : uLE (bytesOfWord ((statusCode r.status).setWidth 32)) = (statusCode r.status).toNat := by
      rw [uLE_bytesOfWord, BitVec.toNat_setWidth_of_le (by omega)]
    exact ⟨hstatus, rfl, rfl, rfl, hq, hlen⟩

/-- Settles O19: every meaning makes the checks of `Instr.legal` first and answers `ILLEGAL_COMMAND` nowhere else. -/
theorem illegalExactlyWhereUndefined : Obligations.IllegalExactlyWhereUndefined :=
  exec_illegalUnless_legal

/-- Settles O2: each packet is computed to its command. -/
theorem specPacketsDecode : Obligations.SpecPacketsDecode :=
  ⟨rfl, rfl, rfl, rfl, rfl, rfl, rfl, rfl⟩

/-- Settles O4: what decodes is a whole packet, so the step takes it off the port and runs its command. -/
theorem stepRunsDecodedCommand : Obligations.StepRunsDecodedCommand := by
  intro s bs i tail hport hdec htail
  obtain ⟨h, p, rfl, hp, hi⟩ := decode_ok hdec
  rw [List.append_nil] at hport
  rw [step_packet s h p tail hp htail hport, runPacket_ok hi]

/-- Settles O10: the line, its bytes, the command and its response are computed. -/
theorem workedEncodingExample : Obligations.WorkedEncodingExample :=
  ⟨by decide, rfl, rfl, by decide, by decide⟩

/-- Settles O11: both spellings find one opcode, and their lines are computed to the same packets. -/
theorem bufferAliasesEncodeAlike : Obligations.BufferAliasesEncodeAlike :=
  ⟨by decide, by decide, by decide, by decide, by decide, by decide⟩

/-- Settles O49: no meaning looks at these fields, and `finish` looks at `BITOFF` only where it writes. -/
theorem ignoredEncoderFields : Obligations.IgnoredEncoderFields := by
  refine ⟨fun e he sg dst pad pad' bits bitOff p s => ?_, fun e he sg sg' dst pad bits bitOff p s => ?_,
    fun al e he sg dst pad bits bitOff bitOff' p s hdst =>
      exec_encoder_bitOff_irrelevant he sg hdst pad bits bitOff bitOff' p s,
    fun pad pad' bits p s => ⟨rfl, rfl⟩, fun pad pad' bits bitOff p s => rfl⟩
  · simp only [List.mem_cons, List.not_mem_nil, or_false] at he
    rcases he with rfl | rfl | rfl | rfl | rfl | rfl | rfl <;> rfl
  · simp only [List.mem_cons, List.not_mem_nil, or_false] at he
    rcases he with rfl | rfl | rfl | rfl <;> rfl

end Sys2Proof.Machine
end

section
/-!
PROOFS. The statements about SignWindow (40_signwindow.md). What `SW.TOWIN` and `SW.FROMWIN` answer with is said once over
all operands; neither conversion leaves the range that the response's length holds (R81), so reading the response back
gives the result exactly; and each conversion undoes the other inside its range (R84).
-/

namespace Sys2Proof.Machine

/-! ## What the two commands can answer -/

/-- What `SW.TOWIN` can answer (R81). -/
theorem exec_swTowin_eq (sg : Bool) (bits : Word) (p : Bytes) (s : State) :
    exec (.swTowin sg bits p) s =
      if Instr.fieldLegal bits p = true ∧ 1 ≤ p.length then
        if sLE p < 0 ∧ sg = false then .next (s.failed .invalidArgument)
        else .next (s.answered s.bb .ok bits.toNat
          (toBytesLE (foldedValue (sLE p) bits.toNat) (signWindowLength bits p)))
      else .next (s.failed .illegalCommand) := by
  change execSwTowin sg bits p s = _
  simp only [execSwTowin, fieldOk_eq, Bool.and_eq_true, decide_eq_true_eq, Nat.one_le_iff_ne_zero, toWindow_eq]
  by_cases h : sLE p < 0 ∧ sg = false
  · rw [if_pos h, if_pos h]; rfl
  · rw [if_neg h, if_neg h]; rfl

/-- What `SW.FROMWIN` can answer (R83). -/
theorem exec_swFromwin_eq (sg : Bool) (bits : Word) (p : Bytes) (s : State) :
    exec (.swFromwin sg bits p) s =
      if Instr.fieldLegal bits p = true ∧ 1 ≤ p.length then
        .next (s.answered s.bb .ok bits.toNat
          (toBytesLE (fromWindow (uLE p) bits.toNat sg) (signWindowLength bits p)))
      else .next (s.failed .illegalCommand) := by
  change execSwFromwin sg bits p s = _
  simp only [execSwFromwin, fieldOk_eq, Bool.and_eq_true, decide_eq_true_eq, Nat.one_le_iff_ne_zero, respond_eq,
    raise_eq]

/-! ## The length of the response holds its value -/

theorem signWindowLength_eq (bits : Word) (p : Bytes) :
    signWindowLength bits p = max p.length ((bits.toNat + 7) / 8) + 1 := rfl

/-- One byte more than a magnitude needs holds its sign as well. -/
theorem sLE_toBytesLE_succ {x : Int} {k : Nat} (hx : x.natAbs < 2 ^ (8 * k)) : sLE (toBytesLE x (k + 1)) = x := by
  have hle : 2 ^ (8 * k) ≤ 2 ^ (8 * (k + 1) - 1) := Nat.pow_le_pow_right (by decide) (by omega)
  exact sLE_toBytesLE x (k + 1) (by omega) (by omega) (by omega)

/-- The response of either command reads back as its result (R81, R83). -/
theorem sLE_toBytesLE_signWindowLength {x : Int} {bits : Word} {p : Bytes}
    (hx : ∀ m, 8 * p.length ≤ m → bits.toNat ≤ m → x.natAbs < 2 ^ m) :
    sLE (toBytesLE x (signWindowLength bits p)) = x :=
  sLE_toBytesLE_succ (hx _ (by omega) ((le_bc bits.toNat).trans (by omega)))

/-- A set sign bit makes the window positive, so that taking `2^n` away keeps it below `2^m`. -/
theorem natAbs_fromWindow_lt {W n m : Nat} (sg : Bool) (hW : W < 2 ^ m) (hn : n ≤ m) :
    (fromWindow W n sg).natAbs < 2 ^ m := by
  have hle : 2 ^ n ≤ 2 ^ m := Nat.pow_le_pow_right (by decide) hn
  unfold fromWindow
  split
  · next hsign =>
    obtain ⟨-, hbit⟩ := (Bool.and_eq_true _ _).mp hsign
    have hpos : 2 ^ (n - 1) ≤ W := Nat.ge_two_pow_of_testBit hbit
    have := Nat.two_pow_pos (n - 1)
    generalize 2 ^ n = N at *
    omega
  · omega

/-- A signed byte string is the value of its own window (R13, R82). -/
theorem sLE_eq_fromWindow (B : Bytes) : sLE B = fromWindow (uLE B) (8 * B.length) true := by
  rw [sLE_eq, fromWindow, Bool.true_and]

theorem natAbs_sLE_lt (B : Bytes) : (sLE B).natAbs < 2 ^ (8 * B.length) := by
  rw [sLE_eq_fromWindow]
  exact natAbs_fromWindow_lt true (uLE_lt B) le_rfl

/-- Folding moves only a negative value, and by no more than `2^n` (R80, R85). -/
theorem natAbs_foldedValue_lt {v : Int} {n m : Nat} (hv : v.natAbs < 2 ^ m) (hn : n ≤ m) :
    (foldedValue v n).natAbs < 2 ^ m := by
  have hle : 2 ^ n ≤ 2 ^ m := Nat.pow_le_pow_right (by decide) hn
  unfold foldedValue
  generalize 2 ^ n = N at *
  split <;> omega

/-! ## The conversions inside their ranges (R84) -/

/-- The sign bit halves the windows of a field. -/
theorem two_pow_eq_two_mul_pred {n : Nat} (hn : 1 ≤ n) : 2 ^ n = 2 * 2 ^ (n - 1) := by
  rw [← Nat.pow_succ', Nat.succ_eq_add_one, Nat.sub_add_cancel hn]

theorem representable_signed (v : Int) (n : Nat) :
    representable v n true ↔ -((2 ^ (n - 1) : Nat) : Int) ≤ v ∧ v < ((2 ^ (n - 1) : Nat) : Int) := by
  simp only [representable, if_true, Int.le_sub_one_iff]

theorem representable_unsigned (v : Int) (n : Nat) :
    representable v n false ↔ 0 ≤ v ∧ v < ((2 ^ n : Nat) : Int) := by
  simp only [representable, Bool.false_eq_true, if_false, Int.le_sub_one_iff]

theorem signedValue_signed (W n : Nat) :
    signedValue W n true = if 2 ^ (n - 1) ≤ W then (W : Int) - ((2 ^ n : Nat) : Int) else W := by
  simp only [signedValue, true_and]

theorem signedValue_unsigned (W n : Nat) : signedValue W n false = W := rfl

/-- `toWindow` accepts every representable value: an unsigned one is not negative. -/
theorem toWindow_of_representable {v : Int} {n : Nat} {sg : Bool} (hv : representable v n sg) :
    toWindow v n sg = some (foldedValue v n) := by
  rw [toWindow_eq, if_neg]
  rintro ⟨hneg, rfl⟩
  exact absurd ((representable_unsigned v n).mp hv).1 (by omega)

/-- The window of a representable value lies within `n` bits. -/
theorem foldedValue_mem_window {v : Int} {n : Nat} {sg : Bool} (hn : 1 ≤ n) (hv : representable v n sg) :
    0 ≤ foldedValue v n ∧ foldedValue v n < ((2 ^ n : Nat) : Int) := by
  have hhalf := two_pow_eq_two_mul_pred hn
  unfold foldedValue
  cases sg with
  | true => rw [representable_signed] at hv; split <;> omega
  | false => rw [representable_unsigned] at hv; split <;> omega

/-- Reading the window of a representable value gives the value. -/
theorem signedValue_foldedValue {v : Int} {W n : Nat} {sg : Bool} (hn : 1 ≤ n) (hv : representable v n sg)
    (hW : foldedValue v n = W) : signedValue W n sg = v := by
  have hhalf := two_pow_eq_two_mul_pred hn
  unfold foldedValue at hW
  cases sg with
  | true => rw [representable_signed] at hv; rw [signedValue_signed]; split at hW <;> split <;> omega
  | false => rw [representable_unsigned] at hv; rw [signedValue_unsigned]; split at hW <;> omega

/-- The value of a window within `n` bits is representable. -/
theorem representable_signedValue {W n : Nat} (sg : Bool) (hn : 1 ≤ n) (hW : W < 2 ^ n) :
    representable (signedValue W n sg) n sg := by
  have hhalf := two_pow_eq_two_mul_pred hn
  cases sg with
  | true => rw [representable_signed]; rw [signedValue_signed]; split <;> omega
  | false => rw [representable_unsigned, signedValue_unsigned]; omega

/-- Folding the value of a window gives the window. -/
theorem foldedValue_signedValue {W n : Nat} (sg : Bool) (hW : W < 2 ^ n) :
    foldedValue (signedValue W n sg) n = W := by
  unfold foldedValue
  cases sg with
  | true => rw [signedValue_signed]; split <;> split <;> omega
  | false => rw [signedValue_unsigned]; exact if_neg (by omega)

/-! ## The statements -/

/-- Settles O30: the window is below `2^(8·max(PLEN, bc(n)))` in magnitude, so one byte more holds it exactly. -/
theorem toWindowReturnsWindow : Obligations.ToWindowReturnsWindow := by
  intro sg bits p s hlegal hlen hsign
  refine ⟨_, ?_, by rw [length_toBytesLE, signWindowLength_eq],
    sLE_toBytesLE_signWindowLength fun m hp hn => natAbs_foldedValue_lt
      ((natAbs_sLE_lt p).trans_le (Nat.pow_le_pow_right (by decide) hp)) hn⟩
  have hok : ¬(sLE p < 0 ∧ sg = false) := fun ⟨hneg, hunsigned⟩ =>
    hsign.elim (fun hnonneg => by omega) (fun hsigned => by simp [hsigned] at hunsigned)
  rw [exec_swTowin_eq, if_pos ⟨hlegal, hlen⟩, if_neg hok]

/-- Settles O31: no bit above the window makes the result longer than the payload, and the sign bit is bit `n − 1`. -/
theorem fromWindowReturnsValue : Obligations.FromWindowReturnsValue := by
  intro sg bits p s hlegal hlen
  refine ⟨_, by rw [exec_swFromwin_eq, if_pos ⟨hlegal, hlen⟩], by rw [length_toBytesLE, signWindowLength_eq], ?_⟩
  rw [sLE_toBytesLE_signWindowLength fun m hp hn => natAbs_fromWindow_lt sg
    ((uLE_lt p).trans_le (Nat.pow_le_pow_right (by decide) hp)) hn]
  simp [fromWindow, Nat.testBit_eq_decide_div_mod_eq]

/-- Settles O32: on representable values and on windows the conversions are `foldedValue` and `signedValue`, each of which
undoes the other. -/
theorem windowConversionsAreInverse : Obligations.WindowConversionsAreInverse := by
  intro n sg hn
  refine ⟨fun v hv => ?_, fun W hW => ?_⟩
  · obtain ⟨hlo, hhi⟩ := foldedValue_mem_window hn hv
    obtain ⟨W, hfold⟩ := Int.eq_ofNat_of_zero_le hlo
    have hW : W < 2 ^ n := by omega
    refine ⟨W, by rw [toWindow_of_representable hv, hfold], hW, ?_, ?_⟩
    · have hmod := foldedValue_emod v n
      rw [Int.emod_eq_of_lt hlo hhi, hfold] at hmod
      exact_mod_cast hmod
    · rw [fromWindow_eq W n sg hW, signedValue_foldedValue hn hv hfold]
  · rw [fromWindow_eq W n sg hW, toWindow_of_representable (representable_signedValue sg hn hW),
      foldedValue_signedValue sg hW]

end Sys2Proof.Machine
end

section
/-!
PROOFS. The statements about BitReversal (41_bitreversal.md). Each reversal is given by position, and a byte is the number
of its own wire bits, so a reflected byte is the number of the given byte's bits taken from bit 0 on.
-/

namespace Sys2Proof.Machine

/-! ## What the two commands can answer -/

/-- What `BR.RBITS` answers to a payload of one byte (R91). -/
theorem exec_brRbits_singleton (b : Byte) (s : State) :
    exec (.brRbits [b]) s = .next (s.answered s.bb .ok 8 [reverseBits b]) := rfl

/-- What `BR.RBYTES` can answer (R92). -/
theorem exec_brRbytes_eq (p : Bytes) (s : State) :
    exec (.brRbytes p) s =
      if Instr.payloadLegal p = true then .next (s.answered s.bb .ok (8 * p.length) (reverseBytes p))
      else .next (s.failed .illegalCommand) := by
  change execBrRbytes p s = _
  rw [execBrRbytes, fitsMaxIn_eq, respond_eq, raise_eq]
  rfl

/-! ## Reflecting a byte -/

/-- The first eight wire bits of a byte are its bits from bit 7 down (R36). -/
theorem wireBit_singleton (b : Byte) {i : Nat} (hi : i < 8) : wireBit [b] i = b.getLsbD (7 - i) := by
  simp only [wireBit, Nat.div_eq_of_lt hi, Nat.mod_eq_of_lt hi, List.getD_cons_zero]

/-- A byte is the number of its own eight wire bits (R11, R36). -/
theorem toNat_eq_windowAt (b : Byte) : b.toNat = windowAt [b] 0 8 := by
  apply Nat.eq_of_testBit_eq
  intro i
  rw [windowAt_testBit, BitVec.testBit_toNat]
  by_cases hi : i < 8
  · rw [wireBit_singleton b (by omega), show 7 - (0 + (8 - 1 - i)) = i by omega, decide_eq_true hi, Bool.true_and]
  · rw [decide_eq_false hi, Bool.false_and, BitVec.getLsbD_of_ge b i (by omega)]

theorem reverseBits_getLsbD_of_lt (b : Byte) {j : Nat} (hj : j < 8) :
    (reverseBits b).getLsbD j = b.getLsbD (7 - j) := by
  rw [reverseBits_getLsbD, decide_eq_true hj, Bool.true_and]

/-- The wire bits of a reflected byte are the bits of the byte from bit 0 on. -/
theorem wireBit_reverseBits (b : Byte) {i : Nat} (hi : i < 8) : wireBit [reverseBits b] i = b.getLsbD i := by
  rw [wireBit_singleton _ hi, reverseBits_getLsbD_of_lt b (by omega), show 7 - (7 - i) = i by omega]

/-- `r = Σ b[j]·2^(7−j)` (R91). -/
theorem reverseBits_toNat (b : Byte) :
    (reverseBits b).toNat = ((List.range 8).map fun j => (b.getLsbD j).toNat * 2 ^ (7 - j)).sum := by
  rw [toNat_eq_windowAt, windowAt]
  refine congrArg List.sum (List.map_congr_left fun j hj => ?_)
  rw [Nat.zero_add, wireBit_reverseBits b (List.mem_range.mp hj)]

theorem reverseBits_reverseBits (b : Byte) : reverseBits (reverseBits b) = b := by
  apply BitVec.eq_of_getLsbD_eq
  intro j hj
  rw [reverseBits_getLsbD_of_lt _ hj, reverseBits_getLsbD_of_lt b (by omega), show 7 - (7 - j) = j by omega]

/-! ## Reversing a sequence -/

@[simp] theorem length_reverseBytes (B : Bytes) : (reverseBytes B).length = B.length := List.length_reverse

theorem reverseBytes_getElem? (B : Bytes) {k : Nat} (hk : k < B.length) :
    (reverseBytes B)[k]? = B[B.length - 1 - k]? := List.getElem?_reverse hk

theorem reverseBytes_reverseBytes (B : Bytes) : reverseBytes (reverseBytes B) = B := List.reverse_reverse B

/-! ## The statements -/

/-- Settles O34: the byte answered is `reverseBits` of the payload's one byte, whatever the state. -/
theorem reverseBitsReflectsByte : Obligations.ReverseBitsReflectsByte := by
  intro b s
  exact ⟨reverseBits b, exec_brRbits_singleton b s, fun _ hj => reverseBits_getLsbD_of_lt b hj, reverseBits_toNat b⟩

/-- Settles O35: a legal payload is answered with its `reverseBytes`, the empty one too. -/
theorem reverseBytesReversesOrder : Obligations.ReverseBytesReversesOrder := by
  intro p s hlegal
  refine ⟨reverseBytes p, ?_, length_reverseBytes p, fun _ hk => reverseBytes_getElem? p hk⟩
  rw [exec_brRbytes_eq, if_pos hlegal]

/-- Settles O36: position `7 − j`, or `len − 1 − k`, taken twice is the position itself. -/
theorem reversalsAreInvolutions : Obligations.ReversalsAreInvolutions :=
  ⟨reverseBits_reverseBits, reverseBytes_reverseBytes⟩

end Sys2Proof.Machine
end

section
/-!
PROOFS. The statements about the Partitioner (42_partitioner.md). Chunks are read by position: bit `j` of chunk `k` of a
partition is bit `k·c + j` of the sequence. A payload's chunk list is the partition of the sequence it carries, so what
`PT.FLAT` and `PT.PACK` do to chunks is a fact about partitions too.
-/

namespace Sys2Proof.Machine

/-! ## What the three commands can answer -/

/-- What `PT.PART` can answer (R97). -/
theorem exec_ptPart_eq (c : Byte) (bits : Word) (p : Bytes) (s : State) :
    exec (.ptPart c bits p) s =
      if (Instr.ptPart c bits p).legal = true then
        .next (s.answered s.bb .ok bits.toNat
          (chunksToBytes c.toNat (partition c.toNat (bitsOfBytes p bits.toNat))))
      else .next (s.failed .illegalCommand) := by
  change execPtPart c bits p s = _
  rw [execPtPart, sequenceOk_eq]
  rfl

/-- What `PT.FLAT` can answer (R98). -/
theorem exec_ptFlat_eq (c : Byte) (bits : Word) (p : Bytes) (s : State) :
    exec (.ptFlat c bits p) s =
      if (Instr.ptFlat c bits p).legal = true then
        .next (s.answered s.bb .ok bits.toNat (bitsToBytes (flatten (chunksOfBytes c.toNat bits.toNat p))))
      else .next (s.failed .illegalCommand) := by
  change execPtFlat c bits p s = _
  rw [execPtFlat, sequenceOk_eq]
  rfl

/-- What `PT.PACK` can answer (R99). -/
theorem exec_ptPack_eq (rv : Bool) (c : Byte) (bits : Word) (p : Bytes) (s : State) :
    exec (.ptPack rv c bits p) s =
      if (Instr.ptPack rv c bits p).legal = true then
        .next (s.answered s.bb .ok bits.toNat (pack (chunksOfBytes c.toNat bits.toNat p) rv))
      else .next (s.failed .illegalCommand) := by
  change execPtPack rv c bits p s = _
  rw [execPtPack, sequenceOk_eq]
  rfl

/-- A sequence command is illegal with `CHUNK = 0` (R66 (d)). -/
theorem one_le_chunk_of_sequenceLegal {c : Byte} {bits : Word} {p : Bytes}
    (h : Instr.sequenceLegal c bits p = true) : 1 ≤ c.toNat := by
  rw [← sequenceOk_eq] at h
  simp only [sequenceOk, Bool.and_eq_true, decide_eq_true_eq] at h
  obtain ⟨⟨hc, -⟩, -⟩ := h
  omega

/-! ## Bits of a byte sequence by position -/

/-- Bit `8k + j` of a byte sequence is bit `j` of byte `k` (R13). -/
theorem leBit_byte (B : Bytes) (k : Nat) {j : Nat} (hj : j < 8) :
    leBit B (8 * k + j) = (B.getD k 0).getLsbD j := by
  rw [leBit, show (8 * k + j) / 8 = k by omega, show (8 * k + j) % 8 = j by omega]

theorem leBit_append (A B : Bytes) (i : Nat) :
    leBit (A ++ B) i = if i < 8 * A.length then leBit A i else leBit B (i - 8 * A.length) := by
  simp only [← bitsLE_getD, ← length_bitsLE]
  have happ : bitsLE (A ++ B) = bitsLE A ++ bitsLE B := List.flatMap_append
  rw [happ]
  split
  next h => exact List.getD_append _ _ _ _ h
  next h => exact List.getD_append_right _ _ _ _ (by omega)

theorem leBit_drop_take (P : Bytes) (d m j : Nat) :
    leBit ((P.drop d).take m) j = (decide (j < 8 * m) && leBit P (8 * d + j)) := by
  have hdiv : (8 * d + j) / 8 = d + j / 8 := by omega
  have hmod : (8 * d + j) % 8 = j % 8 := by omega
  rw [leBit, leBit, hdiv, hmod]
  by_cases h : j / 8 < m
  · rw [decide_eq_true (by omega)]
    simp [List.getD_eq_getElem?_getD, h]
  · rw [decide_eq_false (by omega)]
    simp [List.getD_eq_getElem?_getD, h]

theorem bitsOfBytes_getD (P : Bytes) (n i : Nat) :
    (bitsOfBytes P n).getD i false = (decide (i < n) && leBit P i) := by
  rw [bitsOfBytes, fit_getD, bitsLE_getD]

@[simp] theorem length_bitsOfBytes (P : Bytes) (n : Nat) : (bitsOfBytes P n).length = n := length_fit _ _

/-! ## Chunks of a sequence (R97) -/

/-- Chunk `k` exists exactly where its first bit does. -/
theorem lt_ceilDiv_iff {c : Nat} (hc : 1 ≤ c) (L k : Nat) : k < ceilDiv L c ↔ k * c < L := by
  have hle : ceilDiv L c ≤ k ↔ L ≤ c * k := ceilDiv_le_iff_le_mul hc
  rw [← not_le, hle, not_le, Nat.mul_comm]

theorem partition_getD_getD {c : Nat} (hc : 1 ≤ c) (s : Bits) (k j : Nat) :
    ((partition c s).getD k []).getD j false = (decide (j < c) && s.getD (k * c + j) false) := by
  by_cases hk : k < ceilDiv s.length c
  · have hchunk : (partition c s).getD k [] = (s.drop (k * c)).take c := by
      rw [List.getD_eq_getElem?_getD, partition_getElem? c s k hk, Option.getD_some]
    rw [hchunk, drop_take_getD]
  · have hend : s.length ≤ k * c := not_lt.mp fun h => hk ((lt_ceilDiv_iff hc _ _).mpr h)
    rw [List.getD_eq_default (partition c s) _ (by simpa using hk), List.getD_eq_default s _ (by omega)]
    simp

theorem partition_nil {c : Nat} (hc : 1 ≤ c) : partition c [] = [] := by
  have hlen : ceilDiv 0 c = 0 := Nat.div_eq_of_lt (by omega)
  simp [partition, hlen]

/-- A whole chunk at the front of a sequence is its first chunk. -/
theorem partition_append {c : Nat} (hc : 1 ≤ c) {chunk : Bits} (hchunk : chunk.length = c) (s : Bits) :
    partition c (chunk ++ s) = chunk :: partition c s := by
  have hlen : ceilDiv (chunk ++ s).length c = ceilDiv s.length c + 1 := by
    rw [List.length_append, hchunk, ceilDiv, show c + s.length + c - 1 = s.length + c - 1 + c by omega,
      Nat.add_div_right _ hc, ceilDiv]
  rw [partition, hlen, List.range_succ_eq_map, List.map_cons, List.map_map, partition]
  congr 1
  · simp [hchunk]
  · refine List.map_congr_left fun k _ => ?_
    have hskip : (k + 1) * c = chunk.length + k * c := by rw [hchunk, Nat.succ_mul, Nat.add_comm]
    rw [Function.comp, Nat.succ_eq_add_one, hskip, List.drop_length_add_append]

/-- A short last chunk is a sequence's only chunk. -/
theorem partition_of_length_le {c : Nat} {s : Bits} (hpos : 1 ≤ s.length) (hle : s.length ≤ c) :
    partition c s = [s] := by
  have hlen : ceilDiv s.length c = 1 := Nat.div_eq_of_lt_le (by omega) (by omega)
  simp [partition, hlen, List.take_of_length_le hle]

/-- Splitting and joining gives the sequence back (R100), chunk by chunk from the front. -/
theorem flatten_partition {c : Nat} (hc : 1 ≤ c) (s : Bits) : flatten (partition c s) = s := by
  induction hn : s.length using Nat.strong_induction_on generalizing s with
  | _ n ih =>
    rcases Nat.eq_zero_or_pos s.length with hzero | hpos
    · rw [List.length_eq_zero_iff.mp hzero, partition_nil hc]
      rfl
    rcases Nat.le_total s.length c with hle | hge
    · simp [partition_of_length_le hpos hle, flatten]
    · have hrest := ih (s.drop c).length (by rw [List.length_drop]; omega) (s.drop c) rfl
      calc flatten (partition c s)
          = flatten (partition c (s.take c ++ s.drop c)) := by rw [List.take_append_drop]
        _ = s.take c ++ flatten (partition c (s.drop c)) := by
          rw [partition_append hc (by simpa using hge)]
          rfl
        _ = s := by rw [hrest, List.take_append_drop]

/-- Joining and splitting gives the chunks back, all whole but the last (R100). -/
theorem partition_flatten {c : Nat} (hc : 1 ≤ c) {init : List Bits} (hinit : ∀ x ∈ init, x.length = c)
    {last : Bits} (hpos : 1 ≤ last.length) (hle : last.length ≤ c) :
    partition c (flatten (init ++ [last])) = init ++ [last] := by
  induction init with
  | nil => simpa [flatten] using partition_of_length_le hpos hle
  | cons chunk init ih =>
    obtain ⟨hchunk, hinit⟩ := List.forall_mem_cons.mp hinit
    have hrest := ih hinit
    simp only [flatten, List.cons_append, List.flatten_cons] at hrest ⊢
    rw [partition_append hc hchunk, hrest]

/-! ## Chunk lists in payloads and responses (R96) -/

theorem bc_eight_mul (n : Nat) : bc (8 * n) = n := by rw [bc_eq]; omega

theorem length_chunksToBytes (c : Nat) (chunks : List Bits) :
    (chunksToBytes c chunks).length = chunks.length * bc c := by
  simp [chunksToBytes, List.length_flatMap, bc_eight_mul]

/-- Bit `j` of the `bc(c)` bytes of chunk `k` is bit `j` of the chunk, or 0 past its end (R96). -/
theorem chunksToBytes_leBit (c : Nat) (chunks : List Bits) (k : Nat) {j : Nat} (hj : j < 8 * bc c) :
    leBit (chunksToBytes c chunks) (8 * bc c * k + j) = (chunks.getD k []).getD j false := by
  induction chunks generalizing k with
  | nil => simp [chunksToBytes]
  | cons chunk chunks ih =>
    have hcons : chunksToBytes c (chunk :: chunks) =
        bitsToBytes (fit chunk (8 * bc c)) ++ chunksToBytes c chunks := rfl
    rw [hcons, leBit_append, length_bitsToBytes, length_fit, bc_eight_mul]
    cases k with
    | zero =>
      rw [Nat.mul_zero, Nat.zero_add, if_pos hj, bitsToBytes_leBit, fit_getD, decide_eq_true hj, Bool.true_and,
        List.getD_cons_zero]
    | succ k =>
      rw [Nat.mul_succ, if_neg (by omega), List.getD_cons_succ, ← ih]
      congr 1
      omega

/-- The bit sequence whose chunks a payload carries: bit `i` is bit `i mod c` of chunk `floor(i/c)` (R96). -/
def carriedBits (c L : Nat) (P : Bytes) : Bits :=
  (List.range L).map fun i => leBit P (8 * bc c * (i / c) + i % c)

@[simp] theorem length_carriedBits (c L : Nat) (P : Bytes) : (carriedBits c L P).length = L := by
  simp [carriedBits]

theorem carriedBits_getD (c L : Nat) (P : Bytes) (i : Nat) :
    (carriedBits c L P).getD i false = (decide (i < L) && leBit P (8 * bc c * (i / c) + i % c)) := by
  by_cases h : i < L <;> simp [carriedBits, List.getD_eq_getElem?_getD, h]

/-- A chunk holds `c` bits, or what is left of the sequence (R96). -/
theorem chunkLen_eq_min {c : Nat} (hc : 1 ≤ c) (L k : Nat) : chunkLen c L k = min c (L - k * c) := by
  have hnext := lt_ceilDiv_iff hc L (k + 1)
  rw [Nat.succ_mul] at hnext
  rw [chunkLen]
  split <;> omega

/-- The chunk list of a payload is the partition of the sequence it carries; filler bits are dropped (R96, R97). -/
theorem chunksOfBytes_eq_partition {c : Nat} (hc : 1 ≤ c) (L : Nat) (P : Bytes) :
    chunksOfBytes c L P = partition c (carriedBits c L P) := by
  rw [chunksOfBytes, partition, length_carriedBits]
  refine List.map_congr_left fun k _ => eq_of_getD ?_ fun j hj => ?_
  · simp [chunkLen_eq_min hc]
  · rw [length_bitsOfBytes] at hj
    have hmin := chunkLen_eq_min hc L k
    have hbc := le_bc c
    have hdiv : (k * c + j) / c = k := by
      rw [Nat.mul_comm, Nat.mul_add_div hc, Nat.div_eq_of_lt (by omega), Nat.add_zero]
    have hmod : (k * c + j) % c = j := by
      rw [Nat.mul_comm, Nat.mul_add_mod, Nat.mod_eq_of_lt (by omega)]
    rw [bitsOfBytes_getD, leBit_drop_take, drop_take_getD, carriedBits_getD, hdiv, hmod, decide_eq_true hj,
      decide_eq_true (show j < 8 * bc c by omega), decide_eq_true (show j < c by omega),
      decide_eq_true (show k * c + j < L by omega), Nat.mul_comm k, Nat.mul_assoc]

theorem chunksOfBytes_getD_getD {c : Nat} (hc : 1 ≤ c) (L : Nat) (P : Bytes) (k j : Nat) :
    ((chunksOfBytes c L P).getD k []).getD j false =
      (decide (j < c ∧ k * c + j < L) && leBit P (8 * bc c * k + j)) := by
  rw [chunksOfBytes_eq_partition hc, partition_getD_getD hc, carriedBits_getD, Bool.decide_and, Bool.and_assoc]
  by_cases hj : j < c
  · rw [Nat.mul_comm k, Nat.mul_add_div hc, Nat.mul_add_mod, Nat.div_eq_of_lt hj, Nat.mod_eq_of_lt hj, Nat.add_zero]
  · simp [hj]

theorem flatten_chunksOfBytes {c : Nat} (hc : 1 ≤ c) (L : Nat) (P : Bytes) :
    flatten (chunksOfBytes c L P) = carriedBits c L P := by
  rw [chunksOfBytes_eq_partition hc, flatten_partition hc]

/-! ## Packing (R99, R101) -/

theorem pack_getD (chunks : List Bits) (rv : Bool) {k : Nat} (hk : k < chunks.length) :
    (pack chunks rv).getD k 0 = packChunk rv (chunks.getD k []) := by
  simp [pack, List.getD_eq_getElem?_getD, hk]

/-- Bit `j` of a chunk stands at position `7 − j` or `j` of its byte, as `RV` says (R99). -/
theorem packChunk_getLsbD_place (rv : Bool) (chunk : Bits) {j : Nat} (hj : j < 8) :
    (packChunk rv chunk).getLsbD (if rv = true then 7 - j else j) = chunk.getD j false := by
  rw [packChunk_getLsbD]
  cases rv with
  | false => simp [hj]
  | true => simp [show 7 - j < 8 by omega, show 7 - (7 - j) = j by omega]

/-- The two packings of one chunk are reversals of each other (R101). -/
theorem packChunk_true_eq (chunk : Bits) : packChunk true chunk = reverseBits (packChunk false chunk) := by
  apply BitVec.eq_of_getLsbD_eq
  intro j hj
  have hj' : 7 - j < 8 := by omega
  have htrue := packChunk_getLsbD_place true chunk hj'
  rw [if_pos rfl, show 7 - (7 - j) = j by omega] at htrue
  rw [reverseBits_getLsbD_of_lt _ hj, htrue]
  exact (packChunk_getLsbD_place false chunk hj').symm

/-! ## The statements -/

/-- Settles O37: a chunk's bytes hold the chunk and zeros, and the chunk is cut out of the payload's sequence. -/
theorem partitionSplitsSequence : Obligations.PartitionSplitsSequence := by
  intro c bits p s hlegal
  obtain ⟨hseq, -⟩ := (Bool.and_eq_true _ _).mp hlegal
  have hc : 1 ≤ c.toNat := one_le_chunk_of_sequenceLegal hseq
  refine ⟨_, (exec_ptPart_eq c bits p s).trans (if_pos hlegal), ?_, fun k _ j hj => ?_⟩
  · rw [length_chunksToBytes, length_partition, length_bitsOfBytes, ceilDiv, bc_eq]
  · refine (chunksToBytes_leBit c.toNat _ k hj).trans ?_
    rw [partition_getD_getD hc, bitsOfBytes_getD, Bool.decide_and, Bool.and_assoc]

/-- Settles O38: joining the payload's chunks gives the sequence they are the partition of. -/
theorem flattenJoinsChunks : Obligations.FlattenJoinsChunks := by
  intro c bits p s hlegal
  obtain ⟨hseq, -⟩ := (Bool.and_eq_true _ _).mp hlegal
  have hc : 1 ≤ c.toNat := one_le_chunk_of_sequenceLegal hseq
  refine ⟨_, (exec_ptFlat_eq c bits p s).trans (if_pos hlegal), ?_, fun i _ => ?_⟩
  · rw [flatten_chunksOfBytes hc, length_bitsToBytes, length_carriedBits, bc_eq]
  · rw [flatten_chunksOfBytes hc, bitsToBytes_leBit, carriedBits_getD, bc_eq]

/-- Settles O39: chunks of at most 8 bits take one byte each in the payload and in the response. -/
theorem packPlacesChunkBits : Obligations.PackPlacesChunkBits := by
  intro rv c bits p s hlegal
  obtain ⟨hseq, -⟩ := (Bool.and_eq_true _ _).mp hlegal
  obtain ⟨hsequence, hc8⟩ := (Bool.and_eq_true _ _).mp hseq
  have hc : 1 ≤ c.toNat := one_le_chunk_of_sequenceLegal hsequence
  have hbc : bc c.toNat = 1 := by
    have := of_decide_eq_true hc8
    rw [bc_eq]
    omega
  refine ⟨_, (exec_ptPack_eq rv c bits p s).trans (if_pos hlegal), ?_, fun k hk j hj => ?_⟩
  · simp [chunksOfBytes, ceilDiv]
  · rw [length_pack] at hk
    rw [pack_getD _ rv hk, packChunk_getLsbD_place rv _ hj, chunksOfBytes_getD_getD hc, hbc, Nat.mul_one,
      leBit_byte p k hj]

/-- Settles O40: both inverses, by taking whole chunks off the front. -/
theorem partitionFlattenInverse : Obligations.PartitionFlattenInverse := by
  intro c hc
  exact ⟨flatten_partition hc, partition_nil hc, fun _ _ hinit hpos hle => partition_flatten hc hinit hpos hle⟩

/-- Settles O41: the packings differ chunk by chunk, and a message packed with `RV = 1` holds bit `i` at wire position
`i`, so reading it least significant bit first reverses every whole group of eight. -/
theorem mismatchedPackingsReverseBytes : Obligations.MismatchedPackingsReverseBytes := by
  refine ⟨fun chunks => ?_, fun s k j hk hj => ?_⟩
  · rw [pack, pack, List.map_map]
    exact List.map_congr_left fun chunk _ => packChunk_true_eq chunk
  · have hlen : 8 * k + j < (bitsLE (pack (partition 8 s) true)).length := by
      have := le_bc s.length
      rw [length_bitsLE, length_message]
      omega
    rw [getElem?_eq_some_getD hlen, getElem?_eq_some_getD (show 8 * k + (7 - j) < s.length by omega), bitsLE_getD,
      leBit_byte _ k hj, pack_getLsbD s true k j hj, if_pos rfl]

end Sys2Proof.Machine
end

section
/-!
PROOFS. The statements about the encoders (43_encoders.md). A legal typed encoder makes a chunk of its value, or refuses
the value, and stores the field bits of the chunk (`exec_encoder_of_legal`, `exec_encoder_answersField`); the chunk does
not depend on the buffer, on `DST` or on `BITOFF`. What is left for each type is the number its chunk holds.
-/

namespace Sys2Proof.Machine

/-! ## What a typed encoder can answer -/

/-- The chunk that a typed encoder makes of its value; `none` where it refuses the value (R108, R115 to R118). -/
def encodedChunk : Instr → Option Bytes
  | .encByte sg _ _ bits _ p | .encShort sg _ _ bits _ p | .encInt sg _ _ bits _ p | .encLong sg _ _ bits _ p
  | .encBigint sg _ _ bits _ p => chunkInt (sLE p) bits.toNat sg
  | .encFloat _ _ _ bits _ p | .encDouble _ _ _ bits _ p => some (toBytesLE (uLE p) (bc bits.toNat))
  | .encBytes _ al _ pad bits _ p => some (chunkBytes p bits.toNat al pad)
  | .encBcd sg al _ pad bits _ p =>
      (bcdWindow p (bits.toNat / 4) sg al pad).map fun W => toBytesLE W (bc (4 * (bits.toNat / 4)))
  | _ => none

/-- An encoder behind its legality checks: the value first, then the room (R121). -/
def encoderReply (chunk : Option Bytes) (dst : Dst) (eff off : Nat) (s : State) : Host.Outcome State Fault Refusal :=
  match chunk with
  | some q => finish dst q eff off s
  | none => raise .invalidArgument s

section
variable {dst : Dst} {bits : Word} {p : Bytes} (sg : Bool) (al : Align) (pad : Byte) (bitOff : Word) (s : State)

theorem encodeInteger_of_legal {lengthOk : Bool} (h : (Instr.encoderLegal dst bits p && lengthOk) = true) :
    encodeInteger lengthOk sg dst bits bitOff p s =
      encoderReply (chunkInt (sLE p) bits.toNat sg) dst bits.toNat bitOff.toNat s := by
  rw [encodeInteger, encoderOk_eq, if_pos h]
  rfl

theorem encodePattern_of_legal {lengthOk : Bool} (h : (Instr.encoderLegal dst bits p && lengthOk) = true) :
    encodePattern lengthOk dst bits bitOff p s =
      encoderReply (some (toBytesLE (uLE p) (bc bits.toNat))) dst bits.toNat bitOff.toNat s := by
  rw [encodePattern, encoderOk_eq, if_pos h]
  rfl

theorem execEncBytes_of_legal (h : Instr.encoderLegal dst bits p = true) :
    execEncBytes sg al dst pad bits bitOff p s =
      encoderReply (some (chunkBytes p bits.toNat al pad)) dst bits.toNat bitOff.toNat s := by
  rw [execEncBytes, encoderOk_eq, if_pos h]
  rfl

theorem execEncBcd_of_legal (h : (Instr.encoderLegal dst bits p && decide (p.length ≤ bits.toNat / 4)) = true) :
    execEncBcd sg al dst pad bits bitOff p s =
      encoderReply ((bcdWindow p (bits.toNat / 4) sg al pad).map fun W => toBytesLE W (bc (4 * (bits.toNat / 4))))
        dst (4 * (bits.toNat / 4)) bitOff.toNat s := by
  rw [execEncBcd, encoderOk_eq, if_pos h]
  cases bcdWindow p (bits.toNat / 4) sg al pad <;> rfl

end

section
variable {al : Align} {e : Bool → Dst → Byte → Word → Word → Bytes → Instr} (he : e ∈ typedEncoders al)
variable {sg : Bool} {dst : Dst} {pad : Byte} {bits bitOff : Word} {p : Bytes} {s : State}
include he

/-- What a typed encoder can answer where the command is legal (R109, R121). -/
theorem exec_encoder_of_legal (hlegal : (e sg dst pad bits bitOff p).legal = true) (s : State) :
    exec (e sg dst pad bits bitOff p) s =
      encoderReply (encodedChunk (e sg dst pad bits bitOff p)) dst (fieldSize (e sg dst pad bits bitOff p))
        bitOff.toNat s := by
  simp only [typedEncoders, List.mem_cons, List.not_mem_nil, or_false] at he
  rcases he with rfl | rfl | rfl | rfl | rfl | rfl | rfl | rfl | rfl
  iterate 5 exact encodeInteger_of_legal sg bitOff s hlegal
  iterate 2 exact encodePattern_of_legal bitOff s hlegal
  · exact execEncBytes_of_legal sg al pad bitOff s hlegal
  · exact execEncBcd_of_legal sg al pad bitOff s hlegal

/-- A legal encoder passes the checks that all encoders make (R58, R66). -/
theorem encoderLegal_of_legal (hlegal : (e sg dst pad bits bitOff p).legal = true) :
    Instr.encoderLegal dst bits p = true := by
  simp only [typedEncoders, List.mem_cons, List.not_mem_nil, or_false] at he
  rcases he with rfl | rfl | rfl | rfl | rfl | rfl | rfl | rfl | rfl
  iterate 7 exact ((Bool.and_eq_true _ _).mp hlegal).1
  · exact hlegal
  · exact ((Bool.and_eq_true _ _).mp hlegal).1

/-- `eff ≤ BITSIZE` (R107). -/
theorem fieldSize_le_bits (sg : Bool) (dst : Dst) (pad : Byte) (bits bitOff : Word) (p : Bytes) :
    fieldSize (e sg dst pad bits bitOff p) ≤ bits.toNat := by
  simp only [typedEncoders, List.mem_cons, List.not_mem_nil, or_false] at he
  rcases he with rfl | rfl | rfl | rfl | rfl | rfl | rfl | rfl | rfl
  iterate 8 exact le_rfl
  · exact Nat.mul_div_le bits.toNat 4

/-- Neither the chunk, nor the size of its field, nor legality depends on which of the three destinations is chosen
(R109). -/
theorem encoder_dst_irrelevant (hdst : dst ≠ .reserved) (sg : Bool) (pad : Byte) (bits bitOff : Word) (p : Bytes) :
    encodedChunk (e sg dst pad bits bitOff p) = encodedChunk (e sg .none pad bits bitOff p) ∧
      fieldSize (e sg dst pad bits bitOff p) = fieldSize (e sg .none pad bits bitOff p) ∧
      (e sg dst pad bits bitOff p).legal = (e sg .none pad bits bitOff p).legal := by
  have hlegal : Instr.encoderLegal dst bits p = Instr.encoderLegal .none bits p := by
    rw [Instr.encoderLegal, Instr.encoderLegal, decide_eq_true hdst]
    rfl
  simp only [typedEncoders, List.mem_cons, List.not_mem_nil, or_false] at he
  rcases he with rfl | rfl | rfl | rfl | rfl | rfl | rfl | rfl | rfl <;>
    exact ⟨rfl, rfl, by simp only [Instr.legal, hlegal]⟩

/-- A legal encoder that refuses its value answers `INVALID_ARGUMENT`, whatever the room (R121, R156). -/
theorem exec_encoder_invalidArgument (hlegal : (e sg dst pad bits bitOff p).legal = true)
    (hchunk : encodedChunk (e sg dst pad bits bitOff p) = none) (s : State) :
    exec (e sg dst pad bits bitOff p) s = .next (s.failed .invalidArgument) := by
  rw [exec_encoder_of_legal he hlegal, hchunk]
  rfl

/-- A legal encoder that accepts its value stores the field bits of its chunk, where there is room (R107, R109). -/
theorem exec_encoder_answersField (hlegal : (e sg dst pad bits bitOff p).legal = true) {q : Bytes}
    (hchunk : encodedChunk (e sg dst pad bits bitOff p) = some q) (s : State) :
    answersField (exec (e sg dst pad bits bitOff p) s) s dst bitOff.toNat (fieldSize (e sg dst pad bits bitOff p))
      (fieldBits (uLE q) (fieldSize (e sg dst pad bits bitOff p))) q := by
  have hdst := dst_ne_reserved (encoderLegal_of_legal he hlegal)
  rw [exec_encoder_of_legal he hlegal, hchunk, encoderReply, finish_eq, if_neg hdst]
  exact ⟨fun hroom => if_pos hroom, fun hroom => if_neg (by simp [hroom])⟩

/-- What an encoder that is answered `OK` was and did (R109). -/
theorem exec_encoder_ok {t : State} (hexec : exec (e sg dst pad bits bitOff p) s = .next t)
    (hok : t.lastStatus = some .ok) :
    (e sg dst pad bits bitOff p).legal = true ∧ ∃ q, encodedChunk (e sg dst pad bits bitOff p) = some q ∧
      t = s.answered (storedBuffer dst s.bb bitOff.toNat (fieldBits (uLE q) (fieldSize (e sg dst pad bits bitOff p))))
        .ok (fieldSize (e sg dst pad bits bitOff p)) q := by
  have hfailed (st : Status) (hst : st ≠ .ok) : exec (e sg dst pad bits bitOff p) s ≠ .next (s.failed st) := by
    intro hfail
    cases hexec.symm.trans hfail
    rw [failed_lastStatus] at hok
    exact hst (Option.some.inj hok)
  have hlegal : (e sg dst pad bits bitOff p).legal = true := by
    refine Bool.eq_true_of_not_eq_false fun hillegal => ?_
    exact hfailed .illegalCommand (by decide) ((illegalExactlyWhereUndefined _ s).1 hillegal)
  cases hchunk : encodedChunk (e sg dst pad bits bitOff p) with
  | none => exact absurd (exec_encoder_invalidArgument he hlegal hchunk s) (hfailed .invalidArgument (by decide))
  | some q =>
    obtain ⟨hroom, hfull⟩ := exec_encoder_answersField he hlegal hchunk s
    cases hfits : roomFor dst s.bb bitOff.toNat (fieldSize (e sg dst pad bits bitOff p)) with
    | false => exact absurd (hfull hfits) (hfailed .capacity (by decide))
    | true => exact ⟨hlegal, q, rfl, Host.Outcome.next.inj (hexec.symm.trans (hroom hfits))⟩

end

/-! ## The integer and pattern encoders (R108 to R116) -/

/-- What `toBytesLE` writes, as an integer (R13). -/
theorem uLE_toBytesLE_cast (x : Int) (n : Nat) : (uLE (toBytesLE x n) : Int) = x % 2 ^ (8 * n) := by
  have hpos : (0 : Int) < 2 ^ (8 * n) := by positivity
  rw [uLE_toBytesLE]
  push_cast
  exact Int.toNat_of_nonneg (Int.emod_nonneg x hpos.ne')

/-- The five integer encoders (R110 to R114). -/
def integerEncoders : List (Bool → Dst → Byte → Word → Word → Bytes → Instr) :=
  [.encByte, .encShort, .encInt, .encLong, .encBigint]

/-- The two floating-point encoders (R115, R116). -/
def patternEncoders : List (Bool → Dst → Byte → Word → Word → Bytes → Instr) := [.encFloat, .encDouble]

section
variable {e : Bool → Dst → Byte → Word → Word → Bytes → Instr} (al : Align)
variable (sg : Bool) (dst : Dst) (pad : Byte) (bits bitOff : Word) (p : Bytes)

theorem mem_typedEncoders_of_integer (he : e ∈ integerEncoders) : e ∈ typedEncoders al := by
  simp only [integerEncoders, typedEncoders, List.mem_cons, List.not_mem_nil, or_false] at he ⊢
  tauto

theorem mem_typedEncoders_of_pattern (he : e ∈ patternEncoders) : e ∈ typedEncoders al := by
  simp only [patternEncoders, typedEncoders, List.mem_cons, List.not_mem_nil, or_false] at he ⊢
  tauto

/-- The integer encoders make the integer chunk of the whole field (R107, R108). -/
theorem encodedChunk_of_integer (he : e ∈ integerEncoders) :
    encodedChunk (e sg dst pad bits bitOff p) =
        (if sLE p < 0 ∧ sg = false then none
          else some (toBytesLE (foldedValue (sLE p) bits.toNat) (bc bits.toNat))) ∧
      fieldSize (e sg dst pad bits bitOff p) = bits.toNat := by
  rw [← chunkInt_eq]
  simp only [integerEncoders, List.mem_cons, List.not_mem_nil, or_false] at he
  rcases he with rfl | rfl | rfl | rfl | rfl <;> exact ⟨rfl, rfl⟩

/-- The floating-point encoders carry the pattern as it is (R107, R120). -/
theorem encodedChunk_of_pattern (he : e ∈ patternEncoders) :
    encodedChunk (e sg dst pad bits bitOff p) = some (toBytesLE (uLE p) (bc bits.toNat)) ∧
      fieldSize (e sg dst pad bits bitOff p) = bits.toNat := by
  simp only [patternEncoders, List.mem_cons, List.not_mem_nil, or_false] at he
  rcases he with rfl | rfl <;> exact ⟨rfl, rfl⟩

end

/-! ## The byte-sequence encoder (R117) -/

theorem encBytes_mem_typedEncoders (al : Align) : (fun sg => Instr.encBytes sg al) ∈ typedEncoders al := by
  simp [typedEncoders]

/-- Reversing the bytes turns the wire order into the order of weights, from the last wire bit on (R13, R38, R39). -/
theorem leBit_reverse (V : Bytes) {i : Nat} (hi : i < 8 * V.length) :
    leBit V.reverse i = wireBit V (8 * V.length - 1 - i) := by
  have hbyte : i / 8 < V.length := by omega
  have hdiv : (8 * V.length - 1 - i) / 8 = V.length - 1 - i / 8 := by omega
  have hmod : 7 - (8 * V.length - 1 - i) % 8 = i % 8 := by omega
  rw [leBit, wireBit, hdiv, hmod, List.getD_eq_getElem?_getD, List.getElem?_reverse hbyte,
    ← List.getD_eq_getElem?_getD]

/-- The chunk is the end of the padded value, last byte first (R117). -/
theorem chunkBytes_eq (P : Bytes) (n : Nat) (al : Align) (pad : Byte) :
    chunkBytes P n al pad =
      ((paddedValue P (bc n) al pad).drop ((paddedValue P (bc n) al pad).length - bc n)).reverse := by
  have htake : chunkBytes P n al pad = (paddedValue P (bc n) al pad).reverse.take (bc n) := by cases al <;> rfl
  rw [htake, List.take_reverse]

theorem le_length_paddedValue (P : Bytes) (k : Nat) (al : Align) (pad : Byte) :
    k ≤ (paddedValue P k al pad).length := by
  cases al <;> simp only [paddedValue, List.length_append, List.length_replicate] <;> omega

/-- The field of the last `k` bytes of a value, reversed, holds the last `n` wire bits of the value (R39, R117). -/
theorem fieldBits_lastBytes {V : Bytes} {n k : Nat} (hn : n ≤ 8 * k) (hk : k ≤ V.length) :
    fieldBits (uLE (V.drop (V.length - k)).reverse) n =
      (List.range n).map fun i => wireBit V (8 * V.length - n + i) := by
  refine List.map_congr_left fun i hi => ?_
  have hi : i < n := List.mem_range.mp hi
  have htake : (V.drop (V.length - k)).reverse = (V.reverse.drop 0).take k := by
    rw [List.drop_zero, List.take_reverse]
  rw [uLE_testBit, htake, leBit_drop_take, decide_eq_true (by omega), Bool.true_and, leBit_reverse V (by omega)]
  congr 1
  omega

/-! ## The digit-string encoder (R118) -/

theorem encBcd_mem_typedEncoders (al : Align) : (fun sg => Instr.encBcd sg al) ∈ typedEncoders al := by
  simp [typedEncoders]

/-- The number of `m` four-bit slots, slot 0 the most significant. -/
def slotsNumber (w : Nat → Nat) (m : Nat) : Nat := ((List.range m).map fun k => w k * 16 ^ (m - 1 - k)).sum

theorem slotsNumber_succ (w : Nat → Nat) (m : Nat) : slotsNumber w (m + 1) = 16 * slotsNumber w m + w m := by
  have hshift : ∀ k ∈ List.range m, w k * 16 ^ (m + 1 - 1 - k) = 16 * (w k * 16 ^ (m - 1 - k)) := by
    intro k hk
    have hk : k < m := List.mem_range.mp hk
    rw [show m + 1 - 1 - k = m - 1 - k + 1 by omega, Nat.pow_succ]
    ring
  rw [slotsNumber, List.range_succ, List.map_append, List.sum_append, List.map_congr_left hshift,
    List.sum_map_mul_left]
  simp [slotsNumber]

theorem slotsNumber_lt {w : Nat → Nat} (hw : ∀ k, w k < 16) (m : Nat) : slotsNumber w m < 2 ^ (4 * m) := by
  induction m with
  | zero => simp [slotsNumber]
  | succ m ih =>
    have := hw m
    rw [slotsNumber_succ, Nat.mul_succ, Nat.pow_add]
    omega

/-- Bit `j` of the number of the slots is a bit of slot `m − 1 − floor(j/4)`. -/
theorem slotsNumber_testBit {w : Nat → Nat} (hw : ∀ k, w k < 16) (m : Nat) {j : Nat} (hj : j < 4 * m) :
    (slotsNumber w m).testBit j = (w (m - 1 - j / 4)).testBit (j % 4) := by
  induction m generalizing j with
  | zero => omega
  | succ m ih =>
    rw [slotsNumber_succ, Nat.testBit_two_pow_mul_add (i := 4) _ (hw m)]
    split
    next hlow => rw [Nat.div_eq_of_lt hlow, Nat.mod_eq_of_lt hlow, Nat.sub_zero, Nat.add_sub_cancel]
    next hhigh =>
      have hslot : m - 1 - (j - 4) / 4 = m + 1 - 1 - j / 4 := by omega
      have hbit : (j - 4) % 4 = j % 4 := by omega
      rw [ih (by omega), hslot, hbit]

/-- The field of the slots, slot 0 first and each most significant bit first (R118). -/
theorem fieldBits_slotsNumber {w : Nat → Nat} (hw : ∀ k, w k < 16) (m : Nat) :
    fieldBits (slotsNumber w m) (4 * m) = (List.range (4 * m)).map fun i => (w (i / 4)).testBit (3 - i % 4) := by
  refine List.map_congr_left fun i hi => ?_
  have hi : i < 4 * m := List.mem_range.mp hi
  have hslot : m - 1 - (4 * m - 1 - i) / 4 = i / 4 := by omega
  have hbit : (4 * m - 1 - i) % 4 = 3 - i % 4 := by omega
  rw [slotsNumber_testBit hw m (by omega), hslot, hbit]

/-- Slots that all have a nibble are joined to their number. -/
theorem foldlM_slots_eq_some {g : Nat → Option Nat} {w : Nat → Nat} {m : Nat} (hg : ∀ k < m, g k = some (w k)) :
    (List.range m).foldlM (fun W k => (g k).map fun d => 16 * W + d) 0 = some (slotsNumber w m) := by
  induction m with
  | zero => rfl
  | succ m ih =>
    rw [List.range_succ, List.foldlM_append, ih fun k hk => hg k (by omega), slotsNumber_succ]
    simp [hg m (by omega)]

/-- One failing slot fails the whole (R118, R160). -/
theorem foldlM_slots_eq_none {g : Nat → Option Nat} {m k : Nat} (hk : k < m) (hg : g k = none) :
    (List.range m).foldlM (fun W k => (g k).map fun d => 16 * W + d) 0 = none := by
  induction m with
  | zero => omega
  | succ m ih =>
    rw [List.range_succ, List.foldlM_append]
    rcases Nat.lt_succ_iff_lt_or_eq.mp hk with hlt | rfl
    · rw [ih hlt]
      rfl
    · cases (List.range k).foldlM (fun W k => (g k).map fun d => 16 * W + d) 0 <;> simp [hg]

/-- A nibble is the digit modulo 16, unless the digit is negative and `S = 0` (R118). -/
theorem bcdNibble_eq (d : Int) (sg : Bool) :
    bcdNibble d sg = if d < 0 ∧ sg = false then none else some (d % 16).toNat := by
  have hfold : foldedValue d 4 % 16 = d % 16 := foldedValue_emod d 4
  rw [bcdNibble, toWindow_eq]
  split
  · rfl
  · rw [Option.map_some, hfold]

theorem bcdStart_eq (al : Align) (n4 len : Nat) : bcdStart al n4 len = if al = .left then 0 else n4 - len := by
  cases al <;> rfl

/-- The machine and the rule agree on which slots lie inside the string (R118). -/
theorem slotNibble_eq (P : Bytes) (n4 : Nat) (al : Align) (pad : Byte) (k : Nat) :
    slotNibble P n4 al pad k =
      if bcdStart al n4 P.length ≤ k ∧ k < bcdStart al n4 P.length + P.length then
        ((P.getD (k - bcdStart al n4 P.length) 0).toNat + 256 - 0x30) % 16
      else pad.toNat % 16 := by
  rw [bcdStart_eq]
  rfl

theorem slotNibble_lt (P : Bytes) (n4 : Nat) (al : Align) (pad : Byte) (k : Nat) : slotNibble P n4 al pad k < 16 := by
  rw [slotNibble_eq]
  split <;> omega

/-- The value of a slot, modulo 16, is its nibble (R118). -/
theorem bcdSlot_emod (P : Bytes) (n4 : Nat) (al : Align) (pad : Byte) (k : Nat) :
    (bcdSlot P (bcdStart al n4 P.length) pad k % 16).toNat = slotNibble P n4 al pad k := by
  rw [bcdSlot, slotNibble_eq]
  split <;> omega

/-- Where no character lies below `'0'`, no slot is negative: the pad nibble never is. -/
theorem bcdSlot_nonneg {P : Bytes} (hP : ∀ c ∈ P, 0x30 ≤ c.toNat) (start : Nat) (pad : Byte) (k : Nat) :
    0 ≤ bcdSlot P start pad k := by
  rw [bcdSlot]
  split
  next hin =>
    have hlt : k - start < P.length := by omega
    have hchar := hP _ (List.getElem_mem hlt)
    rw [← List.getElem_eq_getD (h := hlt)]
    omega
  next => omega

/-- The window of an accepted digit string (R118). -/
theorem bcdWindow_eq_some {P : Bytes} {sg : Bool} (hP : sg = true ∨ ∀ c ∈ P, 0x30 ≤ c.toNat) (n4 : Nat) (al : Align)
    (pad : Byte) : bcdWindow P n4 sg al pad = some (slotsNumber (slotNibble P n4 al pad) n4) := by
  refine foldlM_slots_eq_some fun k _ => ?_
  rw [bcdNibble_eq, if_neg, bcdSlot_emod]
  rintro ⟨hneg, rfl⟩
  exact absurd (bcdSlot_nonneg (hP.resolve_left nofun) _ pad k) (Int.not_le.mpr hneg)

/-- A character below `'0'` fails a digit string under `S = 0`: every character has its slot (R118). -/
theorem bcdWindow_eq_none {P : Bytes} (hP : ∃ c ∈ P, c.toNat < 0x30) {n4 : Nat} (hlen : P.length ≤ n4) (al : Align)
    (pad : Byte) : bcdWindow P n4 false al pad = none := by
  obtain ⟨c, hc, hlow⟩ := hP
  obtain ⟨j, hj, rfl⟩ := List.mem_iff_getElem.mp hc
  have hstart : bcdStart al n4 P.length + P.length ≤ n4 := by
    rw [bcdStart_eq]
    split <;> omega
  have hslot : bcdSlot P (bcdStart al n4 P.length) pad (bcdStart al n4 P.length + j) = (P[j].toNat : Int) - 0x30 := by
    rw [bcdSlot, if_pos (by omega), Nat.add_sub_cancel_left, ← List.getElem_eq_getD (h := hj)]
  refine foldlM_slots_eq_none (k := bcdStart al n4 P.length + j) (by omega) ?_
  rw [bcdNibble_eq, hslot, if_pos ⟨by omega, rfl⟩]

/-! ## Storing the chunk with a second command (R69, R109) -/

/-- The payload that a store answers with changes nothing else. -/
theorem storeAppend_storesTheSame (chunk : Bytes) (n : Nat) (s : State) :
    storesTheSame s n chunk (storeAppend chunk n chunk s) (storeAppend chunk n [] s) := by
  rw [storeAppend_eq, storeAppend_eq]
  split
  · exact .inl ⟨_, rfl, rfl⟩
  · exact .inr ⟨rfl, rfl⟩

theorem storeWrite_storesTheSame (chunk : Bytes) (off n : Nat) (s : State) :
    storesTheSame s n chunk (storeWrite chunk off n chunk s) (storeWrite chunk off n [] s) := by
  rw [storeWrite_eq, storeWrite_eq]
  split
  · exact .inl ⟨_, rfl, rfl⟩
  · exact .inr ⟨rfl, rfl⟩

theorem exec_bbAppend_of_legal {bits : Word} {p : Bytes} (hlegal : Instr.fieldLegal bits p = true) (pad : Byte)
    (s : State) : exec (.bbAppend pad bits p) s = storeAppend p bits.toNat [] s := by
  change execBbAppend pad bits p s = _
  rw [execBbAppend, fieldOk_eq, if_pos hlegal]

theorem exec_bbWrite_of_legal {bits : Word} {p : Bytes} (hlegal : Instr.fieldLegal bits p = true) (pad : Byte)
    (bitOff : Word) (s : State) : exec (.bbWrite pad bits bitOff p) s = storeWrite p bitOff.toNat bits.toNat [] s := by
  change execBbWrite pad bits bitOff p s = _
  rw [execBbWrite, fieldOk_eq, if_pos hlegal]

/-- A field no larger than a legal one is legal, where it is not empty and the payload may be carried (R58). -/
theorem fieldLegal_of_le {bits eff : Word} {p q : Bytes} (h : Instr.fieldLegal bits p = true)
    (hle : eff.toNat ≤ bits.toNat) (hpos : 1 ≤ eff.toNat) (hq : Instr.payloadLegal q = true) :
    Instr.fieldLegal eff q = true := by
  obtain ⟨-, hmax⟩ := (Bool.and_eq_true _ _).mp h
  rw [Instr.fieldLegal, hq, decide_eq_true hpos, admits_mono hmax hle]
  rfl

/-! ## The primitive (R106) -/

/-- What `BE.ENCODE` answers where it is legal (R106). -/
theorem exec_beEncode_of_legal {bits : Word} {p : Bytes} (hlegal : Instr.fieldLegal bits p = true) (pad : Byte)
    (s : State) : exec (.beEncode pad bits p) s =
      .next (s.answered s.bb .ok bits.toNat (bitsToBytes (bitEncode p bits.toNat))) := by
  change execBeEncode pad bits p s = _
  rw [execBeEncode, fieldOk_eq, if_pos hlegal, respond_eq]

/-! ## The statements -/

/-- Settles O33: each of these encoders refuses its value before it looks for room. -/
theorem negativeUnsignedIsInvalid : Obligations.NegativeUnsignedIsInvalid := by
  refine ⟨fun bits p s hlegal hneg => ?_, fun e he dst pad bits bitOff p s hlegal hneg => ?_,
    fun al dst pad bits bitOff p s hlegal hlow => ?_⟩
  · obtain ⟨hfield, hlen⟩ := (Bool.and_eq_true _ _).mp hlegal
    rw [exec_swTowin_eq, if_pos ⟨hfield, of_decide_eq_true hlen⟩, if_pos ⟨hneg, rfl⟩]
  · obtain ⟨hchunk, -⟩ := encodedChunk_of_integer false dst pad bits bitOff p he
    rw [if_pos ⟨hneg, rfl⟩] at hchunk
    exact exec_encoder_invalidArgument (mem_typedEncoders_of_integer .left he) hlegal hchunk s
  · obtain ⟨-, hlen⟩ := (Bool.and_eq_true _ _).mp hlegal
    have hchunk : encodedChunk (.encBcd false al dst pad bits bitOff p) = none := by
      rw [encodedChunk, bcdWindow_eq_none hlow (of_decide_eq_true hlen)]
      rfl
    exact exec_encoder_invalidArgument (encBcd_mem_typedEncoders al) hlegal hchunk s

/-- Settles O42: the response carries the encoded bits, and they are the chunk's low bits from bit `n − 1` down. -/
theorem bitEncodeReversesWindow : Obligations.BitEncodeReversesWindow := by
  intro pad bits p s hlegal
  refine ⟨_, exec_beEncode_of_legal hlegal pad s, ?_, fun i _ => ?_⟩
  · rw [length_bitsToBytes, length_bitEncode, bc_eq]
  · rw [bitsToBytes_leBit, bitEncode_getD]

/-- Settles O43: an encoder answered `OK` has stored the encoded bits of its chunk, as `DST` says. -/
theorem encodersStoreExactlyTheField : Obligations.EncodersStoreExactlyTheField := by
  refine ⟨length_bitEncode, ?_⟩
  rintro al e he sg dst pad bits bitOff p s t hexec hok eff rfl
  obtain ⟨hlegal, q, -, rfl⟩ := exec_encoder_ok he hexec hok
  refine ⟨fieldSize_le_bits he sg dst pad bits bitOff p, q, rfl, ?_⟩
  generalize fieldSize (e sg dst pad bits bitOff p) = eff
  rw [← bitEncode_eq]
  cases dst with
  | none | reserved | append => rfl
  | write =>
    have houtside := overlay_outside s.bb (bitEncode q eff) bitOff.toNat
    simp only [length_bitEncode] at houtside
    refine ⟨by simp [storedBuffer], fun j hj => ?_, houtside⟩
    have hlt : j < (bitEncode q eff).length := by rwa [length_bitEncode]
    exact (overlay_inside s.bb _ bitOff.toNat hlt).trans (getElem?_eq_some_getD hlt).symm

/-- Settles O44: the chunk is the low bytes of the folded value, which is the value modulo `2^n`. -/
theorem integerEncodersStoreValue : Obligations.IntegerEncodersStoreValue := by
  intro e he sg dst pad bits bitOff p s hlegal hsign
  obtain ⟨hchunk, hsize⟩ := encodedChunk_of_integer sg dst pad bits bitOff p he
  have hok : ¬(sLE p < 0 ∧ sg = false) := fun ⟨hneg, hunsigned⟩ =>
    hsign.elim (fun hnonneg => by omega) (fun hsigned => by simp [hsigned] at hunsigned)
  rw [if_neg hok] at hchunk
  have hanswer := exec_encoder_answersField (mem_typedEncoders_of_integer .left he) hlegal hchunk s
  rw [hsize, fieldBits_toBytesLE, foldedValue_emod] at hanswer
  exact ⟨_, length_toBytesLE _ _, uLE_toBytesLE_cast _ _, by exact_mod_cast hanswer⟩

/-- Settles O45: the chunk is the low bytes of the pattern. -/
theorem patternEncodersCarryPattern : Obligations.PatternEncodersCarryPattern := by
  intro e he sg dst pad bits bitOff p s hlegal
  obtain ⟨hchunk, hsize⟩ := encodedChunk_of_pattern sg dst pad bits bitOff p he
  have hnumber : uLE (toBytesLE (uLE p) (bc bits.toNat)) = uLE p % 2 ^ (8 * bc bits.toNat) := by
    exact_mod_cast uLE_toBytesLE_cast (uLE p) (bc bits.toNat)
  have hanswer := exec_encoder_answersField (mem_typedEncoders_of_pattern .left he) hlegal hchunk s
  rw [hsize, hnumber, fieldBits_mod _ _ _ (le_bc _)] at hanswer
  exact ⟨_, length_toBytesLE _ _, hnumber, hanswer⟩

/-- Settles O46: the chunk is the end of the padded value reversed, so its field is the end of the value's wire image. -/
theorem bytesEncoderStoresWireImage : Obligations.BytesEncoderStoresWireImage := by
  rintro sg al dst pad bits bitOff p s hlegal V rfl
  have hanswer := exec_encoder_answersField (encBytes_mem_typedEncoders al) hlegal
    (congrArg some (chunkBytes_eq p bits.toNat al pad)) s
  have hfield := fieldBits_lastBytes (le_bc bits.toNat) (le_length_paddedValue p (bc bits.toNat) al pad)
  simp only [fieldSize, hfield] at hanswer
  exact hanswer

/-- Settles O47: every slot has its nibble, and the chunk holds the number of the slots. -/
theorem bcdEncoderStoresSlots : Obligations.BcdEncoderStoresSlots := by
  intro sg al dst pad bits bitOff p s hlegal hP
  have hnibble := slotNibble_lt p (bits.toNat / 4) al pad
  generalize hm : bits.toNat / 4 = m at hnibble
  have hchunk : encodedChunk (.encBcd sg al dst pad bits bitOff p) =
      some (toBytesLE (slotsNumber (slotNibble p m al pad) m : Nat) (bc (4 * m))) := by
    rw [encodedChunk, hm, bcdWindow_eq_some hP]
    rfl
  have hlt : slotsNumber (slotNibble p m al pad) m < 2 ^ (8 * bc (4 * m)) :=
    (slotsNumber_lt hnibble m).trans_le (Nat.pow_le_pow_right (by decide) (le_bc _))
  have hnumber : uLE (toBytesLE (slotsNumber (slotNibble p m al pad) m : Nat) (bc (4 * m))) =
      slotsNumber (slotNibble p m al pad) m := by
    rw [uLE_toBytesLE, ← Int.natCast_mod, Int.toNat_natCast, Nat.mod_eq_of_lt hlt]
  have hanswer := exec_encoder_answersField (encBcd_mem_typedEncoders al) hlegal hchunk s
  simp only [fieldSize, hm, hnumber, fieldBits_slotsNumber hnibble] at hanswer
  exact ⟨_, length_toBytesLE _ _, hnumber, hanswer⟩

/-- Settles O48: the chunk and its size are the same for every destination, and a store does the same whatever payload
it answers with. -/
theorem encodeAndStoreEqualsTwoCommands : Obligations.EncodeAndStoreEqualsTwoCommands := by
  intro al e he sg pad bits bitOff eff p q s hexec hpos hq
  obtain ⟨hlegal, q', hchunk, hstate⟩ := exec_encoder_ok he hexec (answered_lastStatus ..)
  have hresponse := congrArg State.responses hstate
  simp only [answered_responses, List.append_cancel_left_eq, List.cons.injEq, Response.mk.injEq] at hresponse
  obtain ⟨⟨-, hsize, rfl, -⟩, -⟩ := hresponse
  have hfield : Instr.fieldLegal eff q = true := by
    obtain ⟨hbits, -⟩ := (Bool.and_eq_true _ _).mp (encoderLegal_of_legal he hlegal)
    exact fieldLegal_of_le hbits (hsize ▸ fieldSize_le_bits he sg .none pad bits bitOff p) hpos hq
  have hstores (dst : Dst) (hdst : dst ≠ .reserved) :
      exec (e sg dst pad bits bitOff p) s = finish dst q eff.toNat bitOff.toNat s := by
    obtain ⟨hsame_chunk, hsame_size, hsame_legal⟩ := encoder_dst_irrelevant he hdst sg pad bits bitOff p
    rw [exec_encoder_of_legal he (hsame_legal.trans hlegal), hsame_chunk, hchunk, hsame_size, ← hsize]
    rfl
  rw [hstores .append nofun, hstores .write nofun, exec_bbAppend_of_legal hfield, exec_bbWrite_of_legal hfield]
  exact ⟨storeAppend_storesTheSame q eff.toNat s, storeWrite_storesTheSame q bitOff.toNat eff.toNat s⟩

end Sys2Proof.Machine
end

section
/-!
PROOFS. The statements about BitBuffer (44_bitbuffer.md). A legal `BB.APPEND` or `BB.WRITE` is its store
(`exec_bbAppend_of_legal`, `exec_bbWrite_of_legal`), and both stores are overlays: an append is the overlay at the end of
the buffer (`overlay_at_end`), and overlays of disjoint ranges commute (`overlay_comm`).
-/

namespace Sys2Proof.Machine

/-! ## An append is a write at the end (R128) -/

theorem bbAppend_eq_bbWrite (bb : Bits) (B : Bytes) (n : Nat) : bbAppend bb B n = bbWrite bb B bb.length n := by
  rw [bbWrite_eq, overlay_at_end, bbAppend]

/-- The two stores ask for the same room and leave the same buffer (R128, R159). -/
theorem storeAppend_eq_storeWrite (chunk : Bytes) (n : Nat) (q : Bytes) (s : State) :
    storeAppend chunk n q s = storeWrite chunk s.bb.length n q s := by
  rw [storeAppend_eq, storeWrite_eq, overlay_at_end, Nat.max_eq_right (Nat.le_add_right _ _)]

/-! ## Overlays of disjoint ranges (R129) -/

/-- No position lies in both ranges, so each is decided by the one range it lies in, or by the old buffer. -/
theorem overlay_comm (bb E E' : Bits) {off off' : Nat} (hdisjoint : off + E.length ≤ off' ∨ off' + E'.length ≤ off) :
    overlay (overlay bb off E) off' E' = overlay (overlay bb off' E') off E := by
  apply eq_of_getD
  · simp only [length_overlay, Nat.max_assoc, Nat.max_comm (off + E.length)]
  · intro i _
    simp only [overlay_getD]
    by_cases hfirst : off ≤ i ∧ i < off + E.length
    · have hsecond : ¬(off' ≤ i ∧ i < off' + E'.length) := by omega
      rw [if_neg hsecond, if_pos hfirst, if_pos hfirst]
    · rw [if_neg hfirst, if_neg hfirst]

/-! ## The statements -/

/-- Settles O22: `NOP` without a payload only responds. -/
theorem nopReportsLength : Obligations.NopReportsLength :=
  fun s => respond_eq .ok 0 [] s

/-- Settles O23: `BB.CLEAR` without a payload responds over the empty buffer. -/
theorem clearEmptiesBuffer : Obligations.ClearEmptiesBuffer :=
  fun s => respond_withBb .ok 0 [] s []

/-- Settles O25: the command is legal, so it is an append, and the room check chooses what the append answers. -/
theorem appendStoresField : Obligations.AppendStoresField := by
  intro pad bits p s hlegal
  rw [exec_bbAppend_of_legal hlegal, storeAppend_eq, bbLen_eq]
  exact ⟨fun hroom => if_pos hroom, fun hfull => if_neg (Bool.eq_false_iff.mp hfull)⟩

/-- Settles O26: the command is legal, so it is a write, and the room check chooses what the write answers. -/
theorem writeStoresField : Obligations.WriteStoresField := by
  intro pad bits bitOff p s hlegal
  rw [exec_bbWrite_of_legal hlegal, storeWrite_eq, bbLen_eq]
  exact ⟨fun hroom => if_pos hroom, fun hfull => if_neg (Bool.eq_false_iff.mp hfull)⟩

/-- Settles O28: the commands make the same header check, and behind it the same store. -/
theorem appendIsWriteAtEnd : Obligations.AppendIsWriteAtEnd := by
  refine ⟨bbAppend_eq_bbWrite, fun pad bits bitOff p s hend => ?_⟩
  change execBbAppend pad bits p s = execBbWrite pad bits bitOff p s
  rw [execBbAppend, execBbWrite, hend, bbLen_eq, storeAppend_eq_storeWrite]

/-- Settles O29: each write is an overlay of its encoded bits. -/
theorem disjointWritesCommute : Obligations.DisjointWritesCommute := by
  intro bb B B' off n off' n' hdisjoint
  simp only [bbWrite_eq]
  exact overlay_comm bb _ _ (by simpa only [length_bitEncode] using hdisjoint)

end Sys2Proof.Machine
end

section
/-!
PROOFS. The statements about the decoders (45_decoders.md) and the round-trip law (R151). A legal strict decoder whose
window lies inside the payload answers from the extracted bytes, whose number is `windowAt` (`windowReply_of_inside`), and
`DEC.BCD` with one character for each whole nibble (`length_bcdDigits`, `bcdDigits_getD`). For the round trip, a message
holds at the field's position the bits that the encoder's statement says it stores (`message_holds_field`), so the window
read there is known, and the decoder's statement says what comes back.
-/

namespace Sys2Proof.Machine

/-! ## Numbers and values in little-endian bytes (R13) -/

/-- Two byte sequences of one length are equal when their numbers are. -/
theorem eq_of_uLE {A B : Bytes} (hlen : A.length = B.length) (h : uLE A = uLE B) : A = B :=
  eq_of_leBit hlen fun i _ => by rw [← uLE_testBit, ← uLE_testBit, h]

theorem uLE_toBytesLE_of_lt {W N : Nat} (hW : W < 2 ^ (8 * N)) : uLE (toBytesLE (W : Int) N) = W := by
  rw [uLE_toBytesLE, ← Int.natCast_mod, Int.toNat_natCast, Nat.mod_eq_of_lt hW]

/-- A value of `n` bits with its sign survives in any number of bytes that hold `n` bits. -/
theorem sLE_toBytesLE_of_representable {v : Int} {n N : Nat} (hn : 1 ≤ n) (hN : n ≤ 8 * N)
    (hv : representable v n true) : sLE (toBytesLE v N) = v := by
  have hle : 2 ^ (n - 1) ≤ 2 ^ (8 * N - 1) := Nat.pow_le_pow_right (by decide) (by omega)
  rw [representable_signed] at hv
  exact sLE_toBytesLE v N (by omega) (by omega) (by omega)

/-- `floor(n/8) + 1` bytes have a bit left for the sign of any value below `2^n` in magnitude (R142). -/
theorem sLE_toBytesLE_div_add_one {v : Int} {n : Nat} (hv : v.natAbs < 2 ^ n) : sLE (toBytesLE v (n / 8 + 1)) = v := by
  have hle : 2 ^ n ≤ 2 ^ (8 * (n / 8 + 1) - 1) := Nat.pow_le_pow_right (by decide) (by omega)
  exact sLE_toBytesLE v _ (by omega) (by omega) (by omega)

theorem natAbs_signedValue_lt {W n : Nat} (sg : Bool) (hW : W < 2 ^ n) : (signedValue W n sg).natAbs < 2 ^ n := by
  rw [← fromWindow_eq W n sg hW]
  exact natAbs_fromWindow_lt sg hW le_rfl

theorem one_le_bits_of_fieldLegal {bits : Word} {p : Bytes} (h : Instr.fieldLegal bits p = true) :
    1 ≤ bits.toNat := by
  obtain ⟨hpos, -⟩ := (Bool.and_eq_true _ _).mp h
  exact of_decide_eq_true ((Bool.and_eq_true _ _).mp hpos).2

/-! ## The strict decoders inside the payload (R136 to R145) -/

/-- The fixed-width integer decoders, each with its native width (R138 to R141). -/
def integerDecoders : List ((Bool → Word → Word → Word → Bytes → Instr) × Nat) :=
  [(.decByte, 1), (.decShort, 2), (.decInt, 4), (.decLong, 8)]

/-- The floating-point decoders, each with its native width (R143, R144). -/
def patternDecoders : List ((Bool → Word → Word → Word → Bytes → Instr) × Nat) := [(.decFloat, 4), (.decDouble, 8)]

section
variable {d : (Bool → Word → Word → Word → Bytes → Instr) × Nat} {bits bitOff byteOff : Word} {p : Bytes}
variable (hlegal : Instr.fieldLegal bits p = true) (hin : windowStart bitOff byteOff + bits.toNat ≤ 8 * p.length)
variable (sg : Bool) (s : State)
include hlegal hin

theorem windowReply_of_inside {native : Option Nat} (hnative : withinNative native bits.toNat = true)
    (f : Bytes → Bytes) : windowReply native bits bitOff byteOff p f s =
      .next (s.answered s.bb .ok bits.toNat (f (decodeBits p (windowStart bitOff byteOff) bits.toNat))) := by
  rw [windowReply, extract_eq, if_pos ⟨hlegal, hnative⟩, if_pos hin]
  rfl

theorem exec_integerDecoder_of_inside (hd : d ∈ integerDecoders) (hbits : bits.toNat ≤ 8 * d.2) :
    exec (d.1 sg bits bitOff byteOff p) s = .next (s.answered s.bb .ok bits.toNat
      (toBytesLE (signedValue (windowAt p (windowStart bitOff byteOff) bits.toNat) bits.toNat sg) d.2)) := by
  have hexec : exec (d.1 sg bits bitOff byteOff p) s = decodeInteger d.2 sg bits bitOff byteOff p s := by
    simp only [integerDecoders, List.mem_cons, List.not_mem_nil, or_false] at hd
    rcases hd with rfl | rfl | rfl | rfl <;> rfl
  rw [hexec, decodeInteger_eq, if_pos ⟨hlegal, hbits⟩, if_pos hin]

theorem exec_patternDecoder_of_inside (hd : d ∈ patternDecoders) (hbits : bits.toNat ≤ 8 * d.2) :
    exec (d.1 sg bits bitOff byteOff p) s = .next (s.answered s.bb .ok bits.toNat
      (toBytesLE (windowAt p (windowStart bitOff byteOff) bits.toNat : Nat) d.2)) := by
  have hexec : exec (d.1 sg bits bitOff byteOff p) s = decodePattern d.2 bits bitOff byteOff p s := by
    simp only [patternDecoders, List.mem_cons, List.not_mem_nil, or_false] at hd
    rcases hd with rfl | rfl <;> rfl
  rw [hexec, decodePattern_eq, if_pos ⟨hlegal, hbits⟩, if_pos hin]

theorem exec_decBigint_of_inside :
    exec (.decBigint sg bits bitOff byteOff p) s = .next (s.answered s.bb .ok bits.toNat
      (toBytesLE (signedValue (windowAt p (windowStart bitOff byteOff) bits.toNat) bits.toNat sg)
        (bits.toNat / 8 + 1))) := by
  change execDecBigint sg bits bitOff byteOff p s = _
  rw [execDecBigint_eq_windowReply, windowReply_of_inside hlegal hin s rfl, uLE_decodeBits _ _ _ hin,
    fromWindow_eq _ _ _ (windowAt_lt _ _ _)]

theorem exec_decBits_of_inside :
    exec (.decBits sg bits bitOff byteOff p) s = .next (s.answered s.bb .ok bits.toNat
      (decodeBits p (windowStart bitOff byteOff) bits.toNat)) :=
  windowReply_of_inside hlegal hin s (native := none) rfl id

theorem exec_decBytes_of_inside :
    exec (.decBytes sg bits bitOff byteOff p) s = .next (s.answered s.bb .ok bits.toNat
      (decodeBits p (windowStart bitOff byteOff) bits.toNat).reverse) :=
  windowReply_of_inside hlegal hin s (native := none) rfl reverseBytes

end

/-! ## The digits of `DEC.BCD` (R146) -/

/-- One digit for each nibble that lies wholly inside the stream. -/
theorem length_bcdDigits (s : Bits) (sg : Bool) (slots start : Nat) :
    (bcdDigits s sg slots start).length = min slots ((s.length - start) / 4) := by
  induction slots generalizing start with
  | zero => simp [bcdDigits]
  | succ slots ih =>
    by_cases hpast : s.length < start + 4
    · rw [bcdDigits_of_past_end hpast, List.length_nil]
      omega
    · rw [bcdDigits, if_neg hpast, List.length_cons, ih]
      omega

theorem bcdDigits_getD (s : Bits) (sg : Bool) (slots start : Nat) {k : Nat}
    (hk : k < (bcdDigits s sg slots start).length) :
    (bcdDigits s sg slots start).getD k 0 = bcdChar (nibbleAt s (start + 4 * k)) sg := by
  induction slots generalizing start k with
  | zero => simp [bcdDigits] at hk
  | succ slots ih =>
    by_cases hpast : s.length < start + 4
    · simp [bcdDigits_of_past_end hpast] at hk
    · rw [bcdDigits, if_neg hpast] at hk ⊢
      cases k with
      | zero => rfl
      | succ k =>
        rw [List.getD_cons_succ, ih (start + 4) (Nat.lt_of_succ_lt_succ hk),
          show start + 4 + 4 * k = start + 4 * (k + 1) by omega]

/-- A nibble of the wire stream is a window of four bits. -/
theorem nibbleAt_wire (I : Bytes) (start : Nat) : nibbleAt (wire I) start = windowAt I start 4 := by
  have hzero : windowAt I (start + 4) 0 = 0 := rfl
  simp only [nibbleAt, wire_getD, windowAt_succ, Nat.add_assoc, Nat.reduceAdd, hzero]
  omega

/-- A character is a byte: the value of a nibble, signed or not, never carries `'0'` out of it. -/
theorem bcdChar_toNat {nib : Nat} (hnib : nib < 2 ^ 4) (sg : Bool) :
    ((bcdChar nib sg).toNat : Int) = 0x30 + signedValue nib 4 sg := by
  have hvalue := natAbs_signedValue_lt sg hnib
  rw [bcdChar, fromWindow_eq nib 4 sg hnib, BitVec.toNat_ofInt]
  omega

theorem exec_decBcd_of_legal {bits : Word} {p : Bytes} (hlegal : Instr.fieldLegal bits p = true) (sg : Bool)
    (bitOff byteOff : Word) (s : State) {q : Bytes}
    (hq : q = bcdDigits (wire p) sg (bits.toNat / 4) (windowStart bitOff byteOff)) :
    exec (.decBcd sg bits bitOff byteOff p) s =
      .next (s.answered s.bb (if q.length < bits.toNat / 4 then .truncated else .ok) (4 * q.length) q) := by
  change execDecBcd sg bits bitOff byteOff p s = _
  rw [execDecBcd, fieldOk_eq, if_pos hlegal, hq]
  rfl

/-! ## What a decoder sees of its payload (R148) -/

/-- A window is the bits in it, wherever they stand. -/
theorem windowAt_congr {B B' : Bytes} {start start' n : Nat}
    (hbits : ∀ i < n, wireBit B (start + i) = wireBit B' (start' + i)) : windowAt B start n = windowAt B' start' n := by
  refine congrArg List.sum (List.map_congr_left fun i hi => ?_)
  rw [hbits i (List.mem_range.mp hi)]

section
variable {p p' : Bytes} (hlen : p.length = p'.length)
include hlen

theorem fieldLegal_congr (bits : Word) : Instr.fieldLegal bits p = Instr.fieldLegal bits p' := by
  rw [Instr.fieldLegal, Instr.fieldLegal, Instr.payloadLegal, Instr.payloadLegal, hlen]

theorem extract_congr {bits bitOff byteOff : Word}
    (hwindow : windowAt p (windowStart bitOff byteOff) bits.toNat = windowAt p' (windowStart bitOff byteOff) bits.toNat)
    (native : Option Nat) : extract native bits bitOff byteOff p = extract native bits bitOff byteOff p' := by
  rw [extract_eq, extract_eq, fieldLegal_congr hlen, hlen]
  by_cases hin : windowStart bitOff byteOff + bits.toNat ≤ 8 * p'.length
  · have hin' : windowStart bitOff byteOff + bits.toNat ≤ 8 * p.length := hlen ▸ hin
    have hcut : decodeBits p (windowStart bitOff byteOff) bits.toNat =
        decodeBits p' (windowStart bitOff byteOff) bits.toNat :=
      eq_of_uLE (by rw [length_decodeBits _ _ _ hin', length_decodeBits _ _ _ hin])
        (by rw [uLE_decodeBits _ _ _ hin', uLE_decodeBits _ _ _ hin, hwindow])
    rw [hcut]
  · rw [if_neg hin, if_neg hin]

theorem bcdDigits_wire_congr (sg : Bool) {slots start : Nat}
    (hbits : ∀ k, start ≤ k → k < start + 4 * slots → wireBit p k = wireBit p' k) :
    bcdDigits (wire p) sg slots start = bcdDigits (wire p') sg slots start := by
  induction slots generalizing start with
  | zero => rfl
  | succ slots ih =>
    have hnibble : windowAt p start 4 = windowAt p' start 4 :=
      windowAt_congr fun i hi => hbits (start + i) (by omega) (by omega)
    have hrest := ih (start := start + 4) fun k hlo hhi => hbits k (by omega) (by omega)
    simp only [bcdDigits, length_wire, hlen, nibbleAt_wire, hnibble, hrest]

end

/-! ## What a message carries (R151) -/

/-- `BB.TOBYTES` delivers one message, the packed buffer (R131). -/
theorem message_of_exec_bbTobytes {u : State} {M : Bytes}
    (h : exec (.bbTobytes []) u = .next (u.answered u.bb .ok u.bb.length M)) : M = pack (partition 8 u.bb) true := by
  have hresponse := congrArg State.responses (Host.Outcome.next.inj h)
  simpa using hresponse.symm

section
variable {i : Instr} {off len : Nat} {M : Bytes} (h : carriesField i off len M)
include h

theorem legal_of_carriesField : i.legal = true := by
  obtain ⟨s, t, -, hexec, hok, -⟩ := h
  refine Bool.eq_true_of_not_eq_false fun hillegal => ?_
  cases hexec.symm.trans ((illegalExactlyWhereUndefined i s).1 hillegal)
  rw [failed_lastStatus] at hok
  cases hok

/-- A message that carries the field of a command is long enough for it and holds, from `off` on, the bits that the
command stores whenever it has room (R38, R131, R151). -/
theorem message_holds_field {offset : Nat} {E : Bits} (hE : E.length = len)
    (hanswer : ∀ s, ∃ q, answersField (exec i s) s .append offset len E q) :
    (1 ≤ len → off + len ≤ 8 * M.length) ∧ ∀ j < len, wireBit M (off + j) = E.getD j false := by
  obtain ⟨s, t, u, hexec, hok, rfl, hkept, hmessage⟩ := h
  obtain ⟨q, hroom, hfull⟩ := hanswer s
  have ht : t = s.answered (s.bb ++ E) .ok len q := by
    cases hfits : roomFor .append s.bb offset len with
    | true => exact Host.Outcome.next.inj (hexec.symm.trans (hroom hfits))
    | false =>
      cases hexec.symm.trans (hfull hfits)
      rw [failed_lastStatus] at hok
      cases hok
  have hstored : ∀ j < len, u.bb[s.bb.length + j]? = some (E.getD j false) := by
    intro j hj
    refine (hkept j hj).trans ?_
    rw [ht, State.bit, answered_bb, List.getElem?_append_right (Nat.le_add_right _ _), Nat.add_sub_cancel_left,
      getElem?_eq_some_getD (hE ▸ hj)]
  rw [message_of_exec_bbTobytes hmessage]
  refine ⟨fun hpos => ?_, fun j hj => ?_⟩
  · have hlast := (List.getElem?_eq_some_iff.mp (hstored (len - 1) (by omega))).1
    have hround := le_bc u.bb.length
    rw [length_message]
    omega
  · rw [pack_wireBit, List.getD_eq_getElem?_getD, hstored j hj, Option.getD_some]

end

/-- Reading a field back gives the low bits of the window it was made from (R37, R136). -/
theorem windowAt_of_fieldBits {M : Bytes} {start n W : Nat}
    (h : ∀ j < n, wireBit M (start + j) = (fieldBits W n).getD j false) : windowAt M start n = W % 2 ^ n := by
  apply Nat.eq_of_testBit_eq
  intro i
  rw [windowAt_testBit, Nat.testBit_mod_two_pow]
  by_cases hi : i < n
  · rw [h _ (by omega), fieldBits_getD, decide_eq_true (show n - 1 - i < n by omega), Bool.true_and,
      show n - 1 - (n - 1 - i) = i by omega]
  · simp [hi]

/-- A decoder with the encoder's `BITSIZE` may be given the message (R58). -/
theorem fieldLegal_of_encoderLegal {dst : Dst} {bits : Word} {p M : Bytes}
    (h : Instr.encoderLegal dst bits p = true) (hM : Instr.payloadLegal M = true) :
    Instr.fieldLegal bits M = true := by
  obtain ⟨hfield, -⟩ := (Bool.and_eq_true _ _).mp h
  exact fieldLegal_of_le hfield le_rfl (one_le_bits_of_fieldLegal hfield) hM

/-- The bytes of a sequence, read as one big-endian window, are its number with the bytes reversed (R39, R117). -/
theorem uLE_reverse (V : Bytes) : uLE V.reverse = windowAt V 0 (8 * V.length) := by
  apply Nat.eq_of_testBit_eq
  intro i
  rw [uLE_testBit, windowAt_testBit, Nat.zero_add]
  by_cases hi : i < 8 * V.length
  · rw [leBit_reverse V hi, decide_eq_true hi, Bool.true_and]
  · rw [leBit_of_ge (by simpa using hi), decide_eq_false hi, Bool.false_and]

/-- A representable value is the value of the window that its bits make (R84, R108). -/
theorem signedValue_emod {v : Int} {n : Nat} {sg : Bool} (hn : 1 ≤ n) (hv : representable v n sg) :
    signedValue (v % 2 ^ n).toNat n sg = v := by
  obtain ⟨hlo, hhi⟩ := foldedValue_mem_window hn hv
  have hmod := foldedValue_emod v n
  rw [Int.emod_eq_of_lt hlo hhi] at hmod
  push_cast at hmod
  exact signedValue_foldedValue hn hv (by omega)

/-! ## The statements about the decoders -/

/-- Settles O50: the value has at most `n` bits with its sign, and the native width holds them. -/
theorem integerDecodersReturnValue : Obligations.IntegerDecodersReturnValue := by
  intro d hd sg bits bitOff byteOff p s hlegal hbits hin
  have hn := one_le_bits_of_fieldLegal hlegal
  have hlt := windowAt_lt p (windowStart bitOff byteOff) bits.toNat
  refine ⟨_, exec_integerDecoder_of_inside hlegal hin sg s hd hbits, length_toBytesLE _ _, ?_, ?_⟩
  · rintro rfl
    exact sLE_toBytesLE_of_representable hn hbits (representable_signedValue true hn hlt)
  · rintro rfl
    exact uLE_toBytesLE_of_lt (hlt.trans_le (Nat.pow_le_pow_right (by decide) hbits))

/-- Settles O51: one byte more than the whole bytes of the window holds its value and the sign. -/
theorem bigintDecoderReturnsValue : Obligations.BigintDecoderReturnsValue := by
  intro sg bits bitOff byteOff p s hlegal hin
  exact ⟨_, exec_decBigint_of_inside hlegal hin sg s, length_toBytesLE _ _,
    sLE_toBytesLE_div_add_one (natAbs_signedValue_lt sg (windowAt_lt _ _ _))⟩

/-- Settles O52: the window is written as it is, and the native width holds it. -/
theorem patternDecodersReturnPattern : Obligations.PatternDecodersReturnPattern := by
  intro d hd sg bits bitOff byteOff p s hlegal hbits hin
  exact ⟨_, exec_patternDecoder_of_inside hlegal hin sg s hd hbits, length_toBytesLE _ _,
    uLE_toBytesLE_of_lt ((windowAt_lt _ _ _).trans_le (Nat.pow_le_pow_right (by decide) hbits))⟩

/-- Settles O53: both commands answer with the extracted bytes, `DEC.BYTES` with the last one first. -/
theorem windowDecodersReturnWindow : Obligations.WindowDecodersReturnWindow := by
  intro sg bits bitOff byteOff p s hlegal hin
  exact ⟨_, length_decodeBits _ _ _ hin, uLE_decodeBits _ _ _ hin, exec_decBits_of_inside hlegal hin sg s,
    exec_decBytes_of_inside hlegal hin sg s⟩

/-- Settles O54: the number of digits is the number of whole nibbles, and each digit is the value of its nibble. -/
theorem bcdDecoderReturnsDigits : Obligations.BcdDecoderReturnsDigits := by
  rintro sg bits bitOff byteOff p s hlegal m hm
  have hlen : (bcdDigits (wire p) sg (bits.toNat / 4) (windowStart bitOff byteOff)).length = m := by
    rw [length_bcdDigits, length_wire, hm]
    rfl
  have hexec := exec_decBcd_of_legal hlegal sg bitOff byteOff s rfl
  rw [hlen] at hexec
  refine ⟨_, hexec, hlen, fun k hk => ?_⟩
  rw [bcdDigits_getD _ _ _ _ (hlen.symm ▸ hk), nibbleAt_wire, bcdChar_toNat (windowAt_lt _ _ _)]
  rfl

/-- Settles O56: legality sees only the length, the extractor only the window, and the nibbles of `DEC.BCD` lie in it. -/
theorem decodersReadOnlyTheWindow : Obligations.DecodersReadOnlyTheWindow := by
  intro d hd sg bits bitOff byteOff p p' s hlen hbits
  rcases eq_decBcd_or_mem_strictDecoders hd with rfl | hstrict
  · have hdigits : bcdDigits (wire p) sg (bits.toNat / 4) (windowStart bitOff byteOff) =
        bcdDigits (wire p') sg (bits.toNat / 4) (windowStart bitOff byteOff) :=
      bcdDigits_wire_congr hlen sg fun k hlo hhi =>
        hbits k hlo (hhi.trans_le (Nat.add_le_add_left (Nat.mul_div_le bits.toNat 4) _))
    change execDecBcd sg bits bitOff byteOff p s = execDecBcd sg bits bitOff byteOff p' s
    rw [execDecBcd, execDecBcd, fieldOk_eq, fieldOk_eq, fieldLegal_congr hlen, hdigits]
  · have hwindow : windowAt p (windowStart bitOff byteOff) bits.toNat =
        windowAt p' (windowStart bitOff byteOff) bits.toNat :=
      windowAt_congr fun i hi => hbits _ (Nat.le_add_right _ _) (Nat.add_lt_add_left hi _)
    obtain ⟨native, f, hrun⟩ := isStrictDecoder hstrict sg bits
    obtain ⟨hexec, -⟩ := hrun bitOff byteOff p
    obtain ⟨hexec', -⟩ := hrun bitOff byteOff p'
    rw [hexec, hexec', windowReply, windowReply, extract_congr hlen hwindow]

/-! ## The round trips (R151) -/

section
variable {e : Bool → Dst → Byte → Word → Word → Bytes → Instr} {sg : Bool} {pad : Byte} {bits bitOff : Word}
variable {p M : Bytes} {off : Nat} (hM : Instr.payloadLegal M = true)
include hM

/-- A decoder finds an encoded integer as the value of its window. -/
theorem window_of_carried_integer (he : e ∈ integerEncoders)
    (h : carriesField (e sg .append pad bits bitOff p) off bits.toNat M) (hv : representable (sLE p) bits.toNat sg) :
    Instr.fieldLegal bits M = true ∧ off + bits.toNat ≤ 8 * M.length ∧
      signedValue (windowAt M off bits.toNat) bits.toNat sg = sLE p := by
  have hlegal := legal_of_carriesField h
  have hfield := fieldLegal_of_encoderLegal (encoderLegal_of_legal (mem_typedEncoders_of_integer .left he) hlegal) hM
  have hn := one_le_bits_of_fieldLegal hfield
  have hsign : 0 ≤ sLE p ∨ sg = true := by
    cases sg with
    | true => exact .inr rfl
    | false => exact .inl ((representable_unsigned _ _).mp hv).1
  obtain ⟨hin, hbits⟩ := message_holds_field h (length_fieldBits _ _) fun s =>
    (integerEncodersStoreValue e he sg .append pad bits bitOff p s hlegal hsign).imp fun _ ⟨_, _, hq⟩ => hq
  have hlt : (sLE p % 2 ^ bits.toNat).toNat < 2 ^ bits.toNat := by exact_mod_cast toNat_emod_lt (sLE p) bits.toNat
  refine ⟨hfield, hin hn, ?_⟩
  rw [windowAt_of_fieldBits hbits, Nat.mod_eq_of_lt hlt, signedValue_emod hn hv]

/-- A decoder finds an encoded pattern as the low bits of its number. -/
theorem window_of_carried_pattern (he : e ∈ patternEncoders)
    (h : carriesField (e sg .append pad bits bitOff p) off bits.toNat M) :
    Instr.fieldLegal bits M = true ∧ off + bits.toNat ≤ 8 * M.length ∧
      windowAt M off bits.toNat = uLE p % 2 ^ bits.toNat := by
  have hlegal := legal_of_carriesField h
  have hfield := fieldLegal_of_encoderLegal (encoderLegal_of_legal (mem_typedEncoders_of_pattern .left he) hlegal) hM
  obtain ⟨hin, hbits⟩ := message_holds_field h (length_fieldBits _ _) fun s =>
    (patternEncodersCarryPattern e he sg .append pad bits bitOff p s hlegal).imp fun _ ⟨_, _, hq⟩ => hq
  exact ⟨hfield, hin (one_le_bits_of_fieldLegal hfield), windowAt_of_fieldBits hbits⟩

/-- A pattern of the native width comes back as it was stored. -/
theorem pattern_roundTrip {d : (Bool → Word → Word → Word → Bytes → Instr) × Nat} {bo byo : Word}
    (he : e ∈ patternEncoders) (hd : d ∈ patternDecoders)
    (h : carriesField (e sg .append pad bits bitOff p) (windowStart bo byo) bits.toNat M)
    (hbits : bits.toNat = 8 * d.2) (hlen : p.length = d.2) (sg' : Bool) (w : State) :
    exec (d.1 sg' bits bo byo M) w = .next (w.answered w.bb .ok bits.toNat p) := by
  obtain ⟨hfield, hin, hwindow⟩ := window_of_carried_pattern hM he h
  obtain ⟨q, hexec, hq, hnumber⟩ := patternDecodersReturnPattern d hd sg' bits bo byo M w hfield hbits.le hin
  have hfits : uLE p < 2 ^ bits.toNat := by rw [hbits, ← hlen]; exact uLE_lt p
  have hback : q = p := eq_of_uLE (hq.trans hlen.symm)
    (hnumber.trans (hwindow.trans (Nat.mod_eq_of_lt hfits)))
  rw [hexec, hback]

/-- A byte sequence of exactly the field's size comes back as it was stored: its wire image is the field. -/
theorem bytes_roundTrip {al : Align} {bo byo : Word}
    (h : carriesField (.encBytes sg al .append pad bits bitOff p) (windowStart bo byo) bits.toNat M)
    (hbits : bits.toNat = 8 * p.length) (sg' : Bool) (w : State) :
    exec (.decBytes sg' bits bo byo M) w = .next (w.answered w.bb .ok bits.toNat p) := by
  have hlegal := legal_of_carriesField h
  have hfield := fieldLegal_of_encoderLegal (encoderLegal_of_legal (encBytes_mem_typedEncoders al) hlegal) hM
  have hpadded : p = paddedValue p ((bits.toNat + 7) / 8) al pad := by
    have hfull : (bits.toNat + 7) / 8 - p.length = 0 := by omega
    cases al <;> simp [paddedValue, hfull]
  obtain ⟨hin, hwire⟩ := message_holds_field h (by simp) fun s =>
    ⟨_, bytesEncoderStoresWireImage sg al .append pad bits bitOff p s hlegal p hpadded⟩
  obtain ⟨q, hq, hnumber, -, hexec⟩ := windowDecodersReturnWindow sg' bits bo byo M w hfield
    (hin (one_le_bits_of_fieldLegal hfield))
  have hwindow : windowAt M (windowStart bo byo) bits.toNat = windowAt p 0 (8 * p.length) := by
    rw [← hbits]
    refine windowAt_congr fun i hi => ?_
    rw [hwire i hi, List.getD_eq_getElem?_getD, List.getElem?_map, List.getElem?_range hi, hbits, Nat.sub_self]
    rfl
  have hback : q = p.reverse := eq_of_uLE (by rw [hq, List.length_reverse]; omega)
    (hnumber.trans (hwindow.trans (uLE_reverse p).symm))
  rw [hexec, hback, List.reverse_reverse]

/-- The nibbles of an encoded digit string stand in the message one after the other. -/
theorem nibble_of_carried_digits {al : Align}
    (h : carriesField (.encBcd sg al .append pad bits bitOff p) off (4 * (bits.toNat / 4)) M)
    (hp : ∀ c ∈ p, 0x30 ≤ c.toNat) :
    Instr.fieldLegal bits M = true ∧
      (1 ≤ 4 * (bits.toNat / 4) → off + 4 * (bits.toNat / 4) ≤ 8 * M.length) ∧
      ∀ k < bits.toNat / 4, windowAt M (off + 4 * k) 4 = slotNibble p (bits.toNat / 4) al pad k := by
  have hlegal := legal_of_carriesField h
  obtain ⟨hin, hslots⟩ := message_holds_field h (by simp) fun s =>
    (bcdEncoderStoresSlots sg al .append pad bits bitOff p s hlegal (.inr hp)).imp fun _ ⟨_, _, hq⟩ => hq
  refine ⟨fieldLegal_of_encoderLegal (encoderLegal_of_legal (encBcd_mem_typedEncoders al) hlegal) hM, hin, ?_⟩
  intro k hk
  have hbits : ∀ j < 4, wireBit M (off + 4 * k + j) =
      (fieldBits (slotNibble p (bits.toNat / 4) al pad k) 4).getD j false := by
    intro j hj
    have hlt : 4 * k + j < 4 * (bits.toNat / 4) := by omega
    rw [Nat.add_assoc, hslots _ hlt, fieldBits_getD, decide_eq_true hj, Bool.true_and, List.getD_eq_getElem?_getD,
      List.getElem?_map, List.getElem?_range hlt, Option.map_some, Option.getD_some,
      show (4 * k + j) / 4 = k by omega, show (4 * k + j) % 4 = j by omega]
  exact (windowAt_of_fieldBits hbits).trans (Nat.mod_eq_of_lt (slotNibble_lt _ _ _ _ _))

omit hM in
/-- The slot of a character reads back as that character, where its digit fits a nibble under `S` (R118, R146). -/
theorem digit_of_slotNibble {al : Align} {k : Nat} (hk : k < p.length) {sg' : Bool}
    (hp : ∀ c ∈ p, 0x30 ≤ c.toNat ∧ c.toNat ≤ if sg' = true then 0x37 else 0x39) :
    0x30 + signedValue (slotNibble p p.length al pad k) 4 sg' = ((p.getD k 0).toNat : Int) := by
  have hstart : bcdStart al p.length p.length = 0 := by rw [bcdStart_eq, Nat.sub_self, ite_self]
  obtain ⟨hlo, hhi⟩ := hp _ (List.getElem_mem hk)
  rw [List.getElem_eq_getD (fallback := 0)] at hlo hhi
  rw [slotNibble_eq, hstart, if_pos (by omega), Nat.sub_zero]
  cases sg' with
  | true => rw [if_pos rfl] at hhi; rw [signedValue_signed, if_neg (by omega)]; omega
  | false => rw [if_neg (by decide)] at hhi; rw [signedValue_unsigned]; omega

/-- A digit string of exactly the field's slots comes back as it was stored. -/
theorem digits_roundTrip {al : Align} {bo byo : Word}
    (h : carriesField (.encBcd sg al .append pad bits bitOff p) (windowStart bo byo) (4 * (bits.toNat / 4)) M)
    (hlen : p.length = bits.toNat / 4) {sg' : Bool}
    (hp : ∀ c ∈ p, 0x30 ≤ c.toNat ∧ c.toNat ≤ if sg' = true then 0x37 else 0x39) (w : State) :
    exec (.decBcd sg' bits bo byo M) w = .next (w.answered w.bb .ok (4 * (bits.toNat / 4)) p) := by
  obtain ⟨hfield, hin, hnibble⟩ := nibble_of_carried_digits hM h fun c hc => (hp c hc).1
  have hwhole : bits.toNat / 4 = wholeNibbles M (windowStart bo byo) (bits.toNat / 4) := by
    rw [wholeNibbles]
    omega
  obtain ⟨q, hexec, hq, hdigit⟩ := bcdDecoderReturnsDigits sg' bits bo byo M w hfield _ hwhole
  have hback : q = p := by
    refine List.ext_getElem (hq.trans hlen.symm) fun k hkq hkp => BitVec.eq_of_toNat_eq ?_
    have hslot : k < bits.toNat / 4 := hlen ▸ hkp
    have hk := hdigit k hslot
    change _ = 0x30 + signedValue (windowAt M (windowStart bo byo + 4 * k) 4) 4 sg' at hk
    rw [hnibble k hslot, ← hlen, digit_of_slotNibble hkp hp, ← List.getElem_eq_getD, ← List.getElem_eq_getD] at hk
    exact_mod_cast hk
  rw [hexec, hback, if_neg (lt_irrefl _)]

end

/-- The integer types: encoder, decoder, and the native width where the type has one (R110 to R114, R138 to R142). -/
def integerTypes :
    List ((Bool → Dst → Byte → Word → Word → Bytes → Instr) × (Bool → Word → Word → Word → Bytes → Instr) × Option Nat) :=
  [(.encByte, .decByte, some 1), (.encShort, .decShort, some 2), (.encInt, .decInt, some 4),
    (.encLong, .decLong, some 8), (.encBigint, .decBigint, none)]

theorem integerType_cases {e : Bool → Dst → Byte → Word → Word → Bytes → Instr}
    {d : Bool → Word → Word → Word → Bytes → Instr} {native : Option Nat}
    (hc : (e, d, native) ∈ integerTypes) :
    e ∈ integerEncoders ∧ ((∃ N, native = some N ∧ (d, N) ∈ integerDecoders) ∨ (native = none ∧ d = .decBigint)) := by
  simp only [integerTypes, List.mem_cons, Prod.mk.injEq, List.not_mem_nil, or_false] at hc
  rcases hc with ⟨rfl, rfl, rfl⟩ | ⟨rfl, rfl, rfl⟩ | ⟨rfl, rfl, rfl⟩ | ⟨rfl, rfl, rfl⟩ | ⟨rfl, rfl, rfl⟩
  iterate 4 exact ⟨by simp [integerEncoders], .inl ⟨_, rfl, by simp [integerDecoders]⟩⟩
  · exact ⟨by simp [integerEncoders], .inr ⟨rfl, rfl⟩⟩

/-- Settles O58: the decoder finds the stored value in its window and returns it. -/
theorem integerRoundTrip : Obligations.IntegerRoundTrip := by
  rintro ⟨e, d, native⟩ hc sg pad bits bitOff bo byo p M w hcarries hv hM hnative
  obtain ⟨he, htype⟩ := integerType_cases hc
  obtain ⟨hfield, hin, hvalue⟩ := window_of_carried_integer hM he hcarries hv
  rcases htype with ⟨N, rfl, hd⟩ | ⟨rfl, rfl⟩
  · obtain ⟨q, hexec, hq, hsigned, hunsigned⟩ :=
      integerDecodersReturnValue (d, N) hd sg bits bo byo M w hfield (hnative N rfl) hin
    refine ⟨q, hexec, hq, ?_⟩
    cases sg with
    | true => exact (hsigned rfl).trans hvalue
    | false => exact (congrArg Nat.cast (hunsigned rfl)).trans hvalue
  · obtain ⟨q, hexec, hq, hback⟩ := bigintDecoderReturnsValue sg bits bo byo M w hfield hin
    exact ⟨q, hexec, hq, (if_pos (.inr rfl)).mpr (hback.trans hvalue)⟩

/-- Settles O59: one clause for each of the round trips above. -/
theorem verbatimRoundTrip : Obligations.VerbatimRoundTrip := by
  intro al sg sg' pad bits bitOff bo byo p M w hM
  refine ⟨?_, ?_, fun h hbits => bytes_roundTrip hM h hbits sg' w, fun h hlen hp => digits_roundTrip hM h hlen hp w⟩
  · rintro h rfl
    obtain ⟨-, hlen⟩ := (Bool.and_eq_true _ _).mp (legal_of_carriesField h)
    exact pattern_roundTrip hM (e := .encFloat) (d := (.decFloat, 4)) (by simp [patternEncoders])
      (by simp [patternDecoders]) h rfl (of_decide_eq_true hlen) sg' w
  · rintro h rfl
    obtain ⟨-, hlen⟩ := (Bool.and_eq_true _ _).mp (legal_of_carriesField h)
    exact pattern_roundTrip hM (e := .encDouble) (d := (.decDouble, 8)) (by simp [patternEncoders])
      (by simp [patternDecoders]) h rfl (of_decide_eq_true hlen) sg' w

end Sys2Proof.Machine
end

section
/-!
PROOFS. The statements about the exceptions (60_exceptions.md). An incomplete packet is no packet
(`takePacket_eq_none_of_incomplete`); a fatal status leaves the failed state and nothing else
(`exec_eq_failed_of_fatal`); and the statuses of a command are collected along its meaning, from the shared operations to
the dispatch (`AnswersIn`).
-/

namespace Sys2Proof.Machine

/-! ## Incomplete packets -/

/-- Without a whole header, or with one whose payload is not all there, there is no packet to take (R64). -/
theorem takePacket_eq_none_of_incomplete {bs : Bytes}
    (hpart : bs.length < 20 ∨ ∃ h r, takeHeader bs = some (h, r) ∧ r.length < h.plen) : takePacket bs = none := by
  refine Option.eq_none_iff_forall_ne_some.mpr ?_
  rintro ⟨h, p, rest⟩ hpacket
  obtain ⟨rfl, hp⟩ := takePacket_some hpacket
  rcases hpart with hshort | ⟨h', r, hheader, hr⟩
  · simp only [List.length_append, length_header_bytes] at hshort
    omega
  · rw [List.append_assoc, takeHeader_bytes] at hheader
    cases hheader
    rw [List.length_append] at hr
    omega

/-! ## Fatal statuses -/

theorem isFatal_eq_true_iff (st : Status) :
    isFatal st = true ↔ st = .invalidArgument ∨ st = .outOfBounds ∨ st = .illegalCommand ∨ st = .capacity := by
  cases st <;> simp [isFatal]

theorem isFatal_eq_false_iff (st : Status) : isFatal st = false ↔ st = .ok ∨ st = .truncated := by
  cases st <;> simp [isFatal]

/-- A command answered with a fatal status leaves the failed state (R160). -/
theorem exec_eq_failed_of_fatal {i : Instr} {s t : State} {st : Status} (hexec : exec i s = .next t)
    (hstatus : t.lastStatus = some st) (hfatal : isFatal st = true) : t = s.failed st := by
  obtain ⟨a, ha, hrun⟩ := exec_isAction i
  rw [hrun s] at hexec
  cases hexec
  rw [after_lastStatus] at hstatus
  cases hstatus
  obtain ⟨hbb, hrbits, hpayload⟩ := effect_of_fatal ha hfatal
  rw [State.after, State.failed, hbb, hrbits, hpayload]

/-! ## The statuses of the shared operations -/

/-- An outcome whose response has one of the statuses `l`. -/
def AnswersIn (l : List Status) (o : Host.Outcome State Fault Refusal) : Prop :=
  ∀ t st, o = .next t → t.lastStatus = some st → st ∈ l

section
variable {l : List Status} {o o' : Host.Outcome State Fault Refusal} {s : State}

theorem answersIn_answered {bb : Bits} {st : Status} {n : Nat} {q : Bytes} (hst : st ∈ l) :
    AnswersIn l (.next (s.answered bb st n q)) := by
  rintro t st' ht hstatus
  cases ht
  rw [answered_lastStatus] at hstatus
  cases hstatus
  exact hst

theorem answersIn_respond {st : Status} {n : Nat} {q : Bytes} (hst : st ∈ l := by simp [statusesOf]) :
    AnswersIn l (respond st n q s) :=
  answersIn_answered hst

theorem answersIn_raise {st : Status} (hst : st ∈ l := by simp [statusesOf]) : AnswersIn l (raise st s) :=
  answersIn_answered hst

theorem answersIn_ite {c : Prop} [Decidable c] (ho : AnswersIn l o) (ho' : AnswersIn l o') :
    AnswersIn l (if c then o else o') := by
  split
  · exact ho
  · exact ho'

/-- The check of the header and the payload length comes first in most meanings (R161). -/
theorem answersIn_checked {c : Prop} [Decidable c] (ho : AnswersIn l o)
    (hillegal : .illegalCommand ∈ l := by simp [statusesOf]) :
    AnswersIn l (if c then o else raise .illegalCommand s) :=
  answersIn_ite ho (answersIn_raise hillegal)

/-- A store completes or finds no room (R159). -/
theorem answersIn_storeAppend {chunk : Bytes} {n : Nat} {q : Bytes} (hok : .ok ∈ l := by simp [statusesOf])
    (hcapacity : .capacity ∈ l := by simp [statusesOf]) : AnswersIn l (storeAppend chunk n q s) :=
  answersIn_ite (answersIn_answered hok) (answersIn_raise hcapacity)

theorem answersIn_storeWrite {chunk : Bytes} {off n : Nat} {q : Bytes} (hok : .ok ∈ l := by simp [statusesOf])
    (hcapacity : .capacity ∈ l := by simp [statusesOf]) : AnswersIn l (storeWrite chunk off n q s) :=
  answersIn_ite (answersIn_answered hok) (answersIn_raise hcapacity)

/-- An encoder meets `CAPACITY` only where it stores (R109, R155). -/
theorem answersIn_finish {dst : Dst} {chunk : Bytes} {eff off : Nat}
    (hroom : roomStatus dst ⊆ l) (hok : .ok ∈ l := by simp) (hillegal : .illegalCommand ∈ l := by simp) :
    AnswersIn l (finish dst chunk eff off s) := by
  cases dst with
  | none => exact answersIn_respond hok
  | append => exact answersIn_storeAppend hok (hroom (List.mem_singleton_self _))
  | write => exact answersIn_storeWrite hok (hroom (List.mem_singleton_self _))
  | reserved => exact answersIn_raise hillegal

end

section
variable (s : State) (sg : Bool) (al : Align) (dst : Dst) (pad : Byte) (bits bitOff byteOff : Word) (p : Bytes)

/-- The integer encoders may refuse the value (R108, R156). -/
theorem answersIn_encodeInteger (lengthOk : Bool) :
    AnswersIn ([.ok, .illegalCommand, .invalidArgument] ++ roomStatus dst)
      (encodeInteger lengthOk sg dst bits bitOff p s) := by
  rw [encodeInteger_eq]
  exact answersIn_checked (answersIn_ite answersIn_raise (answersIn_finish (List.subset_append_right _ _)))

/-- The pattern encoders take every value (R115, R116). -/
theorem answersIn_encodePattern (lengthOk : Bool) :
    AnswersIn ([.ok, .illegalCommand] ++ roomStatus dst) (encodePattern lengthOk dst bits bitOff p s) :=
  answersIn_checked (answersIn_finish (List.subset_append_right _ _))

theorem answersIn_execEncBytes :
    AnswersIn ([.ok, .illegalCommand] ++ roomStatus dst) (execEncBytes sg al dst pad bits bitOff p s) :=
  answersIn_checked (answersIn_finish (List.subset_append_right _ _))

/-- A character below `'0'` is refused under `S = 0` (R118, R156). -/
theorem answersIn_execEncBcd :
    AnswersIn ([.ok, .illegalCommand, .invalidArgument] ++ roomStatus dst)
      (execEncBcd sg al dst pad bits bitOff p s) := by
  unfold execEncBcd
  cases bcdWindow p (bits.toNat / 4) sg al pad with
  | none => exact answersIn_checked answersIn_raise
  | some W => exact answersIn_checked (answersIn_finish (List.subset_append_right _ _))

theorem answersIn_execSwTowin :
    AnswersIn [.ok, .illegalCommand, .invalidArgument] (execSwTowin sg bits p s) := by
  unfold execSwTowin
  cases toWindow (sLE p) bits.toNat sg with
  | none => exact answersIn_checked answersIn_raise
  | some W => exact answersIn_checked answersIn_respond

theorem answersIn_execBrRbits : AnswersIn [.ok, .illegalCommand] (execBrRbits p s) := by
  rcases p with _ | ⟨b, _ | ⟨c, p⟩⟩
  · exact answersIn_raise
  · exact answersIn_respond
  · exact answersIn_raise

/-- A strict decoder fails on its header or on its bounds (R149, R162). -/
theorem answersIn_windowReply (native : Option Nat) (f : Bytes → Bytes) :
    AnswersIn [.ok, .illegalCommand, .outOfBounds] (windowReply native bits bitOff byteOff p f s) := by
  rw [windowReply, extract_eq]
  by_cases hlegal : Instr.fieldLegal bits p = true ∧ withinNative native bits.toNat = true
  · rw [if_pos hlegal]
    by_cases hin : windowStart bitOff byteOff + bits.toNat ≤ 8 * p.length
    · rw [if_pos hin]; exact answersIn_respond
    · rw [if_neg hin]; exact answersIn_raise
  · rw [if_neg hlegal]; exact answersIn_raise

theorem answersIn_strictDecoder {d : Bool → Word → Word → Word → Bytes → Instr} (hd : d ∈ strictDecoders) :
    AnswersIn [.ok, .illegalCommand, .outOfBounds] (exec (d sg bits bitOff byteOff p) s) := by
  obtain ⟨native, f, hrun⟩ := isStrictDecoder hd sg bits
  obtain ⟨hexec, -⟩ := hrun bitOff byteOff p
  rw [hexec]
  exact answersIn_windowReply s bits bitOff byteOff p native f

/-- `DEC.BCD` reports a short payload as `TRUNCATED` (R157). -/
theorem answersIn_execDecBcd :
    AnswersIn [.ok, .illegalCommand, .truncated] (execDecBcd sg bits bitOff byteOff p s) :=
  answersIn_checked (answersIn_respond (by split <;> simp))

end

/-- What statuses a command can have: those that R155 lists for it. -/
theorem exec_answersIn_statusesOf (i : Instr) (s : State) : AnswersIn (statusesOf i) (exec i s) := by
  cases i with
  | nop p | bbTobytes p | bbClear p => exact answersIn_ite answersIn_raise answersIn_respond
  | swTowin sg bits p => exact answersIn_execSwTowin s sg bits p
  | brRbits p => exact answersIn_execBrRbits s p
  | swFromwin | brRbytes | ptPart | ptFlat | ptPack | beEncode => exact answersIn_checked answersIn_respond
  | encByte sg dst pad bits bitOff p | encShort sg dst pad bits bitOff p | encInt sg dst pad bits bitOff p
  | encLong sg dst pad bits bitOff p | encBigint sg dst pad bits bitOff p =>
    exact answersIn_encodeInteger s sg dst bits bitOff p _
  | encFloat sg dst pad bits bitOff p | encDouble sg dst pad bits bitOff p =>
    exact answersIn_encodePattern s dst bits bitOff p _
  | encBytes sg al dst pad bits bitOff p => exact answersIn_execEncBytes s sg al dst pad bits bitOff p
  | encBcd sg al dst pad bits bitOff p => exact answersIn_execEncBcd s sg al dst pad bits bitOff p
  | decByte sg bits bitOff byteOff p | decShort sg bits bitOff byteOff p | decInt sg bits bitOff byteOff p
  | decLong sg bits bitOff byteOff p | decBigint sg bits bitOff byteOff p | decFloat sg bits bitOff byteOff p
  | decDouble sg bits bitOff byteOff p | decBytes sg bits bitOff byteOff p | decBits sg bits bitOff byteOff p =>
    exact answersIn_strictDecoder s sg bits bitOff byteOff p (by simp [strictDecoders])
  | decBcd sg bits bitOff byteOff p => exact answersIn_execDecBcd s sg bits bitOff byteOff p
  | bbAppend => exact answersIn_checked answersIn_storeAppend
  | bbWrite => exact answersIn_checked answersIn_storeWrite

/-! ## The statements -/

/-- Settles O7: there is no packet to take and no reset, so the block waits. -/
theorem incompletePacketWaits : Obligations.IncompletePacketWaits := by
  intro s bs hport hpart
  rw [step, hport, fetch_waiting bs (takePacket_eq_none_of_incomplete hpart)]

/-- Settles O16: the four statuses are the fatal ones, and a fatal status leaves the failed state. -/
theorem fatalStatusLeavesNoTrace : Obligations.FatalStatusLeavesNoTrace := by
  intro i s t st hexec hstatus hst
  obtain rfl := exec_eq_failed_of_fatal hexec hstatus ((isFatal_eq_true_iff st).mpr hst)
  exact ⟨rfl, rfl, rfl⟩

/-- Settles O18: the statuses are collected along the meaning of each command. -/
theorem statusesAreAsTabled : Obligations.StatusesAreAsTabled :=
  ⟨exec_answersIn_statusesOf, rfl, isFatal_eq_false_iff⟩

/-- Settles O55: past the header checks, only the bounds of the window decide. -/
theorem windowOutsidePayloadIsOutOfBounds : Obligations.WindowOutsidePayloadIsOutOfBounds := by
  intro d hd sg bits bitOff byteOff p s hlegal
  obtain ⟨native, f, hrun⟩ := isStrictDecoder hd sg bits
  obtain ⟨hexec, hlegal_eq⟩ := hrun bitOff byteOff p
  rw [hlegal_eq] at hlegal
  obtain ⟨hfield, hnative⟩ := (Bool.and_eq_true _ _).mp hlegal
  rw [hexec]
  exact ⟨fun hpast => windowReply_outOfBounds hlegal hpast f s,
    fun hin => ⟨_, windowReply_of_inside hfield hin s hnative f⟩⟩

end Sys2Proof.Machine
end

section
/-!
PROOFS. The statement about reset (70_reset_and_hazards.md). Each place where a reset can fall (inside a header, inside a
payload, during a command) is one answer of `fetch`, and a step acts on that answer alone (`step_fetch_reset`).
-/

namespace Sys2Proof.Machine

/-! ## Steps that take a reset -/

/-- Where `fetch` finds a reset, the step empties the buffer, produces no response and runs no command (R175). -/
theorem step_fetch_reset {s : State} {rest : List PortEvent} (hfetch : fetch s.port = .reset rest) :
    step s = .next (takeReset rest s) := by
  rw [step, hfetch]

/-- A reset that comes before the packet is whole: its bytes are abandoned (R175; log entry 4). -/
theorem step_reset_inside_packet {s : State} {bs : Bytes} {busy : Bool} {rest : List PortEvent}
    (hport : s.port = bs.map .byte ++ .reset busy :: rest)
    (hpart : bs.length < 20 ∨ ∃ h r, takeHeader bs = some (h, r) ∧ r.length < h.plen) :
    step s = .next (takeReset rest s) := by
  refine step_fetch_reset ?_
  rw [hport, fetch_reset bs busy rest (takePacket_eq_none_of_incomplete hpart)]

/-- A reset during the command of a whole packet: the command is abandoned (R175). -/
theorem step_reset_during_command {s : State} {h : Header} {p : Bytes} {rest : List PortEvent}
    (hport : s.port = (h.bytes ++ p).map .byte ++ .reset true :: rest) (hp : p.length = h.plen) :
    step s = .next (takeReset rest s) := by
  refine step_fetch_reset ?_
  rw [hport, fetch_abandoned h p rest hp]

/-! ## The statement -/

/-- Settles O8: inside a header or a payload no packet is whole yet, and a whole packet's command is abandoned. -/
theorem resetEmptiesBuffer : Obligations.ResetEmptiesBuffer := by
  refine ⟨?insideHeader, ?insidePayload, ?duringCommand⟩
  case insideHeader =>
    intro s bs busy rest hport hshort
    exact step_reset_inside_packet hport (.inl hshort)
  case insidePayload =>
    intro s h p busy rest hport hshort
    exact step_reset_inside_packet hport (.inr ⟨h, p, takeHeader_bytes h p, hshort⟩)
  case duringCommand =>
    intro s h p rest hport hp
    exact step_reset_during_command hport hp

end Sys2Proof.Machine
end
